-- ==== Sys2Proof/Word.lean ====
section
/-! DEFINITION. The widths of the block's registers and elements (00_scope.md R5, 10_state.md R20, R22, R24, R27). -/

namespace Sys2Proof

/-- One byte of IN, FB, BYTEV or PB. -/
abbrev Byte := BitVec 8

/-- A code's value in INDEX and OLD, zero-extended to 12 bits (30_encoding.md R66). -/
abbrev Code := BitVec 12

/-- One colour-table entry: R in bits 7:0, G in 15:8, B in 23:16 (10_state.md R18). -/
abbrev Rgb := BitVec 24

/-- A pen or clip coordinate (10_state.md R27). -/
abbrev Coord := BitVec 17

/-- A PREFIX element: two's complement, -1 for an atomic entry (10_state.md R24, R31). -/
abbrev Link := BitVec 13

end Sys2Proof
end

