-- ==== Sys2Proof/Config.lean ====
section
/-! DEFINITION. The fixed constants of 00_scope.md R5, and the values the spec leaves to the instance or leaves
unspecified: constants with no body, so that nothing can be proved of their values. -/

namespace Sys2Proof.Config

/-- DICT_CAP: the dictionary's entries, and the count of PB's bytes (R5). -/
def dictCap : Nat := 4096

/-- PB_CAP (R5). -/
def pbCap : Nat := 4096

/-- MAX_CODE_WIDTH and READBITS_MAX (R5). -/
def maxCodeWidth : Nat := 12

/-- MIN_CODE_SIZE_LO (R5). -/
def minCodeSizeLo : Nat := 2

/-- MIN_CODE_SIZE_HI (R5). -/
def minCodeSizeHi : Nat := 8

/-- CT_MAX (R5). -/
def ctMax : Nat := 256

/-- FB_INIT: the byte the frame holds at an offset that nothing has written (R6, D23; log entry 2). -/
opaque fbInit : Nat → Byte

/-- The free value of frame pixel (px, py) after the abort with this number (60_exceptions.md R148, U1; log entry 3). -/
opaque errorPixel (abortNo px py : Nat) : BitVec 32

end Sys2Proof.Config
end

