-- ==== Sys2Proof/Syntax.lean ====
section
/-! DEFINITION. The configuration record that START carries (10_state.md R16), the block's instructions (one
constructor per row of opcode_table.json), and the places of the stream that give a code or a byte its class
(30_encoding.md R71, R72). -/

namespace Sys2Proof

/-- CFG, the per-decode configuration record (10_state.md R15, R16). A position has ADDR_W bits and
is kept as a Nat below 2^ADDR_W, which START's latch sees to (log entry 4). -/
structure Cfg where
  startPos : Nat
  left : BitVec 16
  top : BitVec 16
  width : BitVec 16
  height : BitVec 16
  canvasW : BitVec 16
  canvasH : BitVec 16
  ctLen : BitVec 9
  gcePresent : Bool
  transparentFlag : Bool
  transparentIndex : Byte
  deriving DecidableEq, Repr

/-- The rows of opcode_table.json: nine code classes (R71), eight byte tokens (R72) and the host command (R139). -/
inductive Instr where
  /-- FIRST_CLEAR: the first code, equal to clearCode. -/
  | firstClear
  /-- FIRST_BAD: any other first code. -/
  | firstBad (c : Code)
  /-- START_LITERAL: a start code below clearCode. -/
  | startLiteral (c : Code)
  /-- START_BAD: a start code at or above clearCode. -/
  | startBad (c : Code)
  /-- EOI: in LOOP, eoiCode. -/
  | eoi
  /-- CLEAR: in LOOP, clearCode. -/
  | clear
  /-- EXISTING: in LOOP, a live entry. -/
  | existing (c : Code)
  /-- KWKWK: in LOOP, currentIndex. -/
  | kwkwk (c : Code)
  /-- INVALID: in LOOP, a code above currentIndex. -/
  | invalid (c : Code)
  /-- MINCODESIZE: the first byte of the decode, 2..8. -/
  | minCodeSize (b : Byte)
  /-- MINCODESIZE_BAD: the first byte of the decode, any other value. -/
  | minCodeSizeBad (b : Byte)
  /-- FIRST_LEN: the byte after minCodeSize. -/
  | firstLen (b : Byte)
  /-- SUBBLOCK_LEN: a length byte 1..255 met by a refill. -/
  | subblockLen (b : Byte)
  /-- MIDSTREAM_TERMINATOR: a length byte 0 met by a refill. -/
  | midstreamTerminator
  /-- DATA: a data byte loaded by a refill. -/
  | data (b : Byte)
  /-- TERMINATOR: the byte 0 at the terminator check. -/
  | terminator
  /-- BAD_TERMINATOR: any other byte at the terminator check. -/
  | badTerminator (b : Byte)
  /-- START: the host command; it has no bit pattern (R139). -/
  | start (cfg : Cfg)
  deriving DecidableEq, Repr

/-- Where a byte token stands (30_encoding.md R72, first column). -/
inductive BytePlace where
  /-- OPEN, the first byte of the decode. -/
  | openByte
  /-- OPEN, the byte after minCodeSize. -/
  | firstLen
  /-- A refill that finds BR.bytesInBlock = 0. -/
  | refillLen
  /-- A refill's data byte. -/
  | refillData
  /-- The terminator check, after the rest of the sub-block is skipped. -/
  | terminator
  deriving DecidableEq, Repr

/-- The phase that reads a code (30_encoding.md R71, first column). -/
inductive CodePlace where
  | first
  | start
  | loop
  deriving DecidableEq, Repr

/-- What the class of a code depends on besides its place: the dictionary registers (30_encoding.md R68, R71). -/
structure CodeView where
  width : Nat
  clearCode : Nat
  eoiCode : Nat
  currentIndex : Nat
  deriving DecidableEq, Repr

/-- A place in the stream. -/
inductive Context where
  | byte (p : BytePlace)
  | code (p : CodePlace) (d : CodeView)
  deriving DecidableEq, Repr

/-- How many stream bits the token at a place has (30_encoding.md R63, R72). -/
def Context.bitWidth : Context → Nat
  | .byte _ => 8
  | .code _ d => d.width

end Sys2Proof
end

