-- ==== Sys2Proof/WellFormed.lean ====
section
/-! DEFINITION. Which instructions may stand at a place of the stream: the conditions of 30_encoding.md R71 and R72.
START stands at no place of the stream (60_exceptions.md R139: no bit pattern). -/

namespace Sys2Proof

/-- What the class map needs of the dictionary registers (10_state.md R22, R23): the width is one the decoder uses,
eoiCode follows clearCode, currentIndex lies above both and is at most 4096, and both reserved codes fit the width. -/
def CodeView.wf (d : CodeView) : Bool :=
  decide (3 ≤ d.width) && decide (d.width ≤ Config.maxCodeWidth) && decide (d.eoiCode = d.clearCode + 1) &&
    decide (d.eoiCode < d.currentIndex) && decide (d.currentIndex ≤ Config.dictCap) &&
    decide (d.eoiCode < 2 ^ d.width)

/-- The dictionary registers of a code place are well formed; a byte place has none. -/
def Context.wf : Context → Bool
  | .byte _ => true
  | .code _ d => d.wf

/-- A minCodeSize byte that OPEN accepts (30_encoding.md R65). -/
def legalMinCodeSize (b : Byte) : Bool :=
  decide (Config.minCodeSizeLo ≤ b.toNat) && decide (b.toNat ≤ Config.minCodeSizeHi)

/-- A code's value fits the width it is read at (30_encoding.md R63). -/
def fitsWidth (d : CodeView) (c : Code) : Bool := decide (c.toNat < 2 ^ d.width)

/-- The conditions on a code class at a code place (R71). -/
def Instr.wfAtCode (p : CodePlace) (d : CodeView) : Instr → Bool
  | .firstClear => decide (p = .first)
  | .firstBad c => decide (p = .first) && fitsWidth d c && decide (c.toNat ≠ d.clearCode)
  | .startLiteral c => decide (p = .start) && decide (c.toNat < d.clearCode)
  | .startBad c => decide (p = .start) && fitsWidth d c && decide (d.clearCode ≤ c.toNat)
  | .eoi => decide (p = .loop)
  | .clear => decide (p = .loop)
  | .existing c =>
      decide (p = .loop) && fitsWidth d c && decide (c.toNat < d.currentIndex) &&
        decide (c.toNat ≠ d.clearCode) && decide (c.toNat ≠ d.eoiCode)
  | .kwkwk c => decide (p = .loop) && fitsWidth d c && decide (c.toNat = d.currentIndex)
  | .invalid c => decide (p = .loop) && fitsWidth d c && decide (d.currentIndex < c.toNat)
  | .minCodeSize _ => false
  | .minCodeSizeBad _ => false
  | .firstLen _ => false
  | .subblockLen _ => false
  | .midstreamTerminator => false
  | .data _ => false
  | .terminator => false
  | .badTerminator _ => false
  | .start _ => false

/-- The conditions on a byte token at a byte place (R72). -/
def Instr.wfAtByte (p : BytePlace) : Instr → Bool
  | .minCodeSize b => decide (p = .openByte) && legalMinCodeSize b
  | .minCodeSizeBad b => decide (p = .openByte) && !legalMinCodeSize b
  | .firstLen _ => decide (p = .firstLen)
  | .subblockLen b => decide (p = .refillLen) && decide (b ≠ 0)
  | .midstreamTerminator => decide (p = .refillLen)
  | .data _ => decide (p = .refillData)
  | .terminator => decide (p = .terminator)
  | .badTerminator b => decide (p = .terminator) && decide (b ≠ 0)
  | .firstClear => false
  | .firstBad _ => false
  | .startLiteral _ => false
  | .startBad _ => false
  | .eoi => false
  | .clear => false
  | .existing _ => false
  | .kwkwk _ => false
  | .invalid _ => false
  | .start _ => false

/-- The instruction may stand at this place. -/
def Instr.wellFormed (x : Context) (i : Instr) : Bool :=
  match x with
  | .byte p => i.wfAtByte p
  | .code p d => d.wf && i.wfAtCode p d

end Sys2Proof
end

