-- ==== Sys2Proof/Decode.lean ====
section
/-! DEFINITION. From stream bits to an instruction, and back. A code or a byte has its class from its place
(30_encoding.md R71, R72), so the decoder takes the place beside the bits. -/

namespace Sys2Proof

/-- Why the decoder gives no instruction. -/
inductive Reject where
  /-- fewer than eight bits are left at a byte place -/
  | noByte
  /-- the code width lies outside 1..12 (40_bitreader.md R82) -/
  | codeWidth
  /-- fewer bits are left than the code is wide -/
  | shortCode
  deriving DecidableEq, Repr

/-- A code's value from its stream bits: stream bit k is bit k of the value (R63, R66). -/
def bitsValue : List Bool → Nat
  | [] => 0
  | b :: bs => b.toNat + 2 * bitsValue bs

/-- The first `n` bits of a value, least significant bit first (R63). -/
def valueBits : Nat → Nat → List Bool
  | 0, _ => []
  | n + 1, v => (v % 2 == 1) :: valueBits n (v / 2)

/-- The byte tokens (30_encoding.md R72). -/
def decodeByte : BytePlace → Byte → Instr
  | .openByte, b => if legalMinCodeSize b then .minCodeSize b else .minCodeSizeBad b
  | .firstLen, b => .firstLen b
  | .refillLen, b => if b = 0 then .midstreamTerminator else .subblockLen b
  | .refillData, b => .data b
  | .terminator, b => if b = 0 then .terminator else .badTerminator b

/-- The code classes (30_encoding.md R71). In LOOP the reserved codes are tested first; under R23 the conditions are
disjoint (log entry 12). -/
def decodeCode (p : CodePlace) (d : CodeView) (c : Code) : Instr :=
  match p with
  | .first => if c.toNat = d.clearCode then .firstClear else .firstBad c
  | .start => if c.toNat < d.clearCode then .startLiteral c else .startBad c
  | .loop =>
      if c.toNat = d.eoiCode then .eoi
      else if c.toNat = d.clearCode then .clear
      else if c.toNat < d.currentIndex then .existing c
      else if c.toNat = d.currentIndex then .kwkwk c
      else .invalid c

/-- The instruction at a place, and the bits after it. Total; a rejection has a name. -/
def decode (x : Context) (bits : List Bool) : Except Reject (Instr × List Bool) :=
  match x with
  | .byte p =>
      if bits.length < 8 then .error .noByte
      else .ok (decodeByte p (BitVec.ofNat 8 (bitsValue (bits.take 8))), bits.drop 8)
  | .code p d =>
      if d.width = 0 ∨ Config.maxCodeWidth < d.width then .error .codeWidth
      else if bits.length < d.width then .error .shortCode
      else .ok (decodeCode p d (BitVec.ofNat 12 (bitsValue (bits.take d.width))), bits.drop d.width)

/-- The value that stands for an instruction in the stream: a code's value or a byte. START has none. -/
def Instr.value (x : Context) : Instr → Option Nat
  | .firstClear | .clear =>
      match x with
      | .code _ d => some d.clearCode
      | .byte _ => none
  | .eoi =>
      match x with
      | .code _ d => some d.eoiCode
      | .byte _ => none
  | .firstBad c | .startLiteral c | .startBad c | .existing c | .kwkwk c | .invalid c => some c.toNat
  | .minCodeSize b | .minCodeSizeBad b | .firstLen b | .subblockLen b | .data b | .badTerminator b => some b.toNat
  | .midstreamTerminator | .terminator => some 0
  | .start _ => none

/-- The stream bits of an instruction at a place, LSB first (R62, R63). START has no bits (R139). -/
def encode (x : Context) (i : Instr) : List Bool :=
  match i.value x with
  | some v => valueBits x.bitWidth v
  | none => []

/-- The place at which the host's question about a table word is decoded: the table tells its byte tokens apart by
where they stand, not by their bits, so one place had to be chosen (log entry 9). -/
def tablePlace : BytePlace := .terminator

/-- The instruction the decoder reads from a table word of one byte. No row of the table has another number of bits. -/
def decodeTableWord (nbits w : Nat) : Option Instr :=
  if nbits = 8 ∧ w < 256 then
    match decode (.byte tablePlace) (valueBits 8 w) with
    | .ok (i, _) => some i
    | .error _ => none
  else none

end Sys2Proof
end

