-- ==== Sys2Proof/Machine/State.lean ====
section
/-! DEFINITION. The block's state as plain data (10_state.md), the reasons a step can stop, and the state after
hardware reset (R33, R154). An Option that is `none` is the spec's value ⊥, "holds no value" (log entry 1). -/

namespace Sys2Proof.Machine

/-- PHASE (10_state.md R10). OPEN is called `opening`, since `open` is a word of Lean. -/
inductive Phase where
  | idle
  | opening
  | first
  | start
  | loop
  | term
  | done
  | error
  deriving DecidableEq, Repr

/-- STATUS.kind (10_state.md R11). The codes 6 and 7 are never written, so they have no constructor. -/
inductive Kind where
  | none
  | ok
  | eof
  | malformed
  /-- raised by the host only (60_exceptions.md R147) -/
  | unsupported
  /-- raised by the host only (60_exceptions.md R147) -/
  | invalidSignature
  deriving DecidableEq, Repr

/-- STATUS.reason (60_exceptions.md R144). -/
inductive Reason where
  | none
  | minCodeSizeRange
  | firstCodeNotClear
  | startCodeNotAtomic
  | codeBeyondNext
  | terminatorMidStream
  | nonZeroTerminator
  | colorIndexOutOfRange
  deriving DecidableEq, Repr

/-- STATUS (10_state.md R11); its bit layout is `Status.word` in Machine/Flags.lean. -/
structure Status where
  kind : Kind
  reason : Reason
  deriving DecidableEq, Repr

/-- The block's exceptions (60_exceptions.md R142). -/
inductive Exc where
  | eof
  | malformed (r : Reason)
  deriving DecidableEq, Repr

/-- The names of the registers that can hold ⊥, for `Fault.unwritten`. -/
inductive RegName where
  | endPos
  | cfg
  | brPos
  | brBytesInBlock
  | brBuffer
  | brBitsLeft
  | minCodeSize
  | codeLength
  | clearCode
  | eoiCode
  | currentIndex
  | maxCode
  | old
  | px
  | py
  | clipL
  | clipR
  | clipB
  deriving DecidableEq, Repr

/-- The model faults: each is a read the spec says no rule makes. All are safe (the machine stops). -/
inductive Fault where
  /-- Raised by every read of a register that holds ⊥, its stated reset and released value (R30, R33): the spec says that
  this read is a model fault (00_scope.md section 5, D12, U10, 95_test_vectors.md HO-2). Safe. -/
  | unwritten (r : RegName)
  /-- Raised by a read of PREFIX, BYTEV or LEN at an element that holds ⊥, the reserved slots among them (U9, U10). Safe. -/
  | entryUnwritten (i : Nat)
  /-- Raised by PAINT where a negative PREFIX is used as an index (R25: it never is). Safe. -/
  | negativeIndex
  /-- Raised by DICT_FIRSTBYTE where a PREFIX walk has not ended after 4096 entries: the chain is a ring and the walk
  would never end (R91: it takes LEN - 1 steps). Safe. -/
  | prefixRing
  /-- Raised by PAINT where a string would overrun PB (R125: it never does). Safe. -/
  | paintBufferOverrun
  /-- Raised by PAINT's read of a PB element that holds ⊥ (R155: PAINT writes it first). Safe. -/
  | paintBufferUnwritten (k : Nat)
  /-- Raised by CtRead where the host has not supplied the entry (R161 `ctSized` is not met). Safe. -/
  | ctUnwritten (i : Nat)
  /-- Raised by KWKWK where a frozen DICT_ADD has answered ⊥ (R90: KWKWK cannot occur while frozen). Safe. -/
  | frozenResult
  /-- Raised by the host's read of a frame byte outside the frame (R36). Safe. -/
  | frameAddress (a : Nat)
  deriving DecidableEq, Repr

/-- The refusals: operations the spec refuses (60_exceptions.md R153), and instructions with no meaning yet. -/
inductive Refusal where
  /-- Answered by an arm of exec whose instruction has no meaning yet. Safe. -/
  | notModelled (mnemonic : String)
  /-- Answered by START in a busy phase (R139, D13). Safe. -/
  | startWhileBusy
  /-- Answered by START with CFG.ctLen > 256 (R17, R139, D18). Safe. -/
  | ctLenOver256
  /-- Answered by BR_READBITS outside 1..12 (R82, D20). Safe. -/
  | readBitsWidth
  /-- Answered by the host's read of FB in a busy phase: the host has no such move (R159, U12). Safe. -/
  | frameReadWhileBusy
  deriving DecidableEq, Repr

/-- The bit reader's registers (10_state.md R20). A position is ADDR_W bits wide: `State.position` narrows what is
written to it (20_memory.md R34; log entry 4). -/
structure BitReader where
  pos : Option Nat
  bytesInBlock : Option (BitVec 8)
  buffer : Option (BitVec 8)
  bitsLeft : Option (BitVec 4)
  deriving DecidableEq, Repr

/-- The dictionary's registers (R22) and arrays (R24). An array is a list of (index, value) pairs in rising order of
index; an index not listed holds ⊥. `links` is PREFIX, `bytes` is BYTEV, `lens` is LEN. -/
structure Dict where
  minCodeSize : Option (BitVec 4)
  codeLength : Option (BitVec 4)
  clearCode : Option (BitVec 9)
  eoiCode : Option (BitVec 9)
  currentIndex : Option (BitVec 13)
  maxCode : Option (BitVec 12)
  links : List (Nat × Link)
  bytes : List (Nat × Byte)
  lens : List (Nat × BitVec 13)
  deriving DecidableEq, Repr

/-- The datapath registers (10_state.md R27). -/
structure Datapath where
  index : Option Code
  old : Option Code
  px : Option Coord
  py : Option Coord
  clipL : Option Coord
  clipR : Option Coord
  clipT : Option Coord
  clipB : Option Coord
  deriving DecidableEq, Repr

/-- The host's moves (60_exceptions.md R139, 70_reset_and_hazards.md R156, R158). Each is taken in a quiescent phase
only, so none breaks R159 (log entry 5). -/
inductive HostMove where
  /-- The host puts a stream into IN; its length becomes N (R34, R156). -/
  | writeIn (bytes : List Byte)
  /-- The host writes CT (R18, R156). -/
  | writeCt (entries : List Rgb)
  /-- The host writes one byte of FB (R158: it may touch everything between decodes). -/
  | writeFb (addr : BitVec 34) (b : Byte)
  /-- Hardware reset (R154). -/
  | reset
  /-- START (R139). -/
  | start (cfg : Cfg)
  deriving DecidableEq, Repr

/-- Everything the spec gives the machine (10_state.md R9), the two host memories, and three fields of the model's own:
`addrW` is the instance's parameter ADDR_W, the width of a position in IN, which no step changes (00_scope.md R6, D3,
U14; log entry 4), `draws` counts the aborts (log entry 3) and `host` holds the host's moves still to come (log
entry 5). -/
structure State where
  phase : Phase
  status : Status
  endPos : Option Nat
  cfg : Option Cfg
  ct : List Rgb
  br : BitReader
  dict : Dict
  dp : Datapath
  pb : List (Nat × Byte)
  input : List Byte
  fb : List Host.Cell
  addrW : Nat
  draws : Nat
  host : List HostMove
  deriving DecidableEq, Repr

/-- Every bit reader register holds ⊥ (R30, R33). -/
def BitReader.released : BitReader :=
  { pos := none, bytesInBlock := none, buffer := none, bitsLeft := none }

/-- Every dictionary register and element holds ⊥ (R30, R33). -/
def Dict.released : Dict :=
  { minCodeSize := none, codeLength := none, clearCode := none, eoiCode := none, currentIndex := none,
    maxCode := none, links := [], bytes := [], lens := [] }

/-- Every datapath register holds ⊥ (R30, R33). -/
def Datapath.released : Datapath :=
  { index := none, old := none, px := none, py := none, clipL := none, clipR := none, clipT := none, clipB := none }

/-- The state after hardware reset (R33, R154): PHASE IDLE, STATUS NONE with reason 0, every other register ⊥. IN is
empty and ADDR_W is 32 (log entry 4), FB holds FB_INIT (log entry 2) and the host has no move to make (log entry 5). -/
def State.reset : State :=
  { phase := .idle
    status := { kind := .none, reason := .none }
    endPos := none
    cfg := none
    ct := []
    br := BitReader.released
    dict := Dict.released
    dp := Datapath.released
    pb := []
    input := []
    fb := []
    addrW := 32
    draws := 0
    host := [] }

end Sys2Proof.Machine
end

