-- ==== Sys2Proof/Machine/Flags.lean ====
section
/-! DEFINITION. The codes of PHASE and STATUS (10_state.md R10, R11), and the conditions the rules test: quiescent and
busy phases, the frozen dictionary (R13) and the growth of the code width (41_dictionary.md R89). The block has no
condition flags (R14). -/

namespace Sys2Proof.Machine

/-- PHASE as the host reads it (R10). -/
def Phase.code : Phase → BitVec 3
  | .idle => 0
  | .opening => 1
  | .first => 2
  | .start => 3
  | .loop => 4
  | .term => 5
  | .done => 6
  | .error => 7

/-- IDLE, DONE and ERROR are quiescent, the others busy (R10). -/
def Phase.quiescent : Phase → Bool
  | .idle => true
  | .opening => false
  | .first => false
  | .start => false
  | .loop => false
  | .term => false
  | .done => true
  | .error => true

/-- STATUS.kind's code (R11). -/
def Kind.code : Kind → BitVec 3
  | .none => 0
  | .ok => 1
  | .eof => 2
  | .malformed => 3
  | .unsupported => 4
  | .invalidSignature => 5

/-- STATUS.reason's code (60_exceptions.md R144). -/
def Reason.code : Reason → BitVec 3
  | .none => 0
  | .minCodeSizeRange => 1
  | .firstCodeNotClear => 2
  | .startCodeNotAtomic => 3
  | .codeBeyondNext => 4
  | .terminatorMidStream => 5
  | .nonZeroTerminator => 6
  | .colorIndexOutOfRange => 7

/-- STATUS as the host reads it: the reason in bits 5:3, the kind in bits 2:0 (R11). -/
def Status.word (st : Status) : BitVec 6 := st.reason.code ++ st.kind.code

/-- STATUS at START and after reset. -/
def Status.idle : Status := { kind := .none, reason := .none }

/-- STATUS of a decode that ends normally (R115). -/
def Status.success : Status := { kind := .ok, reason := .none }

/-- What an exception leaves in STATUS: reason 0 for Eof (60_exceptions.md R142, R148). -/
def Exc.status : Exc → Status
  | .eof => { kind := .eof, reason := .none }
  | .malformed r => { kind := .malformed, reason := r }

/-- The frozen condition: `DICT.currentIndex == 4096` (R13). -/
def State.frozen (s : State) : Bool := decide (s.dict.currentIndex = some 4096#13)

/-- The growth test of DICT_ADD, made before the store (R89). -/
def growthDue (currentIndex : BitVec 13) (maxCode : BitVec 12) (codeLength : BitVec 4) : Bool :=
  decide (currentIndex.toNat = maxCode.toNat) && decide (codeLength.toNat < Config.maxCodeWidth)

/-- The growth threshold of a code width: `(1 << codeLength) - 1` (R22, R88, R89). -/
def thresholdOf (codeLength : Nat) : BitVec 12 := BitVec.ofNat 12 (2 ^ codeLength - 1)

end Sys2Proof.Machine
end

