-- ==== Sys2Proof/Machine/Ops.lean ====
section
/-! DEFINITION. The operations every rule is written with: the result of an operation, reading a register that may hold
⊥, the element stores, the memory primitives InRead, InAdvance, CtRead and FbWritePixel (20_memory.md R52 to R55), the
release of the working registers (10_state.md R30), hardware reset (R154) and ABORT, the one way an exception is taken
(60_exceptions.md R148). There is no return from an exception (R151): ERROR is left by START only. -/

namespace Sys2Proof.Machine

/-- What a step of the machine answers. -/
abbrev Out := Host.Outcome State Fault Refusal

/-- The result of one operation of a rule. `raised` carries the state at the failing check: every access before it has
happened and none after it (R148, Precision). -/
inductive Res (α : Type) where
  | ok (a : α) (s : State)
  | raised (e : Exc) (s : State)
  | fault (f : Fault)
  | refused (r : Refusal)
  deriving DecidableEq, Repr

/-- One operation after another. -/
def Res.bind {α β : Type} (r : Res α) (k : α → State → Res β) : Res β :=
  match r with
  | .ok a s => k a s
  | .raised e s => .raised e s
  | .fault f => .fault f
  | .refused r => .refused r

/-- Read a register. The spec states the stop: "Reading a `⊥` register in a rule is a model fault, not a value"
(00_scope.md section 5; D12, U10, 95_test_vectors.md HO-2). ⊥ is the value that R30 and R33 give the register, and no
step of the block reads one under the host's duties. -/
def need {α β : Type} (r : Option α) (n : RegName) (k : α → Res β) : Res β :=
  match r with
  | some v => k v
  | none => .fault (.unwritten n)

/-! ### Named updates of State -/

def State.setPhase (s : State) (p : Phase) : State := { s with phase := p }
def State.setBr (s : State) (b : BitReader) : State := { s with br := b }
def State.setDict (s : State) (d : Dict) : State := { s with dict := d }
def State.setDp (s : State) (d : Datapath) : State := { s with dp := d }
def State.setPb (s : State) (m : List (Nat × Byte)) : State := { s with pb := m }
def State.setFb (s : State) (m : List Host.Cell) : State := { s with fb := m }

/-! ### Element stores: PREFIX, BYTEV, LEN, PB and FB -/

/-- The element at an index, if one is listed. -/
def storeGet {α : Type} : List (Nat × α) → Nat → Option α
  | [], _ => none
  | (k, v) :: t, a => if a = k then some v else storeGet t a

/-- Write the element at an index, keeping the list in rising order. -/
def storeSet {α : Type} : List (Nat × α) → Nat → α → List (Nat × α)
  | [], a, v => [(a, v)]
  | (k, w) :: t, a, v =>
      if a < k then (a, v) :: (k, w) :: t
      else if a = k then (a, v) :: t
      else (k, w) :: storeSet t a v

/-- The canonical form of a store: indices strictly rising. -/
abbrev Store.wf {α : Type} (m : List (Nat × α)) : Prop := m.Pairwise (fun x y => x.1 < y.1)

/-- The canonical form of FB: offsets strictly rising and below 2^34 (43_rasterizer.md R135). An unlisted byte reads as
FB_INIT's, which no listed value can be compared with (log entry 2). -/
abbrev Memory.wf (m : List Host.Cell) : Prop := Store.wf m ∧ ∀ x ∈ m, x.1 < 2 ^ 34

/-! ### The input port -/

/-- What a position register holds of a number: its low ADDR_W bits (20_memory.md R34). Where IN fits (R6: ADDR_W is at
least ceil(log2(N + 1))) nothing is lost of a position 0..N (log entry 4). -/
def State.position (s : State) (p : Nat) : Nat := p % 2 ^ s.addrW

/-- InRead (R52). -/
def inRead (s : State) : Res Byte :=
  need s.br.pos .brPos fun p =>
    match s.input[p]? with
    | none => .raised .eof s
    | some v => .ok v (s.setBr { s.br with pos := some (s.position (p + 1)) })

/-- InAdvance (R53). -/
def inAdvance (n : Nat) (s : State) : Res Unit :=
  need s.br.pos .brPos fun p =>
    if s.input.length - p < n then .raised .eof s
    else .ok () (s.setBr { s.br with pos := some (s.position (p + n)) })

/-! ### The colour table -/

/-- CtRead: (R, G, B) of entry `i` (R54); the caller has checked `i < CFG.ctLen`. -/
def ctRead (i : Nat) (s : State) : Res (Byte × Byte × Byte) :=
  match s.ct[i]? with
  | none => .fault (.ctUnwritten i)
  | some e => .ok (e.extractLsb' 0 8, e.extractLsb' 8 8, e.extractLsb' 16 8) s

/-! ### The frame -/

/-- The byte offset of pixel (px, py): row pitch `4 * canvasW` (R41). -/
def pixelOffset (canvasW : BitVec 16) (px py : Nat) : Nat := 4 * (py * canvasW.toNat + px)

/-- Write one byte of FB. -/
def fbWriteByte (a : Nat) (b : Byte) (s : State) : State := s.setFb (storeSet s.fb a b)

/-- FbWritePixel: R, G, B, A at offsets +0 to +3 (R55, R41); the caller has checked that the pixel is on the canvas. -/
def fbWritePixel (canvasW : BitVec 16) (px py : Nat) (r g b a : Byte) (s : State) : State :=
  let o := pixelOffset canvasW px py
  fbWriteByte (o + 3) a (fbWriteByte (o + 2) b (fbWriteByte (o + 1) g (fbWriteByte o r s)))

/-- The byte FB holds at an offset: what was last written there, else FB_INIT's (R33). -/
def State.fbRead (s : State) (a : Nat) : Byte := (storeGet s.fb a).getD (Config.fbInit a)

/-! ### Release, reset and ABORT -/

/-- `release BR, DICT, datapath, PB (all <- ⊥)` (R30). -/
def release (s : State) : State :=
  { s with br := BitReader.released, dict := Dict.released, dp := Datapath.released, pb := [] }

/-- Hardware reset (R154): every register of the block as R33 gives it; IN and FB are host memory and keep their
contents, and so do the model's own fields. -/
def hardwareReset (s : State) : State :=
  { State.reset with input := s.input, fb := s.fb, addrW := s.addrW, draws := s.draws,
                      host := s.host }

/-- The pixels inside both the decode's rectangle and the canvas (R148, U1). -/
def framePixels (c : Cfg) : List (Nat × Nat) :=
  let cols := min (c.left.toNat + c.width.toNat) c.canvasW.toNat - c.left.toNat
  let rows := min (c.top.toNat + c.height.toNat) c.canvasH.toNat - c.top.toNat
  (List.range rows).flatMap fun y => (List.range cols).map fun x => (c.left.toNat + x, c.top.toNat + y)

/-- One pixel takes its free value after an abort (U1). -/
def drawPixel (canvasW : BitVec 16) (s : State) (p : Nat × Nat) : State :=
  let v := Config.errorPixel s.draws p.1 p.2
  fbWritePixel canvasW p.1 p.2 (v.extractLsb' 0 8) (v.extractLsb' 8 8) (v.extractLsb' 16 8) (v.extractLsb' 24 8) s

/-- FB after ERROR: every pixel inside rectangle and canvas is a free value, every other byte keeps its own (R148). -/
def drawFrame (s : State) : State :=
  match s.cfg with
  | none => s
  | some c => (framePixels c).foldl (drawPixel c.canvasW) s

/-- ABORT(kind, reason), the one operation by which an exception is taken (R148). -/
def abort (e : Exc) (s : State) : State :=
  { release (drawFrame s) with status := e.status, endPos := none, phase := .error, draws := s.draws + 1 }

/-- A whole rule's outcome: a raised exception is taken, which is a next state (R148). -/
def Res.finish (r : Res Unit) : Out :=
  match r with
  | .ok _ s => .next s
  | .raised e s => .next (abort e s)
  | .fault f => .fault f
  | .refused r => .refused r

/-- Read an instruction, then run it. -/
def Res.thenRun (r : Res Instr) (run : Instr → State → Out) : Out :=
  match r with
  | .ok i s => run i s
  | .raised e s => .next (abort e s)
  | .fault f => .fault f
  | .refused r => .refused r

end Sys2Proof.Machine
end

