-- ==== Sys2Proof/Machine/Operands.lean ====
section
/-! DEFINITION. How an instruction's operands are found: a code as a dictionary index, an entry's fields, the registers
that give a code its class (30_encoding.md R71), and the values the configuration record gives the datapath
(42_decoder.md R103, 43_rasterizer.md R127). -/

namespace Sys2Proof.Machine

/-- A code or index as a PREFIX value; never negative (R31). -/
def linkOfCode (c : Code) : Link := c.zeroExtend 13

/-- A PREFIX value used as an index; the marker -1 and every other negative value is none (R31). -/
def linkIndex (l : Link) : Option Nat := if l.msb then none else some l.toNat

/-- PREFIX[i] (R24). -/
def linkAt (i : Nat) (s : State) : Res Link :=
  match storeGet s.dict.links i with
  | some l => .ok l s
  | none => .fault (.entryUnwritten i)

/-- BYTEV[i] (R24). -/
def byteAt (i : Nat) (s : State) : Res Byte :=
  match storeGet s.dict.bytes i with
  | some b => .ok b s
  | none => .fault (.entryUnwritten i)

/-- LEN[i] (R24), which is DICT_LENGTH (41_dictionary.md R92). -/
def lengthAt (i : Nat) (s : State) : Res (BitVec 13) :=
  match storeGet s.dict.lens i with
  | some n => .ok n s
  | none => .fault (.entryUnwritten i)

/-- PB[k] (10_state.md R28). -/
def pbRead (k : Nat) (s : State) : Res Byte :=
  match storeGet s.pb k with
  | some b => .ok b s
  | none => .fault (.paintBufferUnwritten k)

/-- `PB[k] <- b` (10_state.md R28). -/
def pbWrite (k : Nat) (b : Byte) (s : State) : Res Unit :=
  if Config.pbCap ≤ k then .fault .paintBufferOverrun
  else .ok () (s.setPb (storeSet s.pb k b))

/-- The dictionary registers a code's class depends on at its place (R68, R71). FIRST and START compare the code with
clearCode alone (42_decoder.md R108, R109): the two fields their class does not look at stand as a reset leaves them
(R70), and no register is read for them. -/
def codeView (p : CodePlace) (s : State) : Res CodeView :=
  need s.dict.codeLength .codeLength fun w =>
  need s.dict.clearCode .clearCode fun c =>
    match p with
    | .first =>
        .ok { width := w.toNat, clearCode := c.toNat, eoiCode := c.toNat + 1, currentIndex := c.toNat + 2 } s
    | .start =>
        .ok { width := w.toNat, clearCode := c.toNat, eoiCode := c.toNat + 1, currentIndex := c.toNat + 2 } s
    | .loop =>
        need s.dict.eoiCode .eoiCode fun e =>
        need s.dict.currentIndex .currentIndex fun ci =>
          .ok { width := w.toNat, clearCode := c.toNat, eoiCode := e.toNat, currentIndex := ci.toNat } s

/-- The clip registers and the pen that OPEN sets from CFG (R103); 17 bits hold each sum (R27). -/
def openDatapath (c : Cfg) (d : Datapath) : Datapath :=
  { d with
    clipL := some (c.left.zeroExtend 17)
    clipR := some (c.left.zeroExtend 17 + c.width.zeroExtend 17)
    clipT := some (c.top.zeroExtend 17)
    clipB := some (c.top.zeroExtend 17 + c.height.zeroExtend 17)
    px := some (c.left.zeroExtend 17)
    py := some (c.top.zeroExtend 17) }

/-- A transparent byte (R127). -/
def transparent (c : Cfg) (b : Byte) : Bool :=
  c.gcePresent && c.transparentFlag && decide (b = c.transparentIndex)

end Sys2Proof.Machine
end

