-- ==== Sys2Proof/Machine/BitReader.lean ====
section
/-! DEFINITION. The sub-block bit reader (40_bitreader.md): BR_READBITS, BR_REFILL, the byte tokens they load, and the
read of BR_TERMINATE. -/

namespace Sys2Proof.Machine

/-- The FIRST_LEN token: what BR_OPEN does with the length byte (R77). 0 is not checked. -/
def loadFirstLen (b : Byte) (s : State) : Res Unit :=
  .ok () (s.setBr { s.br with bytesInBlock := some b, bitsLeft := some 0, buffer := none })

/-- BR_OPEN (R77). -/
def brOpen (s : State) : Res Unit := (inRead s).bind loadFirstLen

/-- The DATA token: the last three lines of BR_REFILL (R79). -/
def loadData (b : Byte) (s : State) : Res Unit :=
  need s.br.bytesInBlock .brBytesInBlock fun n =>
    .ok () (s.setBr { s.br with buffer := some b, bitsLeft := some 8, bytesInBlock := some (n - 1) })

/-- The SUBBLOCK_LEN token: the new count, then one data byte (R79). -/
def loadSubblock (b : Byte) (s : State) : Res Unit :=
  (inRead (s.setBr { s.br with bytesInBlock := some b })).bind loadData

/-- A length byte met by a refill: 0 is a terminator in mid-stream (R79). -/
def loadLength (b : Byte) (s : State) : Res Unit :=
  if b = 0 then .raised (.malformed .terminatorMidStream) s else loadSubblock b s

/-- BR_REFILL (R79). -/
def brRefill (s : State) : Res Unit :=
  need s.br.bytesInBlock .brBytesInBlock fun n =>
    if n = 0 then (inRead s).bind loadLength else (inRead s).bind loadData

/-- Take one bit of the stream (the body of BR_READBITS' loop, R78). -/
def takeBit (s : State) : Res Bool :=
  need s.br.bitsLeft .brBitsLeft fun k =>
    (if k = 0 then brRefill s else .ok () s).bind fun _ s =>
      need s.br.buffer .brBuffer fun buf =>
      need s.br.bitsLeft .brBitsLeft fun k =>
        .ok (buf.getLsbD 0) (s.setBr { s.br with buffer := some (buf >>> 1), bitsLeft := some (k - 1) })

/-- BR_READBITS' loop: `n` bits are still to come, the next is bit `i` of the result `r` (R78). -/
def readBitsFrom : Nat → Nat → Code → State → Res Code
  | 0, _, r, s => .ok r s
  | n + 1, i, r, s =>
      (takeBit s).bind fun b s => readBitsFrom n (i + 1) (r ||| (BitVec.ofBool b).zeroExtend 12 <<< i) s

/-- BR_READBITS(n): refused outside 1..12 (R78, R82). -/
def readBits (n : Nat) (s : State) : Res Code :=
  if n = 0 ∨ Config.maxCodeWidth < n then .refused .readBitsWidth else readBitsFrom n 0 0 s

/-- BR_TERMINATE up to its check: skip the rest of the sub-block and read the terminator byte (R80). Unread bits of
BR.buffer are dropped. -/
def readTerminator (s : State) : Res Byte :=
  need s.br.bytesInBlock .brBytesInBlock fun n =>
    (inAdvance n.toNat s).bind fun _ s => inRead s

end Sys2Proof.Machine
end

