-- ==== Sys2Proof/Machine/Dictionary.lean ====
section
/-! DEFINITION. The LZW dictionary (41_dictionary.md): DICT_INIT, DICT_RESET, DICT_ADD and DICT_FIRSTBYTE. No
operation raises an exception. -/

namespace Sys2Proof.Machine

/-- The registers after a reset at minimum code size `m` (R88, 30_encoding.md R70). The elements are not touched. -/
def resetRegisters (m : BitVec 4) (d : Dict) : Dict :=
  { d with
    codeLength := some (BitVec.ofNat 4 (m.toNat + 1))
    clearCode := some (BitVec.ofNat 9 (2 ^ m.toNat))
    eoiCode := some (BitVec.ofNat 9 (2 ^ m.toNat + 1))
    currentIndex := some (BitVec.ofNat 13 (2 ^ m.toNat + 2))
    maxCode := some (thresholdOf (m.toNat + 1)) }

/-- DICT_RESET (R88). -/
def dictReset (s : State) : Res Unit :=
  need s.dict.minCodeSize .minCodeSize fun m => .ok () (s.setDict (resetRegisters m s.dict))

/-- Write one entry's three fields. -/
def writeEntry (i : Nat) (l : Link) (b : Byte) (n : BitVec 13) (d : Dict) : Dict :=
  { d with links := storeSet d.links i l, bytes := storeSet d.bytes i b, lens := storeSet d.lens i n }

/-- The atomic entries 0 .. n-1 (R87): prefix -1, byte i, length 1. -/
def writeAtomic : Nat → Dict → Dict
  | 0, d => d
  | n + 1, d => writeEntry n (-1) (BitVec.ofNat 8 n) 1 (writeAtomic n d)

/-- DICT_INIT(m) (R87). -/
def dictInit (m : BitVec 4) (s : State) : Res Unit :=
  dictReset (s.setDict (writeAtomic (2 ^ m.toNat) { s.dict with minCodeSize := some m }))

/-- `(if p < 0 then 0 else LEN[p])` (R89). -/
def prefixLength (p : Link) (s : State) : Res Nat :=
  match linkIndex p with
  | none => .ok 0 s
  | some i => (lengthAt i s).bind fun n s => .ok n.toNat s

/-- DICT_ADD's growth, made before the store (R89, R93). -/
def grow (ci : BitVec 13) (mx : BitVec 12) (w : BitVec 4) (d : Dict) : Dict :=
  if growthDue ci mx w then
    { d with codeLength := some (w + 1), maxCode := some (thresholdOf (w.toNat + 1)) }
  else d

/-- DICT_ADD(p, b): the index used, or ⊥ when the dictionary is frozen (R89, R90). -/
def dictAdd (p : Link) (b : Byte) (s : State) : Res (Option Nat) :=
  need s.dict.currentIndex .currentIndex fun ci =>
  need s.dict.maxCode .maxCode fun mx =>
  need s.dict.codeLength .codeLength fun w =>
    let s1 := s.setDict (grow ci mx w s.dict)
    if ci.toNat < Config.dictCap then
      (prefixLength p s1).bind fun n s2 =>
        .ok (some ci.toNat)
          (s2.setDict
            { writeEntry ci.toNat p b (BitVec.ofNat 13 (n + 1)) s2.dict with currentIndex := some (ci + 1) })
    else .ok none s1

/-- DICT_FIRSTBYTE's walk, with a bound on the entries it may visit. -/
def firstByteWalk : Nat → Nat → State → Res Byte
  | 0, _, _ => .fault .prefixRing
  | fuel + 1, i, s =>
      (linkAt i s).bind fun l s =>
        if l = -1 then byteAt i s
        else
          match linkIndex l with
          | some j => firstByteWalk fuel j s
          | none => .fault .negativeIndex

/-- DICT_FIRSTBYTE(i) (R91). A walk that ends visits each of the 4096 entries at most once (log entry 10). -/
def firstByte (i : Nat) (s : State) : Res Byte := firstByteWalk Config.dictCap i s

end Sys2Proof.Machine
end

