-- ==== Sys2Proof/Machine/Rasterizer.lean ====
section
/-! DEFINITION. The rasterizer (43_rasterizer.md): PAINT, with the string fill, the bottom stop, transparency, the
colour lookup, the clipped pixel write and the pen advance, in R124's order. -/

namespace Sys2Proof.Machine

/-- The string fill (R125): `PB[n-1]` down to `PB[0]`, following PREFIX from entry `j`. -/
def fillString : Nat → Link → State → Res Unit
  | 0, _, s => .ok () s
  | k + 1, j, s =>
      match linkIndex j with
      | none => .fault .negativeIndex
      | some i =>
          (byteAt i s).bind fun b s =>
          (pbWrite k b s).bind fun _ s =>
          (linkAt i s).bind fun l s => fillString k l s

/-- The colour lookup (R128) and the clipped pixel write (R130) of a visible byte. -/
def drawByte (c : Cfg) (b : Byte) (s : State) : Res Unit :=
  if c.ctLen.toNat ≤ b.toNat then .raised (.malformed .colorIndexOutOfRange) s
  else
    (ctRead b.toNat s).bind fun rgb s =>
    need s.dp.px .px fun px =>
    need s.dp.py .py fun py =>
    need s.dp.clipR .clipR fun r =>
      if px.toNat < r.toNat ∧ px.toNat < c.canvasW.toNat ∧ py.toNat < c.canvasH.toNat then
        .ok () (fbWritePixel c.canvasW px.toNat py.toNat rgb.1 rgb.2.1 rgb.2.2 0xFF#8 s)
      else .ok () s

/-- The pen advance (R129): CLIP.L and PY are read only where the pen goes on to the next row. -/
def advancePen (s : State) : Res Unit :=
  need s.dp.px .px fun px =>
  need s.dp.clipR .clipR fun r =>
    if r.toNat ≤ (px + 1).toNat then
      need s.dp.clipL .clipL fun l =>
      need s.dp.py .py fun py =>
        .ok () (s.setDp { s.dp with px := some l, py := some (py + 1) })
    else .ok () (s.setDp { s.dp with px := some (px + 1) })

/-- One byte that the bottom stop has not dropped: transparent bytes skip the lookup and the write (R127). -/
def paintByte (b : Byte) (s : State) : Res Unit :=
  need s.cfg .cfg fun c =>
    (if transparent c b then .ok () s else drawByte c b s).bind fun _ s => advancePen s

/-- PAINT's pass over PB: `n` bytes are still to come, the next is `PB[k]` (R123). At the bottom the byte and every
later one of the string is dropped (R126). -/
def paintBytes : Nat → Nat → State → Res Unit
  | 0, _, s => .ok () s
  | n + 1, k, s =>
      (pbRead k s).bind fun b s =>
      need s.dp.py .py fun py =>
      need s.dp.clipB .clipB fun bot =>
        if bot.toNat ≤ py.toNat then .ok () s
        else (paintByte b s).bind fun _ s => paintBytes n (k + 1) s

/-- PAINT(i) (R123). -/
def paint (i : Nat) (s : State) : Res Unit :=
  (lengthAt i s).bind fun n s =>
  (fillString n.toNat (BitVec.ofNat 13 i) s).bind fun _ s => paintBytes n.toNat 0 s

end Sys2Proof.Machine
end

