-- ==== Sys2Proof/Machine/Codes.lean ====
section
/-! DEFINITION. The meanings of the nine code classes (42_decoder.md R108 to R114). The code has been read into INDEX
(R104); `c` is its value. -/

namespace Sys2Proof.Machine

/-- `OLD <- c` (R116). -/
def setOld (c : Code) (s : State) : State := s.setDp { s.dp with old := some c }

/-- FIRST_CLEAR (R108): no reset is run. -/
def execFirstClear (s : State) : Out := .next (s.setPhase .start)

/-- FIRST_BAD (R108). -/
def execFirstBad (_c : Code) (s : State) : Out := .next (abort (.malformed .firstCodeNotClear) s)

/-- START_LITERAL (R109). -/
def execStartLiteral (c : Code) (s : State) : Out :=
  Res.finish ((paint c.toNat s).bind fun _ s => .ok () ((setOld c s).setPhase .loop))

/-- START_BAD (R109). -/
def execStartBad (_c : Code) (s : State) : Out := .next (abort (.malformed .startCodeNotAtomic) s)

/-- CLEAR (R110): OLD and the pen stay. -/
def execClear (s : State) : Out :=
  Res.finish ((dictReset s).bind fun _ s => .ok () (s.setPhase .start))

/-- EXISTING (R111): paint, then add OLD's string with the first byte of `c`'s; the add's result is not used. -/
def execExisting (c : Code) (s : State) : Out :=
  Res.finish
    ((paint c.toNat s).bind fun _ s =>
      (firstByte c.toNat s).bind fun b s =>
      need s.dp.old .old fun old =>
      (dictAdd (linkOfCode old) b s).bind fun _ s => .ok () (setOld c s))

/-- KWKWK (R112): add OLD's string with its own first byte, then paint the new entry. -/
def execKwkwk (c : Code) (s : State) : Out :=
  Res.finish
    (need s.dp.old .old fun old =>
      (firstByte old.toNat s).bind fun b s =>
      (dictAdd (linkOfCode old) b s).bind fun k s =>
        match k with
        | none => .fault .frozenResult
        | some k => (paint k s).bind fun _ s => .ok () (setOld c s))

/-- INVALID (R113). -/
def execInvalid (_c : Code) (s : State) : Out := .next (abort (.malformed .codeBeyondNext) s)

/-- EOI (R114). -/
def execEoi (s : State) : Out := .next (s.setPhase .term)

end Sys2Proof.Machine
end

