-- ==== Sys2Proof/Machine/HostPort.lean ====
section
/-! DEFINITION. The host's side of the block's interface: the START command (60_exceptions.md R139), the host's other
moves between decodes (70_reset_and_hazards.md R156, R158), and what the host can observe (R140, R159). -/

namespace Sys2Proof.Machine

/-- START (R139): refused in a busy phase, then refused for a colour table over 256 entries. CFG.startPos is ADDR_W bits
wide (10_state.md R16), so the latch keeps that many bits of the host's value (log entry 4). -/
def execStart (cfg : Cfg) (s : State) : Out :=
  if s.phase.quiescent = false then .refused .startWhileBusy
  else if Config.ctMax < cfg.ctLen.toNat then .refused .ctLenOver256
  else .next { s with cfg := some { cfg with startPos := s.position cfg.startPos }, status := Status.idle, endPos := none, phase := .opening }

/-- A move of the host other than START, made in a quiescent phase. -/
def hostMove (m : HostMove) (s : State) : State :=
  match m with
  | .writeIn bytes => { s with input := bytes }
  | .writeCt entries => { s with ct := entries }
  | .writeFb a b => fbWriteByte a.toNat b s
  | .reset => hardwareReset s
  | .start _ => s

/-- The host reads PHASE, at any time (R140). -/
def hostReadPhase (s : State) : BitVec 3 := s.phase.code

/-- The host reads STATUS, at any time (R140, R11). -/
def hostReadStatus (s : State) : BitVec 6 := s.status.word

/-- The host reads RESULT.endPos; ⊥ is a model fault (R140, R12, U10). -/
def hostReadEndPos (s : State) : Res Nat := need s.endPos .endPos fun e => .ok e s

/-- The host reads a byte of FB: in a quiescent phase only (R159), inside the frame of the last CFG (R36). Before the
first START the frame's size is the host's own. -/
def hostReadFb (a : Nat) (s : State) : Res Byte :=
  if s.phase.quiescent = false then .refused .frameReadWhileBusy
  else
    match s.cfg with
    | none => .ok (s.fbRead a) s
    | some c =>
        if 4 * (c.canvasW.toNat * c.canvasH.toNat) ≤ a then .fault (.frameAddress a) else .ok (s.fbRead a) s

end Sys2Proof.Machine
end

