-- ==== Sys2Proof/Machine/Tokens.lean ====
section
/-! DEFINITION. The meanings of the eight byte tokens (30_encoding.md R72). The byte has been read and BR.pos stands
after it. A token whose rule reads on (MINCODESIZE to the end of OPEN, SUBBLOCK_LEN to its data byte) reads on here. -/

namespace Sys2Proof.Machine

/-- MINCODESIZE: the OPEN step from DICT_INIT to its end (R103). -/
def execMinCodeSize (b : Byte) (s : State) : Out :=
  Res.finish
    ((dictInit (b.truncate 4) s).bind fun _ s =>
      need s.cfg .cfg fun c =>
      (brOpen (s.setDp (openDatapath c s.dp))).bind fun _ s => .ok () (s.setPhase .first))

/-- MINCODESIZE_BAD (R103). -/
def execMinCodeSizeBad (_b : Byte) (s : State) : Out := .next (abort (.malformed .minCodeSizeRange) s)

/-- FIRST_LEN (R77). -/
def execFirstLen (b : Byte) (s : State) : Out := Res.finish (loadFirstLen b s)

/-- SUBBLOCK_LEN (R79). -/
def execSubblockLen (b : Byte) (s : State) : Out := Res.finish (loadSubblock b s)

/-- MIDSTREAM_TERMINATOR (R79). -/
def execMidstreamTerminator (s : State) : Out := .next (abort (.malformed .terminatorMidStream) s)

/-- DATA (R79). -/
def execData (b : Byte) (s : State) : Out := Res.finish (loadData b s)

/-- TERMINATOR: the decode ends normally (R80, R84, R115). -/
def execTerminator (s : State) : Out :=
  Res.finish
    (need s.br.pos .brPos fun p =>
      .ok () { release s with endPos := some p, status := Status.success, phase := .done })

/-- BAD_TERMINATOR (R80). -/
def execBadTerminator (_b : Byte) (s : State) : Out := .next (abort (.malformed .nonZeroTerminator) s)

end Sys2Proof.Machine
end

