-- ==== Sys2Proof/Machine/Dispatch.lean ====
section
/-! DEFINITION. Which meaning each instruction has: one arm per row of opcode_table.json. -/

namespace Sys2Proof.Machine

def exec (i : Instr) (s : State) : Host.Outcome State Fault Refusal :=
  match i with
  | .firstClear => Sys2Proof.Machine.execFirstClear s
  | .firstBad c => Sys2Proof.Machine.execFirstBad c s
  | .startLiteral c => Sys2Proof.Machine.execStartLiteral c s
  | .startBad c => Sys2Proof.Machine.execStartBad c s
  | .eoi => Sys2Proof.Machine.execEoi s
  | .clear => Sys2Proof.Machine.execClear s
  | .existing c => Sys2Proof.Machine.execExisting c s
  | .kwkwk c => Sys2Proof.Machine.execKwkwk c s
  | .invalid c => Sys2Proof.Machine.execInvalid c s
  | .minCodeSize b => Sys2Proof.Machine.execMinCodeSize b s
  | .minCodeSizeBad b => Sys2Proof.Machine.execMinCodeSizeBad b s
  | .firstLen b => Sys2Proof.Machine.execFirstLen b s
  | .subblockLen b => Sys2Proof.Machine.execSubblockLen b s
  | .midstreamTerminator => Sys2Proof.Machine.execMidstreamTerminator s
  | .data b => Sys2Proof.Machine.execData b s
  | .terminator => Sys2Proof.Machine.execTerminator s
  | .badTerminator b => Sys2Proof.Machine.execBadTerminator b s
  | .start cfg => Sys2Proof.Machine.execStart cfg s

end Sys2Proof.Machine
end

