-- ==== Sys2Proof/Machine/Fetch.lean ====
section
/-! DEFINITION. One step: the whole action of the current PHASE (42_decoder.md R102, R107). A busy phase reads one
token, decodes it by its place and runs it; a quiescent phase takes the host's next move, and with none it waits. -/

namespace Sys2Proof.Machine

/-- Code read (R104): `INDEX <- BR_READBITS(DICT.codeLength)`. -/
def readCode (s : State) : Res Code :=
  need s.dict.codeLength .codeLength fun w =>
    (readBits w.toNat s).bind fun c s => .ok c (s.setDp { s.dp with index := some c })

/-- FIRST, START and LOOP: read one code and classify it (R104, 30_encoding.md R71). -/
def fetchCode (p : CodePlace) (s : State) : Res Instr :=
  (readCode s).bind fun c s => (codeView p s).bind fun d s => .ok (decodeCode p d c) s

/-- OPEN: read the minCodeSize byte at CFG.startPos and classify it (R103). -/
def fetchOpen (s : State) : Res Instr :=
  need s.cfg .cfg fun c =>
    (inRead (s.setBr { s.br with pos := some c.startPos })).bind fun b s => .ok (decodeByte .openByte b) s

/-- TERM: skip the rest of the sub-block, read the terminator byte and classify it (R80, R115). -/
def fetchTerm (s : State) : Res Instr :=
  (readTerminator s).bind fun b s => .ok (decodeByte .terminator b) s

/-- A quiescent phase: the host's next move, or none. The block takes no step of its own (R107), so with no move the
state stays as it is. -/
def hostStep (run : Instr → State → Out) (s : State) : Out :=
  match s.host with
  | [] => .next s
  | .start cfg :: rest => run (.start cfg) { s with host := rest }
  | .writeIn bytes :: rest => .next (hostMove (.writeIn bytes) { s with host := rest })
  | .writeCt entries :: rest => .next (hostMove (.writeCt entries) { s with host := rest })
  | .writeFb a b :: rest => .next (hostMove (.writeFb a b) { s with host := rest })
  | .reset :: rest => .next (hostMove .reset { s with host := rest })

/-- One step, given how an instruction is run. -/
def stepWith (run : Instr → State → Out) (s : State) : Out :=
  match s.phase with
  | .idle => hostStep run s
  | .opening => (fetchOpen s).thenRun run
  | .first => (fetchCode .first s).thenRun run
  | .start => (fetchCode .start s).thenRun run
  | .loop => (fetchCode .loop s).thenRun run
  | .term => (fetchTerm s).thenRun run
  | .done => hostStep run s
  | .error => hostStep run s

/-- A table word placed where the next step reads its token: the terminator check of TERM, with nothing of the sub-block
left to skip (log entry 9). No row of the table has another number of bits. -/
def placeWord (s : State) (nbits w : Nat) : State :=
  if nbits = 8 then
    { s with
      phase := .term
      input := [BitVec.ofNat 8 w]
      br := { s.br with pos := some 0, bytesInBlock := some 0 } }
  else s

end Sys2Proof.Machine
end

