-- ==== Sys2Proof/Machine/Step.lean ====
section
/-! DEFINITION. The block's step function (42_decoder.md R102), and the placing of one table word. -/

namespace Sys2Proof.Machine

/-- One step of the block. -/
def step (s : State) : Host.Outcome State Fault Refusal := stepWith exec s

/-- `s` with one table word placed where `step` reads its next token. -/
def State.withFetchWord (s : State) (nbits w : Nat) : State := placeWord s nbits w

end Sys2Proof.Machine
end

