-- ==== Sys2Proof/Machine/HostSide.lean ====
section
/-! DEFINITION. The structures the host decodes into CFG and CT (30_encoding.md R64), its own two errors (R147) and the
configuration record of one image (70_reset_and_hazards.md R156). The block never reads these bytes; the walk over the
blocks of a file is the driver's and out of scope (00_scope.md R4). -/

namespace Sys2Proof.Machine

/-- A little-endian 16-bit field (20_memory.md R39). -/
def u16le (lo hi : Byte) : BitVec 16 := hi ++ lo

/-- Logical Screen Descriptor (R64). -/
structure Lsd where
  width : BitVec 16
  height : BitVec 16
  gctFlag : Bool
  colorResolution : BitVec 3
  sorted : Bool
  gctSize : BitVec 3
  bgIndex : Byte
  aspect : Byte
  deriving DecidableEq, Repr

/-- Image Descriptor (R64). The reserved bits are kept and checked by nothing (R75, D21). -/
structure ImageDescriptor where
  left : BitVec 16
  top : BitVec 16
  width : BitVec 16
  height : BitVec 16
  lctFlag : Bool
  interlaced : Bool
  sorted : Bool
  reserved : BitVec 2
  lctSize : BitVec 3
  deriving DecidableEq, Repr

/-- Graphic Control Extension (R64, D24). The reserved bits are kept and checked by nothing (R75, D21). -/
structure Gce where
  reserved : BitVec 3
  disposalMethod : BitVec 3
  userInput : Bool
  transparentFlag : Bool
  delay : BitVec 16
  transparentIndex : Byte
  deriving DecidableEq, Repr

/-- The header check: "GIF87a" or "GIF89a", else InvalidSignature (R147, 90_conflicts.md C11). DESIGN CHOICE: a header of
fewer than six bytes is InvalidSignature too, and not Eof; the spec does not say which (log entry 18). -/
def checkHeader (bytes : List Byte) : Except Kind Unit :=
  if bytes.take 6 = [0x47, 0x49, 0x46, 0x38, 0x37, 0x61] ∨ bytes.take 6 = [0x47, 0x49, 0x46, 0x38, 0x39, 0x61] then .ok ()
  else .error .invalidSignature

/-- The seven bytes of the LSD (R64). Too few bytes are Eof (60_exceptions.md R142). -/
def parseLsd : List Byte → Except Kind Lsd
  | w0 :: w1 :: h0 :: h1 :: packed :: bg :: aspect :: _ =>
      .ok
        { width := u16le w0 w1
          height := u16le h0 h1
          gctFlag := packed.getLsbD 7
          colorResolution := packed.extractLsb' 4 3
          sorted := packed.getLsbD 3
          gctSize := packed.extractLsb' 0 3
          bgIndex := bg
          aspect := aspect }
  | _ => .error .eof

/-- The ten bytes of the image descriptor, the separator 0x2C among them (R64). -/
def parseImageDescriptor : List Byte → Except Kind ImageDescriptor
  | sep :: l0 :: l1 :: t0 :: t1 :: w0 :: w1 :: h0 :: h1 :: packed :: _ =>
      if sep ≠ 0x2C then .error .malformed
      else
        .ok
          { left := u16le l0 l1
            top := u16le t0 t1
            width := u16le w0 w1
            height := u16le h0 h1
            lctFlag := packed.getLsbD 7
            interlaced := packed.getLsbD 6
            sorted := packed.getLsbD 5
            reserved := packed.extractLsb' 3 2
            lctSize := packed.extractLsb' 0 3 }
  | _ => .error .eof

/-- The eight bytes of the graphic control extension (R64). -/
def parseGce : List Byte → Except Kind Gce
  | intro :: label :: size :: packed :: d0 :: d1 :: tIndex :: fin :: _ =>
      if intro ≠ 0x21 ∨ label ≠ 0xF9 ∨ size ≠ 0x04 ∨ fin ≠ 0x00 then .error .malformed
      else
        .ok
          { reserved := packed.extractLsb' 5 3
            disposalMethod := packed.extractLsb' 2 3
            userInput := packed.getLsbD 1
            transparentFlag := packed.getLsbD 0
            delay := u16le d0 d1
            transparentIndex := tIndex }
  | _ => .error .eof

/-- A colour table's number of entries from its size field: `1 << (s+1)` (R64). -/
def tableLength (size : BitVec 3) : BitVec 9 := BitVec.ofNat 9 (2 ^ (size.toNat + 1))

/-- `n` colour-table entries from their bytes R, G, B (R18, R64). -/
def parseColorTable : Nat → List Byte → Except Kind (List Rgb)
  | 0, _ => .ok []
  | n + 1, r :: g :: b :: rest =>
      match parseColorTable n rest with
      | .ok es => .ok ((b ++ g ++ r) :: es)
      | .error k => .error k
  | _ + 1, _ => .error .eof

/-- How many entries the image's colour table has: the local table if present, else the global one, else none
(R156, D18). -/
def activeTableLength (lsd : Lsd) (d : ImageDescriptor) : BitVec 9 :=
  if d.lctFlag then tableLength d.lctSize else if lsd.gctFlag then tableLength lsd.gctSize else 0

/-- CFG for one image (R156, step 3): an interlaced image is Unsupported and gets no START; a pending graphic control
extension gives the transparency, and with none both flags are 0. DESIGN CHOICE: the transparent index is then 0, of which
the spec says nothing and which no decode reads (R127; log entry 18). -/
def configOf (lsd : Lsd) (d : ImageDescriptor) (pendingGce : Option Gce) (startPos : Nat) : Except Kind Cfg :=
  if d.interlaced then .error .unsupported
  else
    .ok
      { startPos := startPos
        left := d.left
        top := d.top
        width := d.width
        height := d.height
        canvasW := lsd.width
        canvasH := lsd.height
        ctLen := activeTableLength lsd d
        gcePresent := pendingGce.isSome
        transparentFlag := (pendingGce.map Gce.transparentFlag).getD false
        transparentIndex := (pendingGce.map Gce.transparentIndex).getD 0 }

end Sys2Proof.Machine
end

