-- ==== Sys2Proof/Safety.lean ====
section
/-! DEFINITION. What claims are stated with: the bit stream of a sub-block chain (30_encoding.md R62), the string of a
dictionary entry (42_decoder.md R120), the pixels a string paints, and the invariants of the rules (10_state.md R21,
R23, R25, 40_bitreader.md R81, 43_rasterizer.md R133, 60_exceptions.md R140). -/

namespace Sys2Proof.Machine

/-! ### The stream -/

/-- The data bytes that are still to come: `n` of the current sub-block, then those of the sub-blocks after it, every
length byte left out (R61, R62). -/
def chainBytes : Nat → List Byte → List Byte
  | _, [] => []
  | 0, l :: rest => if l = 0 then [] else chainBytes l.toNat rest
  | n + 1, b :: rest => b :: chainBytes n rest

/-- The bits still to come: those left in BR.buffer, then those of the data bytes, LSB first (R62, R81). -/
def streamBits (s : State) : List Bool :=
  match s.br.pos, s.br.bytesInBlock, s.br.bitsLeft with
  | some p, some n, some k =>
      valueBits k.toNat (s.br.buffer.getD 0).toNat ++
        (chainBytes n.toNat (s.input.drop p)).flatMap (fun b => valueBits 8 b.toNat)
  | _, _, _ => []

/-- How a chain ends where no data byte is left to load: a length byte 0 is met by a refill, or IN has ended
(40_bitreader.md R79, 60_exceptions.md R145). -/
def chainEnd : Nat → List Byte → Exc
  | _, [] => .eof
  | 0, l :: rest => if l = 0 then .malformed .terminatorMidStream else chainEnd l.toNat rest
  | n + 1, _ :: rest => chainEnd n rest

/-- The exception a code read raises where the stream has too few bits left (R119). -/
def streamEnd (s : State) : Exc :=
  match s.br.pos, s.br.bytesInBlock with
  | some p, some n => chainEnd n.toNat (s.input.drop p)
  | _, _ => .eof

/-- The bits of input a decode can still take: every read of a code of width `w` lowers this by at least `w`. -/
def bitsAhead (s : State) : Nat :=
  8 * (s.input.length - s.br.pos.getD 0) + (s.br.bitsLeft.getD 0).toNat

/-! ### Entries and what they paint -/

/-- The string of entry `i`, prefix first, by the walk of PREFIX (R96, R120). -/
def entryString : Nat → Dict → Nat → Option (List Byte)
  | 0, _, _ => none
  | fuel + 1, d, i =>
      match storeGet d.links i, storeGet d.bytes i with
      | some l, some b =>
          if l = -1 then some [b]
          else
            match linkIndex l with
            | some j => (entryString fuel d j).map (fun bs => bs ++ [b])
            | none => none
      | _, _ => none

/-- Paint a string byte by byte, with the bottom stop before each (43_rasterizer.md R124, R126). -/
def paintList : List Byte → State → Res Unit
  | [], s => .ok () s
  | b :: bs, s =>
      need s.dp.py .py fun py =>
      need s.dp.clipB .clipB fun bot =>
        if bot.toNat ≤ py.toNat then .ok () s
        else (paintByte b s).bind fun _ s => paintList bs s

/-- No byte of the string raises ColorIndexOutOfRange: each is transparent or has a colour-table entry (R128). -/
def colorsInRange (c : Cfg) (str : List Byte) : Prop :=
  ∀ b ∈ str, transparent c b = true ∨ b.toNat < c.ctLen.toNat

/-- Pen position `q` of the rectangle in raster order, or its bottom (R129, R134). -/
def penAt (c : Cfg) (q : Nat) (d : Datapath) : Prop :=
  d.px = some (BitVec.ofNat 17 (c.left.toNat + q % c.width.toNat)) ∧
    d.py = some (BitVec.ofNat 17 (c.top.toNat + q / c.width.toNat))

/-- How many bytes the pen still takes before the bottom stop (R126, R133, R136). -/
def room (c : Cfg) (d : Datapath) : Nat :=
  match d.px, d.py with
  | some px, some py =>
      (c.top.toNat + c.height.toNat - py.toNat) * max 1 c.width.toNat - (px.toNat - c.left.toNat)
  | _, _ => 0

/-- An offset of one of the four bytes of pixel (px, py) (20_memory.md R41). -/
def inPixel (canvasW : BitVec 16) (px py a : Nat) : Prop :=
  pixelOffset canvasW px py ≤ a ∧ a < pixelOffset canvasW px py + 4

/-- A pixel inside both the decode's rectangle and the canvas (R148, U1). -/
def inRectangle (c : Cfg) (px py : Nat) : Prop :=
  c.left.toNat ≤ px ∧ px < c.left.toNat + c.width.toNat ∧ px < c.canvasW.toNat ∧
    c.top.toNat ≤ py ∧ py < c.top.toNat + c.height.toNat ∧ py < c.canvasH.toNat

/-- No pixel inside both the rectangle and the canvas has a byte at this offset. -/
def outsideRectangle (c : Cfg) (a : Nat) : Prop :=
  ∀ px py, inRectangle c px py → ¬ inPixel c.canvasW px py a

/-! ### Invariants -/

/-- The number of bits of a value (00_scope.md section 5). -/
def bitlen (v : Nat) : Nat := if v = 0 then 0 else Nat.log2 v + 1

/-- The code width in closed form (R23). -/
def widthFor (m ci : Nat) : Nat := min 12 (max (m + 1) (bitlen ci))

/-- The six dictionary registers, from the minimum code size and the next free slot (R22, R23). -/
def dictRegisters (m ci : Nat) (d : Dict) : Prop :=
  d.minCodeSize = some (BitVec.ofNat 4 m) ∧ d.codeLength = some (BitVec.ofNat 4 (widthFor m ci)) ∧
    d.clearCode = some (BitVec.ofNat 9 (2 ^ m)) ∧ d.eoiCode = some (BitVec.ofNat 9 (2 ^ m + 1)) ∧
    d.currentIndex = some (BitVec.ofNat 13 ci) ∧ d.maxCode = some (thresholdOf (widthFor m ci))

/-- What the class map sees of a dictionary (R71). -/
def viewOf (m ci : Nat) : CodeView :=
  { width := widthFor m ci, clearCode := 2 ^ m, eoiCode := 2 ^ m + 1, currentIndex := ci }

/-- Entry `i` is live (R25). -/
def live (m ci i : Nat) : Prop := i < 2 ^ m ∨ (2 ^ m + 1 < i ∧ i < ci)

/-- What a live entry holds (R25, R97). -/
def entryOk (m ci : Nat) (d : Dict) (i : Nat) : Prop :=
  (i < 2 ^ m ∧ storeGet d.links i = some (-1) ∧ storeGet d.bytes i = some (BitVec.ofNat 8 i) ∧
      storeGet d.lens i = some 1) ∨
    (2 ^ m + 1 < i ∧
      ∃ p : Nat, ∃ b : Byte, ∃ n : Nat,
        live m ci p ∧ p < i ∧ b.toNat < 2 ^ m ∧ 1 ≤ n ∧ n + 1 ≤ i - 2 ^ m ∧
          storeGet d.links i = some (BitVec.ofNat 13 p) ∧ storeGet d.bytes i = some b ∧
          storeGet d.lens p = some (BitVec.ofNat 13 n) ∧ storeGet d.lens i = some (BitVec.ofNat 13 (n + 1)))

/-- `d'` is `d` after an add of prefix `p` and byte `b` at slot `ci` (R89): the entry's three fields, the registers, and
every other element as it was. -/
def entryAdded (m ci : Nat) (p : Code) (b : Byte) (d d' : Dict) : Prop :=
  dictRegisters m (ci + 1) d' ∧ storeGet d'.links ci = some (p.zeroExtend 13) ∧ storeGet d'.bytes ci = some b ∧
    (∃ n, storeGet d.lens p.toNat = some n ∧ storeGet d'.lens ci = some (n + 1)) ∧
    ∀ j, j ≠ ci →
      storeGet d'.links j = storeGet d.links j ∧ storeGet d'.bytes j = storeGet d.bytes j ∧
        storeGet d'.lens j = storeGet d.lens j

/-- Nothing has written the two reserved slots (R25, R98). -/
def reservedUnwritten (m : Nat) (d : Dict) : Prop :=
  ∀ i, i = 2 ^ m ∨ i = 2 ^ m + 1 →
    storeGet d.links i = none ∧ storeGet d.bytes i = none ∧ storeGet d.lens i = none

/-- The dictionary of a decode between two operations, once OPEN has finished (R22, R23, R25). -/
def dictOk (m ci : Nat) (d : Dict) : Prop :=
  2 ≤ m ∧ m ≤ 8 ∧ 2 ^ m + 2 ≤ ci ∧ ci ≤ 4096 ∧ dictRegisters m ci d ∧ reservedUnwritten m d ∧
    ∀ i, live m ci i → entryOk m ci d i

/-- ADDR_W is wide enough for IN: at least ceil(log2(N + 1)), so that every position 0..N is one (00_scope.md R6,
20_memory.md R34). -/
def addressable (s : State) : Prop := s.input.length < 2 ^ s.addrW

/-- Every position register holds a number of ADDR_W bits (R12, R16, R20, R34). -/
def positionsFit (s : State) : Prop :=
  (∀ p, s.br.pos = some p → p < 2 ^ s.addrW) ∧ (∀ p, s.endPos = some p → p < 2 ^ s.addrW) ∧
    ∀ c, s.cfg = some c → c.startPos < 2 ^ s.addrW

/-- The bit reader between two operations (R20, R34, R81). -/
def readerOk (s : State) : Prop :=
  addressable s ∧ ∃ p : Nat, ∃ n : BitVec 8, ∃ k : BitVec 4,
    s.br.pos = some p ∧ s.br.bytesInBlock = some n ∧ s.br.bitsLeft = some k ∧ p ≤ s.input.length ∧
      k.toNat ≤ 8 ∧ (k ≠ 0 → ∃ buf, s.br.buffer = some buf ∧ buf.toNat < 2 ^ k.toNat)

/-- The clip registers and the pen (R27, R133): in the rectangle, or at its bottom; at the left edge when the width
is 0 (R136). -/
def penOk (c : Cfg) (d : Datapath) : Prop :=
  d.clipL = some (c.left.zeroExtend 17) ∧
    d.clipR = some (c.left.zeroExtend 17 + c.width.zeroExtend 17) ∧
    d.clipT = some (c.top.zeroExtend 17) ∧
    d.clipB = some (c.top.zeroExtend 17 + c.height.zeroExtend 17) ∧
    ∃ px py : Coord,
      d.px = some px ∧ d.py = some py ∧
        c.left.toNat ≤ px.toNat ∧ px.toNat ≤ c.left.toNat + c.width.toNat ∧
        (px.toNat = c.left.toNat + c.width.toNat → c.width = 0) ∧
        c.top.toNat ≤ py.toNat ∧ py.toNat ≤ c.top.toNat + c.height.toNat

/-- The working registers all hold ⊥ (R30). -/
def released (s : State) : Prop :=
  s.br = BitReader.released ∧ s.dict = Dict.released ∧ s.dp = Datapath.released ∧ s.pb = []

/-- The latched configuration and the colour table that backs it (R17, R161 `ctSized`). -/
def configured (c : Cfg) (s : State) : Prop :=
  s.cfg = some c ∧ c.ctLen.toNat ≤ 256 ∧ c.ctLen.toNat ≤ s.ct.length

/-- A decode under way, at dictionary size `ci` and minimum code size `m`. -/
def running (c : Cfg) (m ci : Nat) (s : State) : Prop :=
  configured c s ∧ readerOk s ∧ dictOk m ci s.dict ∧ penOk c s.dp

/-- OLD names a live entry (R27, R116). -/
def oldLive (m ci : Nat) (s : State) : Prop := ∃ o : Code, s.dp.old = some o ∧ live m ci o.toNat

/-- Every store is in its canonical form, with every index in its range (R24, R28, R135). -/
def storesOk (s : State) : Prop :=
  Memory.wf s.fb ∧
    (Store.wf s.dict.links ∧ ∀ x ∈ s.dict.links, x.1 < Config.dictCap) ∧
    (Store.wf s.dict.bytes ∧ ∀ x ∈ s.dict.bytes, x.1 < Config.dictCap) ∧
    (Store.wf s.dict.lens ∧ ∀ x ∈ s.dict.lens, x.1 < Config.dictCap) ∧
    (Store.wf s.pb ∧ ∀ x ∈ s.pb, x.1 < Config.pbCap)

/-- PHASE, STATUS and RESULT agree (R11, R12, R140). -/
def outcomeOk (s : State) : Prop :=
  match s.phase with
  | .idle => s.status = Status.idle ∧ s.endPos = none
  | .opening => s.status = Status.idle ∧ s.endPos = none
  | .first => s.status = Status.idle ∧ s.endPos = none
  | .start => s.status = Status.idle ∧ s.endPos = none
  | .loop => s.status = Status.idle ∧ s.endPos = none
  | .term => s.status = Status.idle ∧ s.endPos = none
  | .done => s.status = Status.success ∧ s.endPos.isSome = true
  | .error =>
      s.endPos = none ∧ (s.status = Exc.eof.status ∨ ∃ r, r ≠ Reason.none ∧ s.status = (Exc.malformed r).status)

/-- What each phase needs of the working registers. -/
def phaseOk (s : State) : Prop :=
  match s.phase with
  | .idle => released s
  | .opening => released s ∧ ∃ c, configured c s
  | .first => ∃ c m, running c m (2 ^ m + 2) s
  | .start => ∃ c m, running c m (2 ^ m + 2) s
  | .loop => ∃ c m ci, running c m ci s ∧ oldLive m ci s
  | .term => ∃ c m ci, running c m ci s
  | .done => released s
  | .error => released s

/-- The invariant of the block. -/
def Inv (s : State) : Prop := storesOk s ∧ outcomeOk s ∧ phaseOk s ∧ addressable s ∧ positionsFit s

/-- The host's next move meets the premises that a decode's safety rests on: for a START, `CFG.ctLen <= 256`, of
`cfgLegal`, and `ctSized` (R161); for a stream put into IN, a length that ADDR_W bits hold (R6). `quiescent` holds since
the host moves in a quiescent phase only; a startPos past N raises Eof (20_memory.md R52); FB has no size of its own to
be too small. -/
def launchPremise (s : State) : Prop :=
  (∀ cfg rest, s.host = HostMove.start cfg :: rest → cfg.ctLen.toNat ≤ 256 ∧ cfg.ctLen.toNat ≤ s.ct.length) ∧
    ∀ bytes rest, s.host = HostMove.writeIn bytes :: rest → bytes.length < 2 ^ s.addrW

/-- The place a busy phase's code is decoded at. -/
def codePlaceOf : Phase → Option CodePlace
  | .first => some .first
  | .start => some .start
  | .loop => some .loop
  | .idle => none
  | .opening => none
  | .term => none
  | .done => none
  | .error => none

/-- The same state but for the bit reader, INDEX and nothing else: what a code read may change (R21, R104). -/
def sameButReader (s t : State) : Prop :=
  ∃ br ix, t = { s with br := br, dp := { s.dp with index := ix } }

end Sys2Proof.Machine
end

