-- ==== Sys2Proof/Certificates/Slice0/Obligations.lean ====
section
/-! DEFINITION. The statements about the block. Each docstring names the rules it formalises and, where a clause rests on
the model's own choice, the log entry. A statement about a decode under way takes `running` (R23, R25, R81, R133), which
StepKeepsInvariant says every step keeps. -/

open Sys2Proof Sys2Proof.Machine

/-! ### The encoding -/

/-- Every token that may stand at a place decodes back from its bits, with every operand at every value (30_encoding.md
R63, R66, R71, R72). -/
def Obligations.EncodedTokensDecodeBack : Prop :=
  ∀ (x : Context) (i : Instr) (rest : List Bool), i.wellFormed x = true →
    decode x (encode x i ++ rest) = .ok (i, rest)

/-- What the decoder reads may stand at its place, and its encoding is the bits it was read from (R71, R72). -/
def Obligations.DecodedTokensEncodeBack : Prop :=
  ∀ (x : Context) (bits rest : List Bool) (i : Instr), x.wf = true → decode x bits = .ok (i, rest) →
    i.wellFormed x = true ∧ bits = encode x i ++ rest

/-- The nine conditions of the class map, and that a frozen dictionary leaves no code for KWKWK and INVALID (R71). -/
def Obligations.CodeClassConditions : Prop :=
  ∀ (d : CodeView) (c : Code), d.wf = true → c.toNat < 2 ^ d.width →
    (c.toNat = d.clearCode → decodeCode .first d c = .firstClear) ∧
      (c.toNat ≠ d.clearCode → decodeCode .first d c = .firstBad c) ∧
      (c.toNat < d.clearCode → decodeCode .start d c = .startLiteral c) ∧
      (d.clearCode ≤ c.toNat → decodeCode .start d c = .startBad c) ∧
      (c.toNat = d.eoiCode → decodeCode .loop d c = .eoi) ∧
      (c.toNat = d.clearCode → decodeCode .loop d c = .clear) ∧
      (c.toNat < d.currentIndex → c.toNat ≠ d.clearCode → c.toNat ≠ d.eoiCode → decodeCode .loop d c = .existing c) ∧
      (c.toNat = d.currentIndex → decodeCode .loop d c = .kwkwk c) ∧
      (d.currentIndex < c.toNat → decodeCode .loop d c = .invalid c) ∧
      (d.currentIndex = 4096 → c.toNat < d.currentIndex)

/-- Words written out from the class map and the token table, one for each row that has bits (R71, R72), with m = 2 just
after a reset: codes of 3 bits, clearCode 4, eoiCode 5, currentIndex 6. -/
def Obligations.SpecWordsDecode : Prop :=
  let d : CodeView := { width := 3, clearCode := 4, eoiCode := 5, currentIndex := 6 }
  decode (.code .first d) [false, false, true] = .ok (.firstClear, []) ∧
    decode (.code .first d) [false, false, false] = .ok (.firstBad 0, []) ∧
    decode (.code .start d) [true, false, false] = .ok (.startLiteral 1, []) ∧
    decode (.code .start d) [true, false, true] = .ok (.startBad 5, []) ∧
    decode (.code .loop d) [true, false, true] = .ok (.eoi, []) ∧
    decode (.code .loop d) [false, false, true] = .ok (.clear, []) ∧
    decode (.code .loop d) [true, true, false] = .ok (.existing 3, []) ∧
    decode (.code .loop d) [false, true, true] = .ok (.kwkwk 6, []) ∧
    decode (.code .loop d) [true, true, true] = .ok (.invalid 7, []) ∧
    decode (.byte .openByte) [false, true, false, false, false, false, false, false] = .ok (.minCodeSize 0x02, []) ∧
    decode (.byte .openByte) [true, false, false, true, false, false, false, false] = .ok (.minCodeSizeBad 0x09, []) ∧
    decode (.byte .firstLen) [false, true, false, false, false, false, false, false] = .ok (.firstLen 0x02, []) ∧
    decode (.byte .refillLen) [true, false, false, false, false, false, false, false] = .ok (.subblockLen 0x01, []) ∧
    decode (.byte .refillLen) [false, false, false, false, false, false, false, false] =
      .ok (.midstreamTerminator, []) ∧
    decode (.byte .refillData) [false, false, true, true, false, false, true, false] = .ok (.data 0x4C, []) ∧
    decode (.byte .terminator) [false, false, false, false, false, false, false, false] = .ok (.terminator, []) ∧
    decode (.byte .terminator) [true, true, false, true, true, true, false, false] = .ok (.badTerminator 0x3B, [])

/-! ### The bit reader and the input port -/

/-- BR_READBITS(n) takes the next n bits of the sub-block chain's stream: stream bit k is bit k of the result, and the
rest of the stream is left (R62, R63, R66, R78). With fewer than n bits to come it raises what the chain ends with: Eof
or TerminatorMidStream (R79, R145). -/
def Obligations.ReadBitsTakesTheNextBits : Prop :=
  ∀ (n : Nat) (s : State), readerOk s → 1 ≤ n → n ≤ 12 →
    if n ≤ (streamBits s).length then
      ∃ v br, readBits n s = .ok v { s with br := br } ∧ readerOk { s with br := br } ∧
        (∀ k, v.getLsbD k = (decide (k < n) && (streamBits s).getD k false)) ∧
        streamBits { s with br := br } = (streamBits s).drop n
    else ∃ br, readBits n s = .raised (streamEnd s) { s with br := br }

/-- BR_READBITS is refused outside 1..12, and the decoder never passes such a width (R82). -/
def Obligations.ReadBitsWidths : Prop :=
  (∀ (n : Nat) (s : State), n = 0 ∨ 12 < n → readBits n s = .refused .readBitsWidth) ∧
    ∀ (m ci : Nat) (s : State), dictOk m ci s.dict →
      ∃ w, s.dict.codeLength = some w ∧ 3 ≤ w.toNat ∧ w.toNat ≤ 12

/-- BR_REFILL and BR_OPEN read one byte and run the token that the decoder reads from it at its place; with no byte left
they raise Eof (R72, R77, R79). That one byte is read here is the model's assignment (log entry 6): R79's refill of a new
sub-block reads two bytes, of which R72 gives SUBBLOCK_LEN the first and `BR.bytesInBlock` alone, and the model lets
SUBBLOCK_LEN read on to its data byte. -/
def Obligations.RefillRunsItsTokens : Prop :=
  ∀ (s : State) (p : Nat) (n : BitVec 8), addressable s → s.br.pos = some p → s.br.bytesInBlock = some n →
    match s.input[p]? with
    | none => brRefill s = .raised .eof s ∧ brOpen s = .raised .eof s
    | some b =>
        (brRefill s).finish =
            exec (decodeByte (if n = 0 then .refillLen else .refillData) b) { s with br := { s.br with pos := some (p + 1) } } ∧
          (brOpen s).finish = exec (decodeByte .firstLen b) { s with br := { s.br with pos := some (p + 1) } }

/-- InRead: the byte at BR.pos, and BR.pos steps over it; at or past N it raises Eof and changes nothing (R52). ADDR_W is
wide enough for IN, as R6 asks of the instance. -/
def Obligations.InReadReadsOneByte : Prop :=
  ∀ (s : State) (p : Nat), addressable s → s.br.pos = some p →
    (s.input.length ≤ p → inRead s = .raised .eof s) ∧
      ∀ v, s.input[p]? = some v → inRead s = .ok v { s with br := { s.br with pos := some (p + 1) } }

/-- InAdvance(n): BR.pos moves by n, and it raises Eof where fewer than n bytes remain; InAdvance(0) never raises
(R53). ADDR_W is wide enough for IN (R6), and BR.pos has its width (R34). -/
def Obligations.InAdvanceSkips : Prop :=
  ∀ (s : State) (p n : Nat), addressable s → p < 2 ^ s.addrW → s.br.pos = some p →
    (s.input.length - p < n → inAdvance n s = .raised .eof s) ∧
      (n ≤ s.input.length - p → inAdvance n s = .ok () { s with br := { s.br with pos := some (p + n) } }) ∧
      inAdvance 0 s = .ok () s

/-! ### Steps -/

/-- A step of FIRST, START or LOOP is exec of the code that stands next in the stream, on the state whose bit reader has
moved past it and whose INDEX holds its value (R71, R102, R104). -/
def Obligations.StepRunsTheDecodedCode : Prop :=
  ∀ (c : Cfg) (m ci : Nat) (s : State) (p : CodePlace) (i : Instr) (rest : List Bool),
    running c m ci s → codePlaceOf s.phase = some p →
    decode (.code p (viewOf m ci)) (streamBits s) = .ok (i, rest) →
    ∃ t, step s = exec i t ∧ sameButReader s t ∧ running c m ci t ∧ streamBits t = rest ∧
      t.dp.index = some (BitVec.ofNat 12 (bitsValue ((streamBits s).take (widthFor m ci))))

/-- A step of FIRST, START or LOOP with too few bits left for a code takes the exception the chain ends with: Eof or
TerminatorMidStream, before any class check (R104, R119, R149). -/
def Obligations.StepAtTheStreamEnd : Prop :=
  ∀ (c : Cfg) (m ci : Nat) (s : State) (p : CodePlace), running c m ci s → codePlaceOf s.phase = some p →
    decode (.code p (viewOf m ci)) (streamBits s) = .error .shortCode →
    step s = .next (abort (streamEnd s) s) ∧
      (streamEnd s = .eof ∨ streamEnd s = .malformed .terminatorMidStream)

/-- A step of OPEN is exec of the token at CFG.startPos, on the state whose BR.pos stands after it; with no byte there it
takes Eof (R48, R72, R103). ADDR_W is wide enough for IN (R6). -/
def Obligations.StepRunsTheOpenByte : Prop :=
  ∀ (s : State) (c : Cfg), addressable s → s.phase = .opening → s.cfg = some c →
    match s.input[c.startPos]? with
    | none => step s = .next (abort .eof s)
    | some b =>
        ∀ i, decode (.byte .openByte) (valueBits 8 b.toNat) = .ok (i, []) →
          step s = exec i { s with br := { s.br with pos := some (c.startPos + 1) } }

/-- A step of TERM skips the rest of the sub-block and is exec of the token that stands there; with too few bytes to skip,
or no byte there, it takes Eof (R72, R80, R115, R149). ADDR_W is wide enough for IN (R6), and BR.pos has its width (R34). -/
def Obligations.StepRunsTheTerminatorByte : Prop :=
  ∀ (s : State) (p : Nat) (n : BitVec 8), addressable s → p < 2 ^ s.addrW → s.phase = .term → s.br.pos = some p →
    s.br.bytesInBlock = some n →
    match s.input[p + n.toNat]? with
    | none => step s = .next (abort .eof s)
    | some b =>
        ∀ i, decode (.byte .terminator) (valueBits 8 b.toNat) = .ok (i, []) →
          step s = exec i { s with br := { s.br with pos := some (p + n.toNat + 1) } }

/-- In IDLE, DONE and ERROR a step is the host's next move, START among them, and with none the block stays as it is
(R107, R139). The queue of moves is the model's own (log entries 5 and 8). -/
def Obligations.StepTakesTheHostsMove : Prop :=
  ∀ (s : State), s.phase.quiescent = true →
    (s.host = [] → step s = .next s) ∧
      (∀ cfg rest, s.host = .start cfg :: rest → step s = exec (.start cfg) { s with host := rest }) ∧
      (∀ bytes rest, s.host = .writeIn bytes :: rest → step s = .next { s with host := rest, input := bytes }) ∧
      (∀ es rest, s.host = .writeCt es :: rest → step s = .next { s with host := rest, ct := es }) ∧
      (∀ a b rest, s.host = .writeFb a b :: rest →
        ∃ t, step s = .next t ∧ t = { s with host := rest, fb := t.fb } ∧
          ∀ x, t.fbRead x = if x = a.toNat then b else s.fbRead x) ∧
      (∀ rest, s.host = .reset :: rest → step s = .next (hardwareReset { s with host := rest }))

/-- The transitions of PHASE, from every state: those of R107's table, and the host's hardware reset (R154). The last
disjunct, and that no busy phase goes to IDLE, are the model's choice: the host's moves, hardware reset among them, stand in
a queue and are taken in a quiescent phase only (log entries 5 and 15). -/
def Obligations.PhaseTransitions : Prop :=
  ∀ (s t : State), step s = .next t →
    (s.phase, t.phase) ∈
        [(Phase.opening, Phase.first), (.first, .start), (.start, .loop), (.loop, .loop), (.loop, .start),
          (.loop, .term), (.term, .done)] ∨
      (s.phase.quiescent = false ∧ t.phase = .error) ∨
      (s.phase.quiescent = true ∧
        (t.phase = s.phase ∨ (t.phase = .opening ∧ ∃ cfg rest, s.host = .start cfg :: rest) ∨
          (t.phase = .idle ∧ ∃ rest, s.host = .reset :: rest)))

/-- A step of a busy phase changes neither CFG, CT nor IN (R15, R18, R34, R56, R159), from every state. That it takes no
move of the host (`t.host = s.host`) is the model's choice: the queue of moves, and hardware reset as one of them (log
entries 5 and 15). -/
def Obligations.BusyStepsKeepTheHostsMemories : Prop :=
  ∀ (s t : State), s.phase.quiescent = false → step s = .next t →
    t.cfg = s.cfg ∧ t.ct = s.ct ∧ t.input = s.input ∧ t.host = s.host

/-- The block writes STATUS with kinds NONE, OK, Eof and Malformed only, and with a reason exactly for Malformed, from
every state (R11, R142, R144, R147). -/
def Obligations.StatusValuesTheBlockWrites : Prop :=
  ∀ (s t : State), step s = .next t → t.status ≠ s.status →
    t.status.kind ≠ .unsupported ∧ t.status.kind ≠ .invalidSignature ∧
      (t.status.kind = .malformed ↔ t.status.reason ≠ .none)

/-- RESULT.endPos gets a value in one way only: the TERM step that ends the decode with STATUS OK writes the position just
past the terminator byte (R12, R84, R115), from every state whose positions have ADDR_W bits with ADDR_W wide enough
for IN (R6, R34). -/
def Obligations.EndPosComesFromTerm : Prop :=
  ∀ (s t : State) (e : Nat), addressable s → positionsFit s → step s = .next t → t.endPos = some e → t.endPos ≠ s.endPos →
    s.phase = .term ∧ t.phase = .done ∧ t.status = Status.success ∧
      ∃ p n, s.br.pos = some p ∧ s.br.bytesInBlock = some n ∧ e = p + n.toNat + 1 ∧ s.input[p + n.toNat]? = some 0

/-! ### The code classes -/

/-- FIRST_CLEAR moves to START and EOI to TERM, and neither changes anything else (R108, R114). -/
def Obligations.FirstClearAndEoi : Prop :=
  ∀ (s : State),
    exec .firstClear s = .next { s with phase := .start } ∧ exec .eoi s = .next { s with phase := .term }

/-- CLEAR gives the five registers their values after a reset and moves to START; minCodeSize, the entries, OLD, the pen
and everything else stay (R70, R88, R110, R117). -/
def Obligations.ClearResetsTheDictionary : Prop :=
  ∀ (s : State) (m : BitVec 4), s.dict.minCodeSize = some m → 2 ≤ m.toNat → m.toNat ≤ 8 →
    ∃ w cc ec ix mx,
      exec .clear s =
          .next
            { s with
              phase := .start
              dict :=
                { s.dict with
                  codeLength := some w
                  clearCode := some cc
                  eoiCode := some ec
                  currentIndex := some ix
                  maxCode := some mx } } ∧
        w.toNat = m.toNat + 1 ∧ cc.toNat = 2 ^ m.toNat ∧ ec.toNat = 2 ^ m.toNat + 1 ∧ ix.toNat = 2 ^ m.toNat + 2 ∧
        mx.toNat = 2 ^ (m.toNat + 1) - 1

/-- START_LITERAL paints its entry's string, one byte equal to the code, sets OLD and moves to LOOP; no entry is added
(R109). It completes exactly where the byte is dropped at the bottom, transparent, or has a colour (R126 to R128). -/
def Obligations.StartLiteralPaints : Prop :=
  ∀ (c : Cfg) (m ci : Nat) (s : State) (v : Code), running c m ci s → v.toNat < 2 ^ m →
    colorsInRange c ([BitVec.ofNat 8 v.toNat].take (room c s.dp)) →
    ∃ u, paint v.toNat s = .ok () u ∧ entryString 4096 s.dict v.toNat = some [BitVec.ofNat 8 v.toNat] ∧
      exec (.startLiteral v) s = .next { u with phase := .loop, dp := { u.dp with old := some v } }

/-- EXISTING paints its entry, then adds OLD's string with the entry's first byte, unless the dictionary is frozen, then
sets OLD (R89, R90, R111). It completes exactly where every visible byte above the bottom has a colour (R128). -/
def Obligations.ExistingPaintsThenAdds : Prop :=
  ∀ (c : Cfg) (m ci : Nat) (s : State) (v o : Code) (b : Byte) (bs : List Byte), running c m ci s →
    s.dp.old = some o → live m ci o.toNat → live m ci v.toNat → entryString 4096 s.dict v.toNat = some (b :: bs) →
    colorsInRange c ((b :: bs).take (room c s.dp)) →
    ∃ u d, paint v.toNat s = .ok () u ∧
      exec (.existing v) s = .next { u with dict := d, dp := { u.dp with old := some v } } ∧
      (ci = 4096 → d = s.dict) ∧ (ci < 4096 → entryAdded m ci o b s.dict d)

/-- KWKWK adds OLD's string with its own first byte, then paints the new entry, whose string is OLD's with that byte
behind it, then sets OLD (R89, R112, R166). It completes exactly where every visible byte above the bottom has a colour
(R128). -/
def Obligations.KwkwkAddsThenPaints : Prop :=
  ∀ (c : Cfg) (m ci : Nat) (s : State) (v o : Code) (b : Byte) (bs : List Byte), running c m ci s →
    s.dp.old = some o → live m ci o.toNat → v.toNat = ci → entryString 4096 s.dict o.toNat = some (b :: bs) →
    colorsInRange c ((b :: bs ++ [b]).take (room c s.dp)) →
    ∃ u d, entryAdded m ci o b s.dict d ∧ entryString 4096 d ci = some (b :: bs ++ [b]) ∧
      paint ci { s with dict := d } = .ok () u ∧
      exec (.kwkwk v) s = .next { u with dp := { u.dp with old := some v } }

/-- Where a visible byte above the bottom has no colour-table entry, the painting instructions take
Malformed(ColorIndexOutOfRange): STATUS, ERROR, the release, and no byte of FB outside rectangle and canvas changed (R109,
R111, R112, R128, R148). Only KWKWK reads OLD before it paints, so START_LITERAL and EXISTING take it whatever OLD holds, ⊥
among it (R109, R111, R155). -/
def Obligations.ColourFaultsAbort : Prop :=
  ∀ (c : Cfg) (m ci : Nat) (s : State) (v : Code) (i : Instr) (str : List Byte), running c m ci s →
    (i = .startLiteral v ∧ v.toNat < 2 ^ m ∧ str = [BitVec.ofNat 8 v.toNat]) ∨
        (i = .existing v ∧ live m ci v.toNat ∧ entryString 4096 s.dict v.toNat = some str) ∨
        (i = .kwkwk v ∧ v.toNat = ci ∧
          ∃ o b bs, s.dp.old = some o ∧ live m ci o.toNat ∧ entryString 4096 s.dict o.toNat = some (b :: bs) ∧ str = b :: bs ++ [b]) →
    ¬ colorsInRange c (str.take (room c s.dp)) →
    ∃ t, exec i s = .next t ∧ t.phase = .error ∧ t.status = { kind := .malformed, reason := .colorIndexOutOfRange } ∧
      t.endPos = none ∧ released t ∧ ∀ a, outsideRectangle c a → t.fbRead a = s.fbRead a

/-- The six tokens whose meaning is an exception, in every state: STATUS reads kind 3 and the token's reason, RESULT is ⊥,
the working registers are released, PHASE is ERROR; CFG, CT, IN, ADDR_W and the host's moves stay, and so does every byte of FB
outside rectangle and canvas (R73, R79, R80, R103, R108, R109, R113, R144, R148). -/
def Obligations.RaisingTokensAbort : Prop :=
  ∀ (s : State) (c : Code) (b : Byte),
    ∀ x ∈ [(Instr.minCodeSizeBad b, 1), (.firstBad c, 2), (.startBad c, 3), (.invalid c, 4), (.midstreamTerminator, 5),
        (.badTerminator b, 6)],
      ∃ t, exec x.1 s = .next t ∧ t.phase = .error ∧ t.status.word.toNat = 8 * x.2 + 3 ∧ t.endPos = none ∧
        released t ∧ t.cfg = s.cfg ∧ t.ct = s.ct ∧ t.input = s.input ∧ t.addrW = s.addrW ∧ t.host = s.host ∧
        ∀ a, (∀ cfg, s.cfg = some cfg → outsideRectangle cfg a) → t.fbRead a = s.fbRead a

/-! ### The byte tokens and START -/

/-- MINCODESIZE does the rest of OPEN: the dictionary's atomic entries and registers, the clip registers, the pen, and
BR_OPEN's length byte; the entries from clearCode on are not written (R77, R87, R103, R155). With no length byte it takes
Eof. That the token carries the rest of OPEN is the model's assignment (log entry 6): R72 gives MINCODESIZE only the value
m, and R103 gives the rest to the OPEN step. ADDR_W is wide enough for IN (R6). -/
def Obligations.MinCodeSizeFinishesOpen : Prop :=
  ∀ (s : State) (b : Byte) (c : Cfg) (p : Nat), addressable s → 2 ≤ b.toNat → b.toNat ≤ 8 → s.cfg = some c →
    s.br.pos = some p →
    match s.input[p]? with
    | none => exec (.minCodeSize b) s = .next (abort .eof s)
    | some l =>
        ∃ d,
          exec (.minCodeSize b) s =
              .next
                { s with
                  phase := .first
                  br := { pos := some (p + 1), bytesInBlock := some l, buffer := none, bitsLeft := some 0 }
                  dict := d
                  dp :=
                    { s.dp with
                      px := some (BitVec.ofNat 17 c.left.toNat)
                      py := some (BitVec.ofNat 17 c.top.toNat)
                      clipL := some (BitVec.ofNat 17 c.left.toNat)
                      clipR := some (BitVec.ofNat 17 (c.left.toNat + c.width.toNat))
                      clipT := some (BitVec.ofNat 17 c.top.toNat)
                      clipB := some (BitVec.ofNat 17 (c.top.toNat + c.height.toNat)) } } ∧
            dictRegisters b.toNat (2 ^ b.toNat + 2) d ∧
            (∀ j, j < 2 ^ b.toNat →
              storeGet d.links j = some (-1) ∧ storeGet d.bytes j = some (BitVec.ofNat 8 j) ∧
                storeGet d.lens j = some 1) ∧
            ∀ j, 2 ^ b.toNat ≤ j →
              storeGet d.links j = storeGet s.dict.links j ∧ storeGet d.bytes j = storeGet s.dict.bytes j ∧
                storeGet d.lens j = storeGet s.dict.lens j

/-- FIRST_LEN, DATA and SUBBLOCK_LEN load the bit reader and change nothing else; a SUBBLOCK_LEN with no data byte after it
takes Eof (R77, R79). That SUBBLOCK_LEN loads the data byte too, or takes Eof, is the model's assignment (log entry 6): R72
gives the token `BR.bytesInBlock` only, and R79's refill reads both bytes. DATA where bytesInBlock is 0, which R79 never
reaches, leaves 255: the register's narrowing (log entry 11). ADDR_W is wide enough for IN where SUBBLOCK_LEN reads on
(R6). -/
def Obligations.ByteTokensLoad : Prop :=
  ∀ (s : State) (b n : Byte),
    exec (.firstLen b) s =
        .next { s with br := { s.br with bytesInBlock := some b, bitsLeft := some 0, buffer := none } } ∧
      (s.br.bytesInBlock = some n →
        exec (.data b) s =
          .next { s with br := { s.br with buffer := some b, bitsLeft := some 8, bytesInBlock := some (n - 1) } }) ∧
      ∀ p, addressable s → s.br.pos = some p →
        (s.input.length ≤ p → exec (.subblockLen b) s = .next (abort .eof s)) ∧
          ∀ v, s.input[p]? = some v →
            exec (.subblockLen b) s =
              .next
                { s with
                  br := { pos := some (p + 1), bytesInBlock := some (b - 1), buffer := some v, bitsLeft := some 8 } }

/-- TERMINATOR ends the decode: RESULT holds the position just past it, STATUS is OK with reason 0, BR, DICT, datapath and
PB are released, PHASE is DONE, and nothing else changes (R30, R84, R115). -/
def Obligations.TerminatorEndsTheDecode : Prop :=
  ∀ (s : State) (p : Nat), s.br.pos = some p →
    ∃ t, exec .terminator s = .next t ∧ t.endPos = some p ∧ t.status.word = 1#6 ∧ released t ∧ t.phase = .done ∧
      t.cfg = s.cfg ∧ t.ct = s.ct ∧ t.input = s.input ∧ t.fb = s.fb ∧ t.addrW = s.addrW ∧ t.draws = s.draws ∧
      t.host = s.host

/-- START in a quiescent phase with at most 256 colours latches CFG, clears STATUS and RESULT and enters OPEN; in a busy
phase, and with more colours, it is refused (R17, R139). The startPos latched is the host's in ADDR_W bits (R16); of a
host's value that has more, the model keeps the low ADDR_W bits (log entry 4). That a refusal ends the run is the model's reading of the refusal
mark (log entry 13). -/
def Obligations.StartLatchesTheConfiguration : Prop :=
  ∀ (s : State) (cfg : Cfg),
    (s.phase.quiescent = true → cfg.ctLen.toNat ≤ 256 →
        exec (.start cfg) s =
          .next
            { s with
              phase := .opening
              cfg := some { cfg with startPos := cfg.startPos % 2 ^ s.addrW }
              status := { kind := .none, reason := .none }
              endPos := none }) ∧
      (cfg.startPos < 2 ^ s.addrW → { cfg with startPos := cfg.startPos % 2 ^ s.addrW } = cfg) ∧
      (s.phase.quiescent = false → exec (.start cfg) s = .refused .startWhileBusy) ∧
      (s.phase.quiescent = true → 256 < cfg.ctLen.toNat → exec (.start cfg) s = .refused .ctLenOver256)

/-! ### The dictionary -/

/-- The values after a reset, row by row (R70): m, clearCode, eoiCode, currentIndex, codeLength, maxCode. -/
def Obligations.ResetTable : Prop :=
  ∀ x ∈ [(2, 4, 5, 6, 3, 7), (3, 8, 9, 10, 4, 15), (4, 16, 17, 18, 5, 31), (5, 32, 33, 34, 6, 63), (6, 64, 65, 66, 7, 127),
      (7, 128, 129, 130, 8, 255), (8, 256, 257, 258, 9, 511)],
    ∀ s : State, s.dict.minCodeSize = some (BitVec.ofNat 4 x.1) →
      dictReset s =
        .ok ()
          { s with
            dict :=
              { s.dict with
                clearCode := some (BitVec.ofNat 9 x.2.1)
                eoiCode := some (BitVec.ofNat 9 x.2.2.1)
                currentIndex := some (BitVec.ofNat 13 x.2.2.2.1)
                codeLength := some (BitVec.ofNat 4 x.2.2.2.2.1)
                maxCode := some (BitVec.ofNat 12 x.2.2.2.2.2) } }

/-- DICT_ADD, from every state: the growth test compares the slot about to be filled with maxCode, before the store; below
4096 the entry is stored at currentIndex, which then goes up by one and was the result; at 4096 and above nothing is stored
and the result is ⊥ (R89). -/
def Obligations.DictAddGrowsThenStores : Prop :=
  ∀ (s : State) (p : Link) (b : Byte) (ci : BitVec 13) (mx : BitVec 12) (w : BitVec 4) (n : Nat),
    s.dict.currentIndex = some ci → s.dict.maxCode = some mx → s.dict.codeLength = some w →
    (p.msb = true → n = 0) →
    (ci.toNat < 4096 → p.msb = false → ∃ l, storeGet s.dict.lens p.toNat = some l ∧ n = l.toNat) →
    ∃ t : State,
      dictAdd p b s = .ok (if ci.toNat < 4096 then some ci.toNat else none) t ∧ t = { s with dict := t.dict } ∧
        t.dict.codeLength = some (if ci.toNat = mx.toNat ∧ w.toNat < 12 then w + 1 else w) ∧
        t.dict.maxCode =
          some (if ci.toNat = mx.toNat ∧ w.toNat < 12 then BitVec.ofNat 12 (2 ^ (w.toNat + 1) - 1) else mx) ∧
        t.dict.currentIndex = some (if ci.toNat < 4096 then ci + 1 else ci) ∧
        t.dict.minCodeSize = s.dict.minCodeSize ∧ t.dict.clearCode = s.dict.clearCode ∧
        t.dict.eoiCode = s.dict.eoiCode ∧
        ∀ j,
          if j = ci.toNat ∧ j < 4096 then
            storeGet t.dict.links j = some p ∧ storeGet t.dict.bytes j = some b ∧
              storeGet t.dict.lens j = some (BitVec.ofNat 13 (n + 1))
          else
            storeGet t.dict.links j = storeGet s.dict.links j ∧ storeGet t.dict.bytes j = storeGet s.dict.bytes j ∧
              storeGet t.dict.lens j = storeGet s.dict.lens j

/-- A frozen dictionary's add writes no entry and changes no register, and its result is ⊥; no code read in LOOP is then a
KWKWK, the only user of the result (R90). -/
def Obligations.FrozenAddsDoNothing : Prop :=
  ∀ (m : Nat) (s : State), dictOk m 4096 s.dict →
    (∀ p b, dictAdd p b s = .ok none s) ∧ ∀ c d : Code, decodeCode .loop (viewOf m 4096) c ≠ .kwkwk d

/-- The growth points: with minimum code size m, an add widens the code exactly where it finds currentIndex = 2^k - 1 for
k = m+1 .. 11, from k bits to k+1; the closed form of R23 holds after every add; the add that finds 4095 keeps 12 bits and
leaves the dictionary frozen (R69). -/
def Obligations.GrowthPoints : Prop :=
  ∀ (m ci : Nat) (s t : State) (o : Code) (b : Byte) (k : Option Nat), dictOk m ci s.dict → ci < 4096 →
    live m ci o.toNat → dictAdd (o.zeroExtend 13) b s = .ok k t →
    (∀ w, m + 1 ≤ w → w ≤ 11 → ci = 2 ^ w - 1 →
        s.dict.codeLength = some (BitVec.ofNat 4 w) ∧ t.dict.codeLength = some (BitVec.ofNat 4 (w + 1))) ∧
      ((∀ w, m + 1 ≤ w → w ≤ 11 → ci ≠ 2 ^ w - 1) → t.dict.codeLength = s.dict.codeLength) ∧
      t.dict.codeLength = some (BitVec.ofNat 4 (min 12 (max (m + 1) (bitlen (ci + 1))))) ∧
      (ci = 4095 → s.dict.codeLength = some 12 ∧ t.dict.codeLength = some 12 ∧ t.frozen = true)

/-- LEN of a live entry is the length of the string that the walk of PREFIX gives, and for an added entry it is at most
i - clearCode, so never above 4091 (R96, and R97's bound). -/
def Obligations.EntryLengths : Prop :=
  ∀ (m ci i : Nat) (d : Dict), dictOk m ci d → live m ci i →
    ∃ str, entryString 4096 d i = some str ∧ storeGet d.lens i = some (BitVec.ofNat 13 str.length) ∧
      1 ≤ str.length ∧ str.length ≤ 4091 ∧ (2 ^ m + 1 < i → str.length ≤ i - 2 ^ m)

/-- DICT_FIRSTBYTE gives the first byte of the entry's string, below clearCode; on an atomic entry it gives the entry's own
index; the walk makes LEN - 1 steps, so LEN visits suffice and LEN - 1 do not (R91). -/
def Obligations.FirstByteOfAString : Prop :=
  ∀ (m ci i : Nat) (s : State) (b : Byte) (bs : List Byte), dictOk m ci s.dict → live m ci i →
    entryString 4096 s.dict i = some (b :: bs) →
    firstByte i s = .ok b s ∧ b.toNat < 2 ^ m ∧ (i < 2 ^ m → b.toNat = i ∧ bs = []) ∧
      firstByteWalk (bs.length + 1) i s = .ok b s ∧ firstByteWalk bs.length i s = .fault .prefixRing

/-- Between two resets currentIndex never falls and never goes above 4096: a code step that takes no exception and runs no
CLEAR leaves it, but for the one add of a step that stays in LOOP, which raises it by one unless it is 4096 (R95). -/
def Obligations.CurrentIndexNeverFalls : Prop :=
  ∀ (s t : State) (ci : BitVec 13), Inv s → s.phase = .first ∨ s.phase = .start ∨ s.phase = .loop →
    s.dict.currentIndex = some ci → step s = .next t → t.phase ≠ .error → ¬ (s.phase = .loop ∧ t.phase = .start) →
    ci.toNat ≤ 4096 ∧
      t.dict.currentIndex = some (if s.phase = .loop ∧ t.phase = .loop ∧ ci.toNat < 4096 then ci + 1 else ci)

/-! ### The rasterizer -/

/-- PAINT(i) of a live entry fills PB with the entry's string from PB[0] on, leaves the rest of PB, and paints that string
byte by byte (R120, R123, R125). -/
def Obligations.PaintIsTheString : Prop :=
  ∀ (m ci i : Nat) (s : State) (str : List Byte), dictOk m ci s.dict → live m ci i →
    entryString 4096 s.dict i = some str →
    ∃ pb, paint i s = paintList str { s with pb := pb } ∧
      ∀ k, storeGet pb k = if k < str.length then str[k]? else storeGet s.pb k

/-- PAINT changes PX, PY, PB and FB only, from every state (R117, R123). -/
def Obligations.PaintChangesThePenPbAndFb : Prop :=
  ∀ (i : Nat) (s t : State), paint i s = .ok () t →
    t = { s with pb := t.pb, fb := t.fb, dp := { s.dp with px := t.dp.px, py := t.dp.py } }

/-- One byte above the bottom, in R124's order: a transparent byte only moves the pen (R127); a visible byte without a
colour raises, before any write and with the pen unmoved (R128); any other is written at the pen if the pen is left of the
clip edge and on the canvas (R130), and the pen moves on (R129). -/
def Obligations.PaintByteOrder : Prop :=
  ∀ (c : Cfg) (s : State) (b : Byte) (px py : Coord), configured c s → penOk c s.dp → s.dp.px = some px →
    s.dp.py = some py →
    let moved : Datapath :=
      if c.left.toNat + c.width.toNat ≤ px.toNat + 1 then
        { s.dp with px := some (BitVec.ofNat 17 c.left.toNat), py := some (py + 1) }
      else { s.dp with px := some (px + 1) }
    let seeThrough : Prop := c.gcePresent = true ∧ c.transparentFlag = true ∧ b = c.transparentIndex
    (seeThrough → paintByte b s = .ok () { s with dp := moved }) ∧
      (¬ seeThrough → c.ctLen.toNat ≤ b.toNat → paintByte b s = .raised (.malformed .colorIndexOutOfRange) s) ∧
      (¬ seeThrough → b.toNat < c.ctLen.toNat →
        ∃ e, s.ct[b.toNat]? = some e ∧
          paintByte b s =
            .ok ()
              { (if px.toNat < c.left.toNat + c.width.toNat ∧ px.toNat < c.canvasW.toNat ∧ py.toNat < c.canvasH.toNat then
                  fbWritePixel c.canvasW px.toNat py.toNat (e.extractLsb' 0 8) (e.extractLsb' 8 8) (e.extractLsb' 16 8)
                    0xFF s
                else s) with
                dp := moved })

/-- At the bottom every byte of a string is dropped: PAINT fills PB and does nothing else, whatever CT holds (R126). -/
def Obligations.BottomStopDropsTheRest : Prop :=
  ∀ (c : Cfg) (m ci i : Nat) (s : State) (py : Coord), running c m ci s → live m ci i → s.dp.py = some py →
    c.top.toNat + c.height.toNat ≤ py.toNat → ∃ pb, paint i s = .ok () { s with pb := pb }

/-- Height 0: CLIP.B, CLIP.T and PY are one value throughout the decode, and every byte is dropped: no lookup, no write, no
fault, whatever CT holds (R137). -/
def Obligations.HeightZeroPaintsNothing : Prop :=
  ∀ (c : Cfg) (m ci i : Nat) (s : State), running c m ci s → c.height = 0 → live m ci i →
    s.dp.clipB = s.dp.clipT ∧ s.dp.py = s.dp.clipT ∧ ∃ pb, paint i s = .ok () { s with pb := pb }

/-- Width 0: no byte writes a pixel; each byte above the bottom moves the pen one row down at the left edge, and its colour
is still checked (R136). -/
def Obligations.WidthZeroPaintsNothing : Prop :=
  ∀ (c : Cfg) (m ci i : Nat) (s : State) (py : Coord) (str : List Byte), running c m ci s → c.width = 0 →
    live m ci i → s.dp.py = some py → entryString 4096 s.dict i = some str →
    (colorsInRange c (str.take (c.top.toNat + c.height.toNat - py.toNat)) →
        ∃ pb, paint i s =
          .ok ()
            { s with
              pb := pb
              dp :=
                { s.dp with
                  py := some (BitVec.ofNat 17 (min (py.toNat + str.length) (c.top.toNat + c.height.toNat))) } }) ∧
      (¬ colorsInRange c (str.take (c.top.toNat + c.height.toNat - py.toNat)) →
        ∃ t, paint i s = .raised (.malformed .colorIndexOutOfRange) t ∧ t.fb = s.fb)

/-- A string lands in raster order: with the pen at position q of the rectangle, byte k goes to position q + k, at column
(q + k) mod width and row (q + k) div width, and the bytes from width × height on are dropped. A visible byte's pixel on the
canvas holds its colour with alpha 0xFF, a transparent byte's pixel and every other byte of FB are as before, and the pen
stands behind the last byte handled (R129, R131, R132, R134). -/
def Obligations.StringLandsInRasterOrder : Prop :=
  ∀ (c : Cfg) (s : State) (str : List Byte) (q : Nat), configured c s → penOk c s.dp → penAt c q s.dp →
    c.width ≠ 0 → q ≤ c.width.toNat * c.height.toNat →
    colorsInRange c (str.take (c.width.toNat * c.height.toNat - q)) →
    ∃ t, paintList str s = .ok () t ∧ penAt c (min (q + str.length) (c.width.toNat * c.height.toNat)) t.dp ∧
      (∀ (k : Nat) (b : Byte), str[k]? = some b → q + k < c.width.toNat * c.height.toNat →
        c.left.toNat + (q + k) % c.width.toNat < c.canvasW.toNat →
        c.top.toNat + (q + k) / c.width.toNat < c.canvasH.toNat →
        transparent c b = false →
        ∃ e, s.ct[b.toNat]? = some e ∧
          t.fbRead (pixelOffset c.canvasW (c.left.toNat + (q + k) % c.width.toNat)
              (c.top.toNat + (q + k) / c.width.toNat)) = e.extractLsb' 0 8 ∧
          t.fbRead (pixelOffset c.canvasW (c.left.toNat + (q + k) % c.width.toNat)
              (c.top.toNat + (q + k) / c.width.toNat) + 1) = e.extractLsb' 8 8 ∧
          t.fbRead (pixelOffset c.canvasW (c.left.toNat + (q + k) % c.width.toNat)
              (c.top.toNat + (q + k) / c.width.toNat) + 2) = e.extractLsb' 16 8 ∧
          t.fbRead (pixelOffset c.canvasW (c.left.toNat + (q + k) % c.width.toNat)
              (c.top.toNat + (q + k) / c.width.toNat) + 3) = 0xFF) ∧
      ∀ a,
        (∀ (k : Nat) (b : Byte), str[k]? = some b → q + k < c.width.toNat * c.height.toNat →
          c.left.toNat + (q + k) % c.width.toNat < c.canvasW.toNat →
          c.top.toNat + (q + k) / c.width.toNat < c.canvasH.toNat →
          transparent c b = false →
          ¬ inPixel c.canvasW (c.left.toNat + (q + k) % c.width.toNat) (c.top.toNat + (q + k) / c.width.toNat) a) →
        t.fbRead a = s.fbRead a

/-- FbWritePixel on the canvas: R, G, B, A at offsets +0 to +3 of 4 * (py * canvasW + px), inside the frame's
4 * canvasW * canvasH bytes, and every other byte of FB and everything else as before (R55). -/
def Obligations.PixelWrite : Prop :=
  ∀ (c : Cfg) (s : State) (px py : Nat) (r g b a : Byte), px < c.canvasW.toNat → py < c.canvasH.toNat →
    let o := 4 * (py * c.canvasW.toNat + px)
    let t := fbWritePixel c.canvasW px py r g b a s
    t.fbRead o = r ∧ t.fbRead (o + 1) = g ∧ t.fbRead (o + 2) = b ∧ t.fbRead (o + 3) = a ∧
      o + 3 < 4 * (c.canvasW.toNat * c.canvasH.toNat) ∧ t = { s with fb := t.fb } ∧
      ∀ x, x < o ∨ o + 3 < x → t.fbRead x = s.fbRead x

/-- Two pixels of the canvas share no byte of FB, and a pixel's bytes lie at four consecutive offsets below 2^34 (R41, R44,
R135). -/
def Obligations.PixelsAreDisjoint : Prop :=
  ∀ (c : Cfg) (px py qx qy a : Nat), px < c.canvasW.toNat → py < c.canvasH.toNat → qx < c.canvasW.toNat →
    qy < c.canvasH.toNat → inPixel c.canvasW px py a → inPixel c.canvasW qx qy a →
    px = qx ∧ py = qy ∧ a < 2 ^ 34

/-- No step of a decode changes a byte of FB outside the decode's rectangle and the canvas, the step that aborts it among
them (R132, R148). -/
def Obligations.OutsideTheRectanglePersists : Prop :=
  ∀ (s t : State) (c : Cfg), Inv s → s.phase.quiescent = false → s.cfg = some c → step s = .next t →
    ∀ a, outsideRectangle c a → t.fbRead a = s.fbRead a

/-- A step that takes no exception writes no alpha byte but 0xFF, from every state (R131). -/
def Obligations.AlphaIsOpaque : Prop :=
  ∀ (s t : State), s.phase.quiescent = false → step s = .next t → t.phase ≠ .error →
    ∀ a, a % 4 = 3 → t.fbRead a = s.fbRead a ∨ t.fbRead a = 0xFF

/-! ### Exceptions, observation, reset -/

/-- ABORT, from every state: STATUS holds the kind and the reason, RESULT ⊥, BR, DICT, datapath and PB are released, PHASE
is ERROR, and CFG, CT, IN, ADDR_W and the host's moves stay (R148). Each byte of a pixel inside rectangle and canvas is a free
value of this abort, every other byte is as before (R148, U1; the free values are log entry 3). -/
def Obligations.AbortTakesAnException : Prop :=
  ∀ (e : Exc) (s : State),
    let t := abort e s
    t.phase = .error ∧ t.status = e.status ∧ t.endPos = none ∧ released t ∧ t.cfg = s.cfg ∧ t.ct = s.ct ∧
      t.input = s.input ∧ t.addrW = s.addrW ∧ t.host = s.host ∧ t.draws = s.draws + 1 ∧ (s.cfg = none → ∀ a, t.fbRead a = s.fbRead a) ∧
      ∀ c, s.cfg = some c →
        (∀ px py j, inRectangle c px py → j < 4 →
          t.fbRead (pixelOffset c.canvasW px py + j) = (Config.errorPixel s.draws px py).extractLsb' (8 * j) 8) ∧
        ∀ a, outsideRectangle c a → t.fbRead a = s.fbRead a

/-- What the host reads when a decode has ended: DONE goes with STATUS OK and a position in RESULT; ERROR with Eof and
reason 0, or Malformed and a reason 1..7, and RESULT ⊥ (R11, R140). -/
def Obligations.HostObservesTheOutcome : Prop :=
  ∀ (s : State), Inv s →
    (s.phase = .done → hostReadStatus s = 1#6 ∧ ∃ e, hostReadEndPos s = .ok e s) ∧
      (s.phase = .error →
        hostReadEndPos s = .fault (.unwritten .endPos) ∧
          (hostReadStatus s = 2#6 ∨ ∃ r, 1 ≤ r ∧ r ≤ 7 ∧ (hostReadStatus s).toNat = 8 * r + 3))

/-- The host reads FB in a quiescent phase only, inside the frame of the latched configuration (R36, R140, R159). Refusing
the read while busy, and faulting outside the frame, are the model's choice (log entry 5). -/
def Obligations.HostFrameReads : Prop :=
  ∀ (s : State) (c : Cfg) (a : Nat), s.cfg = some c →
    (s.phase.quiescent = false → hostReadFb a s = .refused .frameReadWhileBusy) ∧
      (s.phase.quiescent = true → a < 4 * (c.canvasW.toNat * c.canvasH.toNat) → hostReadFb a s = .ok (s.fbRead a) s) ∧
      (s.phase.quiescent = true → 4 * (c.canvasW.toNat * c.canvasH.toNat) ≤ a →
        hostReadFb a s = .fault (.frameAddress a))

/-- The host's structures and what it makes of them. 16-bit fields are little-endian (R39). The header is one of the two
magics (R147). The logical screen descriptor, the image descriptor and the graphic control extension have R64's bytes in
their order, and each flag byte is the sum of its fields at their places. A colour table is its entries' bytes R, G, B in
file order, R in the low byte of an entry (R18, R64). An interlaced image gets no configuration record; otherwise the
record takes the rectangle, the canvas, the length 2^(s+1) of the local table if there is one, else of the global table if
there is one, else 0, and the transparency of a pending graphic control extension, with both flags 0 if there is none
(R147, R156). The model's choice (log entry 18): too few bytes are Eof, but a header of fewer than six is
InvalidSignature; a wrong introducer, label, size or terminator byte is Malformed; and the transparent index is 0 where no
extension is pending. -/
def Obligations.HostStructures : Prop :=
  (∀ lo hi : Byte, (u16le lo hi).toNat = lo.toNat + 256 * hi.toNat) ∧
    (∀ bytes : List Byte,
      (checkHeader bytes = .ok () ↔
          ∃ v rest, (v = 0x37 ∨ v = 0x39) ∧ bytes = 0x47 :: 0x49 :: 0x46 :: 0x38 :: v :: 0x61 :: rest) ∧
        (checkHeader bytes = .ok () ∨ checkHeader bytes = .error .invalidSignature)) ∧
    (∀ (w0 w1 h0 h1 packed bg aspect : Byte) (rest : List Byte),
      ∃ l, parseLsd (w0 :: w1 :: h0 :: h1 :: packed :: bg :: aspect :: rest) = .ok l ∧
        l.width.toNat = w0.toNat + 256 * w1.toNat ∧ l.height.toNat = h0.toNat + 256 * h1.toNat ∧ l.bgIndex = bg ∧
        l.aspect = aspect ∧
        packed.toNat =
          128 * l.gctFlag.toNat + 16 * l.colorResolution.toNat + 8 * l.sorted.toNat + l.gctSize.toNat) ∧
    (∀ (sep l0 l1 t0 t1 w0 w1 h0 h1 packed : Byte) (rest : List Byte),
      let bytes := sep :: l0 :: l1 :: t0 :: t1 :: w0 :: w1 :: h0 :: h1 :: packed :: rest
      (sep ≠ 0x2C → parseImageDescriptor bytes = .error .malformed) ∧
        (sep = 0x2C →
          ∃ d, parseImageDescriptor bytes = .ok d ∧ d.left.toNat = l0.toNat + 256 * l1.toNat ∧
            d.top.toNat = t0.toNat + 256 * t1.toNat ∧ d.width.toNat = w0.toNat + 256 * w1.toNat ∧
            d.height.toNat = h0.toNat + 256 * h1.toNat ∧
            packed.toNat =
              128 * d.lctFlag.toNat + 64 * d.interlaced.toNat + 32 * d.sorted.toNat + 8 * d.reserved.toNat +
                d.lctSize.toNat)) ∧
    (∀ (intro label size packed d0 d1 ix fin : Byte) (rest : List Byte),
      let bytes := intro :: label :: size :: packed :: d0 :: d1 :: ix :: fin :: rest
      (¬ (intro = 0x21 ∧ label = 0xF9 ∧ size = 0x04 ∧ fin = 0x00) → parseGce bytes = .error .malformed) ∧
        (intro = 0x21 ∧ label = 0xF9 ∧ size = 0x04 ∧ fin = 0x00 →
          ∃ g, parseGce bytes = .ok g ∧ g.delay.toNat = d0.toNat + 256 * d1.toNat ∧ g.transparentIndex = ix ∧
            packed.toNat =
              32 * g.reserved.toNat + 4 * g.disposalMethod.toNat + 2 * g.userInput.toNat + g.transparentFlag.toNat)) ∧
    (∀ bytes : List Byte,
      (bytes.length < 7 → parseLsd bytes = .error .eof) ∧
        (bytes.length < 10 → parseImageDescriptor bytes = .error .eof) ∧
        (bytes.length < 8 → parseGce bytes = .error .eof)) ∧
    (∀ (n : Nat) (bytes : List Byte),
      (bytes.length < 3 * n → parseColorTable n bytes = .error .eof) ∧
        (3 * n ≤ bytes.length →
          ∃ es, parseColorTable n bytes = .ok es ∧ es.length = n ∧
            ∀ (i : Nat) (e : Rgb), es[i]? = some e →
              bytes[3 * i]? = some (e.extractLsb' 0 8) ∧ bytes[3 * i + 1]? = some (e.extractLsb' 8 8) ∧
                bytes[3 * i + 2]? = some (e.extractLsb' 16 8))) ∧
    ∀ (l : Lsd) (d : ImageDescriptor) (g : Option Gce) (p : Nat),
      (d.interlaced = true → configOf l d g p = .error .unsupported) ∧
        (d.interlaced = false →
          ∃ c, configOf l d g p = .ok c ∧ c.startPos = p ∧ c.left = d.left ∧ c.top = d.top ∧ c.width = d.width ∧
            c.height = d.height ∧ c.canvasW = l.width ∧ c.canvasH = l.height ∧
            c.ctLen.toNat =
              (if d.lctFlag then 2 ^ (d.lctSize.toNat + 1) else if l.gctFlag then 2 ^ (l.gctSize.toNat + 1) else 0) ∧
            c.ctLen.toNat ≤ 256 ∧
            match g with
            | none => c.gcePresent = false ∧ c.transparentFlag = false ∧ c.transparentIndex = 0
            | some e =>
                c.gcePresent = true ∧ c.transparentFlag = e.transparentFlag ∧ c.transparentIndex = e.transparentIndex)

/-- Hardware reset, from every state: PHASE IDLE, STATUS NONE with reason 0, every other register, array and buffer of the
block ⊥, FB unchanged, and before the first decode FB holds FB_INIT's bytes (R154). That a step with no move of the host
left changes nothing is how the model says that the block takes no step until the host moves (log entries 5 and 8), and
that FB_INIT gives a byte for each offset is its form of that parameter (log entry 2). -/
def Obligations.HardwareReset : Prop :=
  (∀ a, State.reset.fbRead a = Config.fbInit a) ∧ ∀ s : State,
    let t := hardwareReset s
    t.phase = .idle ∧ t.status.kind = .none ∧ t.status.reason = .none ∧ t.endPos = none ∧ t.cfg = none ∧ t.ct = [] ∧
      t.br = { pos := none, bytesInBlock := none, buffer := none, bitsLeft := none } ∧
      t.dict.minCodeSize = none ∧ t.dict.codeLength = none ∧ t.dict.clearCode = none ∧ t.dict.eoiCode = none ∧
      t.dict.currentIndex = none ∧ t.dict.maxCode = none ∧
      (∀ i, storeGet t.dict.links i = none ∧ storeGet t.dict.bytes i = none ∧ storeGet t.dict.lens i = none ∧
        storeGet t.pb i = none) ∧
      t.dp.index = none ∧ t.dp.old = none ∧ t.dp.px = none ∧ t.dp.py = none ∧ t.dp.clipL = none ∧ t.dp.clipR = none ∧
      t.dp.clipT = none ∧ t.dp.clipB = none ∧ (∀ a, t.fbRead a = s.fbRead a) ∧ (t.host = [] → step t = .next t)

/-- The state after reset: what hardware reset gives (R33, R154), with FB reading FB_INIT's bytes (R6; log entry 2), an empty
IN and an ADDR_W of 32 (the model's choice, log entry 4) and no move of the host (log entry 5). -/
def Obligations.ResetState : Prop :=
  hardwareReset State.reset = State.reset ∧ (∀ a, State.reset.fbRead a = Config.fbInit a) ∧ State.reset.input = [] ∧
    State.reset.addrW = 32 ∧ State.reset.host = [] ∧ hostReadPhase State.reset = 0#3 ∧ hostReadStatus State.reset = 0#6 ∧
    hostReadEndPos State.reset = .fault (.unwritten .endPos)

/-- PHASE's eight codes, which phases are quiescent (R10), and STATUS's two fields: the kind in bits 2:0 and the reason in
bits 5:3, with their codes (R11, R144). -/
def Obligations.PhaseAndStatusCodes : Prop :=
  [Phase.idle, .opening, .first, .start, .loop, .term, .done, .error].map (fun p => (p.code.toNat, p.quiescent)) =
      [(0, true), (1, false), (2, false), (3, false), (4, false), (5, false), (6, true), (7, true)] ∧
    (∀ st : Status, st.word.extractLsb' 0 3 = st.kind.code ∧ st.word.extractLsb' 3 3 = st.reason.code) ∧
    [Kind.none, .ok, .eof, .malformed, .unsupported, .invalidSignature].map (fun k => k.code.toNat) =
      [0, 1, 2, 3, 4, 5] ∧
    [Reason.none, .minCodeSizeRange, .firstCodeNotClear, .startCodeNotAtomic, .codeBeyondNext, .terminatorMidStream,
        .nonZeroTerminator, .colorIndexOutOfRange].map (fun r => r.code.toNat) =
      [0, 1, 2, 3, 4, 5, 6, 7]

/-! ### Invariants -/

/-- The state after reset meets the invariant. -/
def Obligations.ResetMeetsInvariant : Prop := Inv State.reset ∧ launchPremise State.reset

/-- Every step keeps the invariant: the stores' canonical form, PHASE with STATUS and RESULT (R140), the released registers
of a quiescent phase (R30), and, in a decode under way, the dictionary's registers and entries (R23, R25, R97, R98), the bit
reader (R81), the pen and the clip registers (R133, R136) and OLD (R27, R116); and that ADDR_W is wide enough for IN and
every position has that width (R6, R34). -/
def Obligations.StepKeepsInvariant : Prop :=
  ∀ (s t : State), Inv s → launchPremise s → step s = .next t → Inv t

/-- Under the launch premises no step stops: no rule reads ⊥, and nothing is refused (R153, R155, R161). In a quiescent
phase with no host move left the next state is the state as it was: the model's choice (log entry 8), since R107 has no
step there. -/
def Obligations.StepNeverStops : Prop :=
  ∀ s : State, Inv s → launchPremise s → ∃ t, step s = .next t

/-- Every store stays in its canonical form, with every index in its range, from every state (R24, R28, R135). -/
def Obligations.StoresStayCanonical : Prop :=
  ∀ (s t : State), storesOk s → step s = .next t → storesOk t

/-- Every position register keeps a number of ADDR_W bits, and no step changes ADDR_W, from every state (R12, R16, R20,
R34; that ADDR_W is a field of State is the model's choice, log entry 4). -/
def Obligations.PositionsStayInWidth : Prop :=
  ∀ (s t : State), positionsFit s → step s = .next t → positionsFit t ∧ t.addrW = s.addrW

/-- A decode reaches DONE or ERROR within 3 + floor(8·N / 3) steps of OPEN (R106). It rests on the model's choice that
hardware reset, as a move of the host, waits for a quiescent phase (log entry 15). -/
def Obligations.DecodeEndsWithinTheBound : Prop :=
  ∀ s : State, Inv s → s.phase = .opening →
    ∃ (k : Nat) (t : State), k ≤ 3 + 8 * s.input.length / 3 ∧ core.run k s = .next t ∧
      (t.phase = .done ∨ t.phase = .error)
end

