-- ==== Sys2Proof/Laws/State.lean ====
section
/-! SUPPORT. One lemma per field per named update of State (Machine/Ops.lean), so that no proof unfolds an update. -/

namespace Sys2Proof.Machine

@[simp] theorem State.setPhase_phase (s : State) (v : Phase) : (s.setPhase v).phase = v := rfl
@[simp] theorem State.setPhase_status (s : State) (v : Phase) : (s.setPhase v).status = s.status := rfl
@[simp] theorem State.setPhase_endPos (s : State) (v : Phase) : (s.setPhase v).endPos = s.endPos := rfl
@[simp] theorem State.setPhase_cfg (s : State) (v : Phase) : (s.setPhase v).cfg = s.cfg := rfl
@[simp] theorem State.setPhase_ct (s : State) (v : Phase) : (s.setPhase v).ct = s.ct := rfl
@[simp] theorem State.setPhase_br (s : State) (v : Phase) : (s.setPhase v).br = s.br := rfl
@[simp] theorem State.setPhase_dict (s : State) (v : Phase) : (s.setPhase v).dict = s.dict := rfl
@[simp] theorem State.setPhase_dp (s : State) (v : Phase) : (s.setPhase v).dp = s.dp := rfl
@[simp] theorem State.setPhase_pb (s : State) (v : Phase) : (s.setPhase v).pb = s.pb := rfl
@[simp] theorem State.setPhase_input (s : State) (v : Phase) : (s.setPhase v).input = s.input := rfl
@[simp] theorem State.setPhase_fb (s : State) (v : Phase) : (s.setPhase v).fb = s.fb := rfl
@[simp] theorem State.setPhase_addrW (s : State) (v : Phase) : (s.setPhase v).addrW = s.addrW := rfl
@[simp] theorem State.setPhase_draws (s : State) (v : Phase) : (s.setPhase v).draws = s.draws := rfl
@[simp] theorem State.setPhase_host (s : State) (v : Phase) : (s.setPhase v).host = s.host := rfl

@[simp] theorem State.setBr_phase (s : State) (v : BitReader) : (s.setBr v).phase = s.phase := rfl
@[simp] theorem State.setBr_status (s : State) (v : BitReader) : (s.setBr v).status = s.status := rfl
@[simp] theorem State.setBr_endPos (s : State) (v : BitReader) : (s.setBr v).endPos = s.endPos := rfl
@[simp] theorem State.setBr_cfg (s : State) (v : BitReader) : (s.setBr v).cfg = s.cfg := rfl
@[simp] theorem State.setBr_ct (s : State) (v : BitReader) : (s.setBr v).ct = s.ct := rfl
@[simp] theorem State.setBr_br (s : State) (v : BitReader) : (s.setBr v).br = v := rfl
@[simp] theorem State.setBr_dict (s : State) (v : BitReader) : (s.setBr v).dict = s.dict := rfl
@[simp] theorem State.setBr_dp (s : State) (v : BitReader) : (s.setBr v).dp = s.dp := rfl
@[simp] theorem State.setBr_pb (s : State) (v : BitReader) : (s.setBr v).pb = s.pb := rfl
@[simp] theorem State.setBr_input (s : State) (v : BitReader) : (s.setBr v).input = s.input := rfl
@[simp] theorem State.setBr_fb (s : State) (v : BitReader) : (s.setBr v).fb = s.fb := rfl
@[simp] theorem State.setBr_addrW (s : State) (v : BitReader) : (s.setBr v).addrW = s.addrW := rfl
@[simp] theorem State.setBr_draws (s : State) (v : BitReader) : (s.setBr v).draws = s.draws := rfl
@[simp] theorem State.setBr_host (s : State) (v : BitReader) : (s.setBr v).host = s.host := rfl

@[simp] theorem State.setDict_phase (s : State) (v : Dict) : (s.setDict v).phase = s.phase := rfl
@[simp] theorem State.setDict_status (s : State) (v : Dict) : (s.setDict v).status = s.status := rfl
@[simp] theorem State.setDict_endPos (s : State) (v : Dict) : (s.setDict v).endPos = s.endPos := rfl
@[simp] theorem State.setDict_cfg (s : State) (v : Dict) : (s.setDict v).cfg = s.cfg := rfl
@[simp] theorem State.setDict_ct (s : State) (v : Dict) : (s.setDict v).ct = s.ct := rfl
@[simp] theorem State.setDict_br (s : State) (v : Dict) : (s.setDict v).br = s.br := rfl
@[simp] theorem State.setDict_dict (s : State) (v : Dict) : (s.setDict v).dict = v := rfl
@[simp] theorem State.setDict_dp (s : State) (v : Dict) : (s.setDict v).dp = s.dp := rfl
@[simp] theorem State.setDict_pb (s : State) (v : Dict) : (s.setDict v).pb = s.pb := rfl
@[simp] theorem State.setDict_input (s : State) (v : Dict) : (s.setDict v).input = s.input := rfl
@[simp] theorem State.setDict_fb (s : State) (v : Dict) : (s.setDict v).fb = s.fb := rfl
@[simp] theorem State.setDict_addrW (s : State) (v : Dict) : (s.setDict v).addrW = s.addrW := rfl
@[simp] theorem State.setDict_draws (s : State) (v : Dict) : (s.setDict v).draws = s.draws := rfl
@[simp] theorem State.setDict_host (s : State) (v : Dict) : (s.setDict v).host = s.host := rfl

@[simp] theorem State.setDp_phase (s : State) (v : Datapath) : (s.setDp v).phase = s.phase := rfl
@[simp] theorem State.setDp_status (s : State) (v : Datapath) : (s.setDp v).status = s.status := rfl
@[simp] theorem State.setDp_endPos (s : State) (v : Datapath) : (s.setDp v).endPos = s.endPos := rfl
@[simp] theorem State.setDp_cfg (s : State) (v : Datapath) : (s.setDp v).cfg = s.cfg := rfl
@[simp] theorem State.setDp_ct (s : State) (v : Datapath) : (s.setDp v).ct = s.ct := rfl
@[simp] theorem State.setDp_br (s : State) (v : Datapath) : (s.setDp v).br = s.br := rfl
@[simp] theorem State.setDp_dict (s : State) (v : Datapath) : (s.setDp v).dict = s.dict := rfl
@[simp] theorem State.setDp_dp (s : State) (v : Datapath) : (s.setDp v).dp = v := rfl
@[simp] theorem State.setDp_pb (s : State) (v : Datapath) : (s.setDp v).pb = s.pb := rfl
@[simp] theorem State.setDp_input (s : State) (v : Datapath) : (s.setDp v).input = s.input := rfl
@[simp] theorem State.setDp_fb (s : State) (v : Datapath) : (s.setDp v).fb = s.fb := rfl
@[simp] theorem State.setDp_addrW (s : State) (v : Datapath) : (s.setDp v).addrW = s.addrW := rfl
@[simp] theorem State.setDp_draws (s : State) (v : Datapath) : (s.setDp v).draws = s.draws := rfl
@[simp] theorem State.setDp_host (s : State) (v : Datapath) : (s.setDp v).host = s.host := rfl

@[simp] theorem State.setPb_phase (s : State) (v : List (Nat × Byte)) : (s.setPb v).phase = s.phase := rfl
@[simp] theorem State.setPb_status (s : State) (v : List (Nat × Byte)) : (s.setPb v).status = s.status := rfl
@[simp] theorem State.setPb_endPos (s : State) (v : List (Nat × Byte)) : (s.setPb v).endPos = s.endPos := rfl
@[simp] theorem State.setPb_cfg (s : State) (v : List (Nat × Byte)) : (s.setPb v).cfg = s.cfg := rfl
@[simp] theorem State.setPb_ct (s : State) (v : List (Nat × Byte)) : (s.setPb v).ct = s.ct := rfl
@[simp] theorem State.setPb_br (s : State) (v : List (Nat × Byte)) : (s.setPb v).br = s.br := rfl
@[simp] theorem State.setPb_dict (s : State) (v : List (Nat × Byte)) : (s.setPb v).dict = s.dict := rfl
@[simp] theorem State.setPb_dp (s : State) (v : List (Nat × Byte)) : (s.setPb v).dp = s.dp := rfl
@[simp] theorem State.setPb_pb (s : State) (v : List (Nat × Byte)) : (s.setPb v).pb = v := rfl
@[simp] theorem State.setPb_input (s : State) (v : List (Nat × Byte)) : (s.setPb v).input = s.input := rfl
@[simp] theorem State.setPb_fb (s : State) (v : List (Nat × Byte)) : (s.setPb v).fb = s.fb := rfl
@[simp] theorem State.setPb_addrW (s : State) (v : List (Nat × Byte)) : (s.setPb v).addrW = s.addrW := rfl
@[simp] theorem State.setPb_draws (s : State) (v : List (Nat × Byte)) : (s.setPb v).draws = s.draws := rfl
@[simp] theorem State.setPb_host (s : State) (v : List (Nat × Byte)) : (s.setPb v).host = s.host := rfl

@[simp] theorem State.setFb_phase (s : State) (v : List Host.Cell) : (s.setFb v).phase = s.phase := rfl
@[simp] theorem State.setFb_status (s : State) (v : List Host.Cell) : (s.setFb v).status = s.status := rfl
@[simp] theorem State.setFb_endPos (s : State) (v : List Host.Cell) : (s.setFb v).endPos = s.endPos := rfl
@[simp] theorem State.setFb_cfg (s : State) (v : List Host.Cell) : (s.setFb v).cfg = s.cfg := rfl
@[simp] theorem State.setFb_ct (s : State) (v : List Host.Cell) : (s.setFb v).ct = s.ct := rfl
@[simp] theorem State.setFb_br (s : State) (v : List Host.Cell) : (s.setFb v).br = s.br := rfl
@[simp] theorem State.setFb_dict (s : State) (v : List Host.Cell) : (s.setFb v).dict = s.dict := rfl
@[simp] theorem State.setFb_dp (s : State) (v : List Host.Cell) : (s.setFb v).dp = s.dp := rfl
@[simp] theorem State.setFb_pb (s : State) (v : List Host.Cell) : (s.setFb v).pb = s.pb := rfl
@[simp] theorem State.setFb_input (s : State) (v : List Host.Cell) : (s.setFb v).input = s.input := rfl
@[simp] theorem State.setFb_fb (s : State) (v : List Host.Cell) : (s.setFb v).fb = v := rfl
@[simp] theorem State.setFb_addrW (s : State) (v : List Host.Cell) : (s.setFb v).addrW = s.addrW := rfl
@[simp] theorem State.setFb_draws (s : State) (v : List Host.Cell) : (s.setFb v).draws = s.draws := rfl
@[simp] theorem State.setFb_host (s : State) (v : List Host.Cell) : (s.setFb v).host = s.host := rfl

@[simp] theorem release_phase (s : State) : (release s).phase = s.phase := rfl
@[simp] theorem release_status (s : State) : (release s).status = s.status := rfl
@[simp] theorem release_endPos (s : State) : (release s).endPos = s.endPos := rfl
@[simp] theorem release_cfg (s : State) : (release s).cfg = s.cfg := rfl
@[simp] theorem release_ct (s : State) : (release s).ct = s.ct := rfl
@[simp] theorem release_br (s : State) : (release s).br = BitReader.released := rfl
@[simp] theorem release_dict (s : State) : (release s).dict = Dict.released := rfl
@[simp] theorem release_dp (s : State) : (release s).dp = Datapath.released := rfl
@[simp] theorem release_pb (s : State) : (release s).pb = [] := rfl
@[simp] theorem release_input (s : State) : (release s).input = s.input := rfl
@[simp] theorem release_fb (s : State) : (release s).fb = s.fb := rfl
@[simp] theorem release_addrW (s : State) : (release s).addrW = s.addrW := rfl
@[simp] theorem release_draws (s : State) : (release s).draws = s.draws := rfl
@[simp] theorem release_host (s : State) : (release s).host = s.host := rfl

@[simp] theorem hardwareReset_phase (s : State) : (hardwareReset s).phase = State.reset.phase := rfl
@[simp] theorem hardwareReset_status (s : State) : (hardwareReset s).status = State.reset.status := rfl
@[simp] theorem hardwareReset_endPos (s : State) : (hardwareReset s).endPos = State.reset.endPos := rfl
@[simp] theorem hardwareReset_cfg (s : State) : (hardwareReset s).cfg = State.reset.cfg := rfl
@[simp] theorem hardwareReset_ct (s : State) : (hardwareReset s).ct = State.reset.ct := rfl
@[simp] theorem hardwareReset_br (s : State) : (hardwareReset s).br = State.reset.br := rfl
@[simp] theorem hardwareReset_dict (s : State) : (hardwareReset s).dict = State.reset.dict := rfl
@[simp] theorem hardwareReset_dp (s : State) : (hardwareReset s).dp = State.reset.dp := rfl
@[simp] theorem hardwareReset_pb (s : State) : (hardwareReset s).pb = State.reset.pb := rfl
@[simp] theorem hardwareReset_input (s : State) : (hardwareReset s).input = s.input := rfl
@[simp] theorem hardwareReset_fb (s : State) : (hardwareReset s).fb = s.fb := rfl
@[simp] theorem hardwareReset_addrW (s : State) : (hardwareReset s).addrW = s.addrW := rfl
@[simp] theorem hardwareReset_draws (s : State) : (hardwareReset s).draws = s.draws := rfl
@[simp] theorem hardwareReset_host (s : State) : (hardwareReset s).host = s.host := rfl

/-! A second update of the same field replaces the first. -/

@[simp] theorem State.setPhase_setPhase (s : State) (v w : Phase) : (s.setPhase v).setPhase w = s.setPhase w := rfl
@[simp] theorem State.setBr_setBr (s : State) (v w : BitReader) : (s.setBr v).setBr w = s.setBr w := rfl
@[simp] theorem State.setDict_setDict (s : State) (v w : Dict) : (s.setDict v).setDict w = s.setDict w := rfl
@[simp] theorem State.setDp_setDp (s : State) (v w : Datapath) : (s.setDp v).setDp w = s.setDp w := rfl
@[simp] theorem State.setPb_setPb (s : State) (v w : List (Nat × Byte)) : (s.setPb v).setPb w = s.setPb w := rfl
@[simp] theorem State.setFb_setFb (s : State) (v w : List Host.Cell) : (s.setFb v).setFb w = s.setFb w := rfl

end Sys2Proof.Machine
end

