-- ==== Sys2Proof/Laws/Store.lean ====
section
/-! SUPPORT. The laws of the element stores: a read after a write, and that a write keeps the canonical form. -/

namespace Sys2Proof.Machine

theorem storeGet_storeSet {α : Type} (m : List (Nat × α)) (a b : Nat) (v : α) :
    storeGet (storeSet m a v) b = if b = a then some v else storeGet m b := by
  induction m with
  | nil => simp [storeSet, storeGet]
  | cons x t ih =>
    obtain ⟨k, w⟩ := x
    by_cases h1 : a < k
    · simp only [storeSet, h1, if_true, storeGet]
    · by_cases h2 : a = k
      · subst h2
        by_cases h3 : b = a <;> simp [storeSet, storeGet, h3]
      · simp only [storeSet, h1, h2, if_false, storeGet, ih]
        by_cases h3 : b = k
        · subst h3
          simp [Ne.symm h2]
        · simp [h3]

@[simp] theorem storeGet_storeSet_self {α : Type} (m : List (Nat × α)) (a : Nat) (v : α) :
    storeGet (storeSet m a v) a = some v := by
  simp [storeGet_storeSet]

theorem storeGet_storeSet_ne {α : Type} (m : List (Nat × α)) {a b : Nat} (v : α) (h : b ≠ a) :
    storeGet (storeSet m a v) b = storeGet m b := by
  simp [storeGet_storeSet, h]

@[simp] theorem storeGet_nil {α : Type} (a : Nat) : storeGet ([] : List (Nat × α)) a = none := rfl

/-- A written store lists the written index and what was listed before. -/
theorem mem_storeSet {α : Type} {m : List (Nat × α)} {a : Nat} {v : α} {x : Nat × α} (h : x ∈ storeSet m a v) :
    x = (a, v) ∨ x ∈ m := by
  induction m with
  | nil => simp only [storeSet, List.mem_singleton] at h; exact .inl h
  | cons y t ih =>
    obtain ⟨k, w⟩ := y
    simp only [storeSet] at h
    split at h
    · simpa using h
    · split at h
      · rcases List.mem_cons.1 h with h | h
        · exact .inl h
        · exact .inr (List.mem_cons_of_mem _ h)
      · rcases List.mem_cons.1 h with h | h
        · exact .inr (h ▸ List.mem_cons_self)
        · exact (ih h).imp_right (List.mem_cons_of_mem _)

/-- A write keeps the canonical form. -/
theorem storeSet_wf {α : Type} {m : List (Nat × α)} (h : Store.wf m) (a : Nat) (v : α) :
    Store.wf (storeSet m a v) := by
  induction m with
  | nil => simp [storeSet]
  | cons y t ih =>
    obtain ⟨k, w⟩ := y
    have hk := List.pairwise_cons.1 h
    simp only [storeSet]
    split
    · rename_i hlt
      refine List.pairwise_cons.2 ⟨fun x hx => ?_, h⟩
      rcases List.mem_cons.1 hx with rfl | hx
      · exact hlt
      · exact lt_trans hlt (hk.1 x hx)
    · split
      · rename_i heq
        subst heq
        exact List.pairwise_cons.2 ⟨fun x hx => hk.1 x hx, hk.2⟩
      · refine List.pairwise_cons.2 ⟨fun x hx => ?_, ih hk.2⟩
        rcases mem_storeSet hx with rfl | hx
        · show k < a
          omega
        · exact hk.1 x hx

/-- A write keeps a bound on the indices that the written index meets. -/
theorem storeSet_bound {α : Type} {m : List (Nat × α)} {N : Nat} (h : ∀ x ∈ m, x.1 < N) {a : Nat} (ha : a < N) (v : α) :
    ∀ x ∈ storeSet m a v, x.1 < N := by
  intro x hx
  rcases mem_storeSet hx with rfl | hx
  · exact ha
  · exact h x hx

/-- A write of FB below 2^34 keeps FB's canonical form. -/
theorem memorySet_wf {m : List Host.Cell} (h : Memory.wf m) {a : Nat} (ha : a < 2 ^ 34) (b : Byte) :
    Memory.wf (storeSet m a b) :=
  ⟨storeSet_wf h.1 a b, storeSet_bound h.2 ha b⟩

/-- What is listed is what a read answers. -/
theorem storeGet_isSome_of_mem {α : Type} {m : List (Nat × α)} {x : Nat × α} (h : x ∈ m) :
    (storeGet m x.1).isSome = true := by
  induction m with
  | nil => simp at h
  | cons y t ih =>
    obtain ⟨k, w⟩ := y
    simp only [storeGet]
    split
    · rfl
    · rename_i hne
      rcases List.mem_cons.1 h with h | h
      · subst h
        exact absurd rfl hne
      · exact ih h

/-- Two stores in canonical form that read the same are the same data. -/
theorem store_ext {α : Type} {m n : List (Nat × α)} (hm : Store.wf m) (hn : Store.wf n)
    (h : ∀ a, storeGet m a = storeGet n a) : m = n := by
  induction m generalizing n with
  | nil =>
    cases n with
    | nil => rfl
    | cons y t =>
      have := storeGet_isSome_of_mem (m := y :: t) (x := y) List.mem_cons_self
      rw [← h y.1] at this
      simp at this
  | cons x s ih =>
    obtain ⟨k, w⟩ := x
    cases n with
    | nil =>
      have := storeGet_isSome_of_mem (m := (k, w) :: s) (x := (k, w)) List.mem_cons_self
      rw [h k] at this
      simp at this
    | cons y t =>
      obtain ⟨l, z⟩ := y
      have hs := List.pairwise_cons.1 hm
      have ht := List.pairwise_cons.1 hn
      have low : ∀ {β : Type} {q : List (Nat × β)} {a : Nat}, (∀ e ∈ q, a < e.1) → ∀ b, b ≤ a → storeGet q b = none := by
        intro β q a hq b hb
        induction q with
        | nil => rfl
        | cons e q ihq =>
          have := hq e List.mem_cons_self
          simp only [storeGet]
          rw [if_neg (by omega)]
          exact ihq fun e he => hq e (List.mem_cons_of_mem _ he)
      have hkl : k = l := by
        rcases Nat.lt_trichotomy k l with hlt | heq | hgt
        · have h1 := h k
          simp only [storeGet, if_true] at h1
          rw [if_neg (by omega), low (fun e he => ht.1 e he) k (by omega)] at h1
          exact absurd h1 (by simp)
        · exact heq
        · have h1 := h l
          simp only [storeGet, if_true] at h1
          rw [if_neg (by omega), low (fun e he => hs.1 e he) l (by omega)] at h1
          exact absurd h1.symm (by simp)
      subst hkl
      have h0 := h k
      simp only [storeGet, if_true, Option.some.injEq] at h0
      subst h0
      congr 1
      refine ih hs.2 ht.2 fun a => ?_
      by_cases ha : a = k
      · subst ha
        rw [low (fun e he => hs.1 e he) a le_rfl, low (fun e he => ht.1 e he) a le_rfl]
      · have h1 := h a
        simpa only [storeGet, ha, if_false] using h1

end Sys2Proof.Machine
end

