-- ==== Sys2Proof/Laws/Ops.lean ====
section
/-! SUPPORT. What the shared operations can do: the laws of `Res`, of reading a register, of the memory primitives, and
what a write of FB leaves alone. -/

namespace Sys2Proof.Machine

@[simp] theorem Res.bind_ok {α β : Type} (a : α) (s : State) (k : α → State → Res β) : (Res.ok a s).bind k = k a s := rfl
@[simp] theorem Res.bind_raised {α β : Type} (e : Exc) (s : State) (k : α → State → Res β) :
    (Res.raised e s : Res α).bind k = .raised e s := rfl
@[simp] theorem Res.bind_fault {α β : Type} (f : Fault) (k : α → State → Res β) :
    (Res.fault f : Res α).bind k = .fault f := rfl
@[simp] theorem Res.bind_refused {α β : Type} (r : Refusal) (k : α → State → Res β) :
    (Res.refused r : Res α).bind k = .refused r := rfl

@[simp] theorem Res.finish_ok (a : Unit) (s : State) : (Res.ok a s).finish = .next s := rfl
@[simp] theorem Res.finish_raised (e : Exc) (s : State) : (Res.raised e s).finish = .next (abort e s) := rfl
@[simp] theorem Res.finish_fault (f : Fault) : (Res.fault f).finish = .fault f := rfl
@[simp] theorem Res.finish_refused (r : Refusal) : (Res.refused r).finish = .refused r := rfl

@[simp] theorem Res.thenRun_ok (i : Instr) (s : State) (run : Instr → State → Out) : (Res.ok i s).thenRun run = run i s := rfl
@[simp] theorem Res.thenRun_raised (e : Exc) (s : State) (run : Instr → State → Out) :
    (Res.raised e s).thenRun run = .next (abort e s) := rfl

@[simp] theorem need_some {α β : Type} (v : α) (n : RegName) (k : α → Res β) : need (some v) n k = k v := rfl
@[simp] theorem need_none {α β : Type} (n : RegName) (k : α → Res β) :
    need (none : Option α) n k = .fault (.unwritten n) := rfl

theorem Res.bind_assoc {α β γ : Type} (r : Res α) (k : α → State → Res β) (l : β → State → Res γ) :
    (r.bind k).bind l = r.bind fun a s => (k a s).bind l := by
  cases r <;> rfl

/-- A sequence that answers answers through its first part. -/
theorem Res.bind_eq_ok {α β : Type} {r : Res α} {k : α → State → Res β} {b : β} {t : State} (h : r.bind k = .ok b t) :
    ∃ a s, r = .ok a s ∧ k a s = .ok b t := by
  cases r with
  | ok a s => exact ⟨a, s, rfl, h⟩
  | raised e s => cases h
  | fault f => cases h
  | refused r => cases h

/-- A register read that answers found a value. -/
theorem need_eq_ok {α β : Type} {r : Option α} {n : RegName} {k : α → Res β} {b : β} {t : State}
    (h : need r n k = .ok b t) : ∃ v, r = some v ∧ k v = .ok b t := by
  cases r with
  | some v => exact ⟨v, rfl, h⟩
  | none => cases h

/-- A position is a number of ADDR_W bits. -/
theorem position_lt (s : State) (p : Nat) : s.position p < 2 ^ s.addrW := Nat.mod_lt _ (Nat.two_pow_pos _)

/-- A number of ADDR_W bits is the position it is. -/
theorem position_eq {s : State} {p : Nat} (h : p < 2 ^ s.addrW) : s.position p = p := Nat.mod_eq_of_lt h

/-- InRead reads the byte at BR.pos and steps BR.pos over it. -/
theorem inRead_ok {s : State} {p : Nat} {v : Byte} (ha : addressable s) (hp : s.br.pos = some p)
    (hv : s.input[p]? = some v) : inRead s = .ok v (s.setBr { s.br with pos := some (p + 1) }) := by
  have hlt := (List.getElem?_eq_some_iff.1 hv).1
  simp [inRead, hp, hv, position_eq (s := s) (Nat.lt_of_le_of_lt hlt ha)]

/-- InRead at or past N raises Eof (R52). -/
theorem inRead_eof {s : State} {p : Nat} (hp : s.br.pos = some p) (hv : s.input.length ≤ p) :
    inRead s = .raised .eof s := by
  simp [inRead, hp, List.getElem?_eq_none hv]

/-- Everything InRead can do at a position. -/
theorem inRead_cases {s : State} {p : Nat} (ha : addressable s) (hp : s.br.pos = some p) :
    (∃ v, s.input[p]? = some v ∧ p < s.input.length ∧
        inRead s = .ok v (s.setBr { s.br with pos := some (p + 1) })) ∨
      (s.input.length ≤ p ∧ inRead s = .raised .eof s) := by
  by_cases h : p < s.input.length
  · exact .inl ⟨s.input[p], by simp [h], h, inRead_ok ha hp (by simp [h])⟩
  · exact .inr ⟨by omega, inRead_eof hp (by omega)⟩

/-- InAdvance skips the bytes that remain, or raises Eof (R53). -/
theorem inAdvance_cases {s : State} {p : Nat} (n : Nat) (ha : addressable s) (hw : p < 2 ^ s.addrW)
    (hp : s.br.pos = some p) :
    (n ≤ s.input.length - p ∧ inAdvance n s = .ok () (s.setBr { s.br with pos := some (p + n) })) ∨
      (s.input.length - p < n ∧ inAdvance n s = .raised .eof s) := by
  by_cases h : s.input.length - p < n
  · exact .inr ⟨h, by simp [inAdvance, hp, h]⟩
  · have hlt : p + n < 2 ^ s.addrW := by
      unfold addressable at ha
      omega
    exact .inl ⟨by omega, by simp [inAdvance, hp, h, position_eq hlt]⟩

/-! ### The frame -/

/-- A written byte reads back, and every other byte reads as before. -/
theorem fbRead_fbWriteByte (s : State) (a b : Nat) (v : Byte) :
    (fbWriteByte a v s).fbRead b = if b = a then v else s.fbRead b := by
  simp only [State.fbRead, fbWriteByte, State.setFb_fb, storeGet_storeSet]
  split <;> simp

/-- A pixel write changes FB only. -/
theorem fbWritePixel_eq (w : BitVec 16) (px py : Nat) (r g b a : Byte) (s : State) :
    ∃ m, fbWritePixel w px py r g b a s = s.setFb m := ⟨_, rfl⟩

/-- A pixel write leaves every byte outside the pixel alone (R45, R131). -/
theorem fbWritePixel_other {w : BitVec 16} {px py : Nat} (r g b a : Byte) (s : State) {x : Nat}
    (h : ¬ inPixel w px py x) : (fbWritePixel w px py r g b a s).fbRead x = s.fbRead x := by
  unfold inPixel at h
  simp only [fbWritePixel, fbRead_fbWriteByte]
  rw [if_neg (by omega), if_neg (by omega), if_neg (by omega), if_neg (by omega)]

/-- The four bytes of a written pixel (R41, R55). -/
theorem fbWritePixel_bytes (w : BitVec 16) (px py : Nat) (r g b a : Byte) (s : State) :
    (fbWritePixel w px py r g b a s).fbRead (pixelOffset w px py) = r ∧
      (fbWritePixel w px py r g b a s).fbRead (pixelOffset w px py + 1) = g ∧
      (fbWritePixel w px py r g b a s).fbRead (pixelOffset w px py + 2) = b ∧
      (fbWritePixel w px py r g b a s).fbRead (pixelOffset w px py + 3) = a := by
  simp [fbWritePixel, fbRead_fbWriteByte]

/-- The offset of a canvas pixel's bytes is below 2^34 (R135). -/
theorem pixelOffset_lt {c : Cfg} {px py : Nat} (hx : px < c.canvasW.toNat) (hy : py < c.canvasH.toNat) :
    pixelOffset c.canvasW px py + 3 < 4 * (c.canvasW.toNat * c.canvasH.toNat) ∧
      pixelOffset c.canvasW px py + 3 < 2 ^ 34 := by
  have hW := c.canvasW.isLt
  have hH := c.canvasH.isLt
  have h1 : py * c.canvasW.toNat + px + 1 ≤ (py + 1) * c.canvasW.toNat := by
    rw [Nat.succ_mul]; omega
  have h2 : (py + 1) * c.canvasW.toNat ≤ c.canvasH.toNat * c.canvasW.toNat := Nat.mul_le_mul_right _ hy
  have h3 : c.canvasH.toNat * c.canvasW.toNat ≤ 65535 * 65535 :=
    Nat.mul_le_mul (by omega) (by omega)
  have h4 : c.canvasW.toNat * c.canvasH.toNat = c.canvasH.toNat * c.canvasW.toNat := Nat.mul_comm _ _
  unfold pixelOffset
  constructor <;> omega

/-- A canvas pixel's write keeps FB's canonical form. -/
theorem fbWritePixel_wf {c : Cfg} {px py : Nat} (hx : px < c.canvasW.toNat) (hy : py < c.canvasH.toNat)
    (r g b a : Byte) {s : State} (h : Memory.wf s.fb) : Memory.wf (fbWritePixel c.canvasW px py r g b a s).fb := by
  have := (pixelOffset_lt hx hy).2
  simp only [fbWritePixel, fbWriteByte, State.setFb_fb]
  exact memorySet_wf (memorySet_wf (memorySet_wf (memorySet_wf h (by omega) _) (by omega) _) (by omega) _) (by omega) _

/-! ### ABORT -/

/-- A pixel of the rectangle and the canvas is one that an abort draws, and no other is. -/
theorem mem_framePixels {c : Cfg} {px py : Nat} : (px, py) ∈ framePixels c ↔ inRectangle c px py := by
  simp only [framePixels, inRectangle, List.mem_flatMap, List.mem_map, List.mem_range, Prod.mk.injEq]
  constructor
  · rintro ⟨y, hy, x, hx, rfl, rfl⟩
    omega
  · intro h
    exact ⟨py - c.top.toNat, by omega, px - c.left.toNat, by omega, by omega, by omega⟩

/-- Drawing pixels changes FB only. -/
theorem foldl_drawPixel_eq (w : BitVec 16) (l : List (Nat × Nat)) (s : State) :
    ∃ m, l.foldl (drawPixel w) s = s.setFb m := by
  induction l generalizing s with
  | nil => exact ⟨s.fb, rfl⟩
  | cons p l ih =>
    obtain ⟨m, hm⟩ := fbWritePixel_eq w p.1 p.2
      ((Config.errorPixel s.draws p.1 p.2).extractLsb' 0 8) ((Config.errorPixel s.draws p.1 p.2).extractLsb' 8 8)
      ((Config.errorPixel s.draws p.1 p.2).extractLsb' 16 8) ((Config.errorPixel s.draws p.1 p.2).extractLsb' 24 8) s
    obtain ⟨m', hm'⟩ := ih (drawPixel w s p)
    refine ⟨m', ?_⟩
    rw [List.foldl_cons, hm']
    simp only [drawPixel, hm]
    rfl

/-- An abort's draws change FB only. -/
theorem drawFrame_eq (s : State) : ∃ m, drawFrame s = s.setFb m := by
  unfold drawFrame
  split
  · exact ⟨s.fb, rfl⟩
  · exact foldl_drawPixel_eq _ _ _

/-- ABORT in one line: everything but FB is given outright (R148). -/
theorem abort_eq (e : Exc) (s : State) :
    abort e s =
      { phase := .error, status := e.status, endPos := none, cfg := s.cfg, ct := s.ct, br := BitReader.released,
        dict := Dict.released, dp := Datapath.released, pb := [], input := s.input, fb := (drawFrame s).fb,
        addrW := s.addrW, draws := s.draws + 1, host := s.host } := by
  obtain ⟨m, hm⟩ := drawFrame_eq s
  simp [abort, release, hm]

theorem foldl_drawPixel_other {c : Cfg} (l : List (Nat × Nat)) (s : State) {x : Nat}
    (h : ∀ p ∈ l, ¬ inPixel c.canvasW p.1 p.2 x) : (l.foldl (drawPixel c.canvasW) s).fbRead x = s.fbRead x := by
  induction l generalizing s with
  | nil => rfl
  | cons p l ih =>
    rw [List.foldl_cons, ih _ fun q hq => h q (List.mem_cons_of_mem _ hq)]
    exact fbWritePixel_other _ _ _ _ _ (h p List.mem_cons_self)

theorem foldl_drawPixel_wf {c : Cfg} (l : List (Nat × Nat)) (s : State)
    (h : ∀ p ∈ l, p.1 < c.canvasW.toNat ∧ p.2 < c.canvasH.toNat) (hs : Memory.wf s.fb) :
    Memory.wf (l.foldl (drawPixel c.canvasW) s).fb := by
  induction l generalizing s with
  | nil => exact hs
  | cons p l ih =>
    rw [List.foldl_cons]
    refine ih _ (fun q hq => h q (List.mem_cons_of_mem _ hq)) ?_
    exact fbWritePixel_wf (h p List.mem_cons_self).1 (h p List.mem_cons_self).2 _ _ _ _ hs

/-- An abort keeps FB's canonical form. -/
theorem drawFrame_wf {s : State} (h : Memory.wf s.fb) : Memory.wf (drawFrame s).fb := by
  unfold drawFrame
  split
  · exact h
  · rename_i c _
    refine foldl_drawPixel_wf _ _ (fun p hp => ?_) h
    have := (mem_framePixels (c := c) (px := p.1) (py := p.2)).1 hp
    exact ⟨this.2.2.1, this.2.2.2.2.2⟩

end Sys2Proof.Machine
end

