-- ==== Sys2Proof/Laws/BitReader.lean ====
section
/-! SUPPORT. What the bit reader can do (40_bitreader.md): taking one bit, and reading a code, from a reader in the form
R81 gives. -/

namespace Sys2Proof.Machine

/-! ### The two byte strings -/

@[simp] theorem valueBits_length (n v : Nat) : (valueBits n v).length = n := by
  induction n generalizing v with
  | zero => rfl
  | succ n ih => simp [valueBits, ih]

theorem drop_eq_cons {l : List Byte} {p : Nat} {v : Byte} (h : l[p]? = some v) : l.drop p = v :: l.drop (p + 1) := by
  obtain ⟨hp, rfl⟩ := List.getElem?_eq_some_iff.1 h
  exact List.drop_eq_getElem_cons hp

/-- A reader in explicit form: what `readerOk` says (R20, R81). -/
theorem readerOk_iff (s : State) :
    readerOk s ↔
      addressable s ∧ ∃ p : Nat, ∃ n : BitVec 8, ∃ k : BitVec 4, ∃ buf : Option (BitVec 8),
        s.br = { pos := some p, bytesInBlock := some n, buffer := buf, bitsLeft := some k } ∧ p ≤ s.input.length ∧
          k.toNat ≤ 8 ∧ (k ≠ 0 → ∃ v, buf = some v ∧ v.toNat < 2 ^ k.toNat) := by
  constructor
  · rintro ⟨ha, p, n, k, h1, h2, h3, h4, h5, h6⟩
    refine ⟨ha, p, n, k, s.br.buffer, ?_, h4, h5, h6⟩
    cases hbr : s.br
    simp_all
  · rintro ⟨ha, p, n, k, buf, hb, h4, h5, h6⟩
    exact ⟨ha, p, n, k, by simp [hb], by simp [hb], by simp [hb], h4, h5, by simpa [hb] using h6⟩

/-- A nonzero register, less one. -/
theorem toNat_pred {w : Nat} {n : BitVec w} (hw : 0 < w) (h : n ≠ 0) : (n - 1).toNat + 1 = n.toNat := by
  have h1 : n.toNat ≠ 0 := fun h0 => h (BitVec.eq_of_toNat_eq (by simpa using h0))
  have h2 := n.isLt
  have h3 : (1 : BitVec w).toNat = 1 := by
    have : 1 < 2 ^ w := Nat.one_lt_two_pow (by omega)
    simp [Nat.mod_eq_of_lt this]
  have h4 : 1 < 2 ^ w := Nat.one_lt_two_pow (by omega)
  rw [BitVec.toNat_sub_of_le (by rw [BitVec.le_def, h3]; omega), h3]
  omega

/-- InRead on a reader in explicit form. -/
theorem inRead_explicit {s : State} {p : Nat} {n buf : Option (BitVec 8)} {k : Option (BitVec 4)} {v : Byte}
    (hb : s.br = { pos := some p, bytesInBlock := n, buffer := buf, bitsLeft := k }) (ha : addressable s)
    (hv : s.input[p]? = some v) :
    inRead s = .ok v (s.setBr { pos := some (p + 1), bytesInBlock := n, buffer := buf, bitsLeft := k }) := by
  rw [inRead_ok ha (by simp [hb]) hv, hb]

/-- DATA on a reader in explicit form (R79). -/
theorem loadData_explicit {s : State} {p : Nat} {n : BitVec 8} {buf : Option (BitVec 8)} {k : Option (BitVec 4)}
    (b : Byte) (hb : s.br = { pos := some p, bytesInBlock := some n, buffer := buf, bitsLeft := k }) :
    loadData b s =
      .ok () (s.setBr { pos := some p, bytesInBlock := some (n - 1), buffer := some b, bitsLeft := some 8 }) := by
  simp only [loadData, hb, need_some]

/-- Everything SUBBLOCK_LEN can do (R79): the new sub-block's first data byte is loaded, or IN has ended. -/
theorem loadSubblock_cases {s : State} {p : Nat} {n buf : Option (BitVec 8)} {k : Option (BitVec 4)} (b : Byte)
    (hb : s.br = { pos := some p, bytesInBlock := n, buffer := buf, bitsLeft := k }) (ha : addressable s) :
    (∃ v, s.input[p]? = some v ∧ p < s.input.length ∧
        loadSubblock b s =
          .ok () (s.setBr
            { pos := some (p + 1), bytesInBlock := some (b - 1), buffer := some v, bitsLeft := some 8 })) ∨
      (s.input.length ≤ p ∧
        loadSubblock b s =
          .raised .eof (s.setBr { pos := some p, bytesInBlock := some b, buffer := buf, bitsLeft := k })) := by
  simp only [loadSubblock, hb]
  have hb1 : (s.setBr { pos := some p, bytesInBlock := some b, buffer := buf, bitsLeft := k }).br =
      { pos := some p, bytesInBlock := some b, buffer := buf, bitsLeft := k } := rfl
  rcases inRead_cases (s := s.setBr { pos := some p, bytesInBlock := some b, buffer := buf, bitsLeft := k }) ha rfl with
    ⟨v, hv, hlt, -⟩ | ⟨hle, hr⟩
  · refine .inl ⟨v, hv, hlt, ?_⟩
    rw [inRead_explicit hb1 ha hv, Res.bind_ok, loadData_explicit v (State.setBr_br _ _)]
    rfl
  · exact .inr ⟨hle, by rw [hr, Res.bind_raised]⟩

/-- Everything BR_REFILL can do where it is called, with no bit left (R79): it loads the next data byte of the chain, or
there is none and it raises Eof or TerminatorMidStream. -/
theorem brRefill_cases {s : State} {p : Nat} {n : BitVec 8} {buf : Option (BitVec 8)} (ha : addressable s)
    (hb : s.br = { pos := some p, bytesInBlock := some n, buffer := buf, bitsLeft := some 0 }) :
    (∃ v p' n', brRefill s =
          .ok () (s.setBr { pos := some p', bytesInBlock := some n', buffer := some v, bitsLeft := some 8 }) ∧
        p < p' ∧ p' ≤ s.input.length ∧
        chainBytes n.toNat (s.input.drop p) = v :: chainBytes n'.toNat (s.input.drop p') ∧
        chainEnd n'.toNat (s.input.drop p') = chainEnd n.toNat (s.input.drop p)) ∨
      (∃ e br, brRefill s = .raised e (s.setBr br) ∧ chainBytes n.toNat (s.input.drop p) = [] ∧
        e = chainEnd n.toNat (s.input.drop p)) := by
  have hpos : s.br.pos = some p := by rw [hb]
  have hcount : s.br.bytesInBlock = some n := by rw [hb]
  simp only [brRefill, hcount, need_some]
  by_cases hn : n = 0
  · subst hn
    rw [if_pos rfl]
    rcases inRead_cases ha hpos with ⟨v, hv, hlt, -⟩ | ⟨hle, hr⟩
    · rw [inRead_explicit hb ha hv, Res.bind_ok, loadLength, drop_eq_cons hv]
      by_cases hv0 : v = 0
      · subst hv0
        exact .inr ⟨.malformed .terminatorMidStream, _, by rw [if_pos rfl], rfl, rfl⟩
      · rw [if_neg hv0]
        have hv1 : chainBytes 0 (v :: s.input.drop (p + 1)) = chainBytes v.toNat (s.input.drop (p + 1)) := by
          rw [chainBytes, if_neg hv0]
        have hv2 : chainEnd 0 (v :: s.input.drop (p + 1)) = chainEnd v.toNat (s.input.drop (p + 1)) := by
          rw [chainEnd, if_neg hv0]
        rw [show (0 : BitVec 8).toNat = 0 from rfl, hv1, hv2, ← toNat_pred (by decide) hv0]
        rcases loadSubblock_cases v (State.setBr_br s _) ha with ⟨w, hw, hlt', hr⟩ | ⟨hle', hr⟩
        · simp only [State.setBr_input] at hw hlt'
          refine .inl ⟨w, p + 2, v - 1, by rw [hr]; rfl, by omega, by omega, ?_⟩
          rw [drop_eq_cons hw]
          exact ⟨rfl, rfl⟩
        · simp only [State.setBr_input] at hle'
          exact .inr ⟨_, _, by rw [hr]; rfl, by rw [List.drop_eq_nil_of_le hle', chainBytes],
            by rw [List.drop_eq_nil_of_le hle', chainEnd]⟩
    · exact .inr ⟨.eof, s.br, by rw [hr]; rfl, by rw [List.drop_eq_nil_of_le hle, chainBytes],
        by rw [List.drop_eq_nil_of_le hle, chainEnd]⟩
  · rw [if_neg hn, ← toNat_pred (by decide) hn]
    rcases inRead_cases ha hpos with ⟨v, hv, hlt, -⟩ | ⟨hle, hr⟩
    · rw [inRead_explicit hb ha hv, Res.bind_ok, loadData_explicit v (State.setBr_br _ _), drop_eq_cons hv]
      exact .inl ⟨v, p + 1, n - 1, rfl, by omega, by omega, rfl, rfl⟩
    · exact .inr ⟨.eof, s.br, by rw [hr]; rfl, by rw [List.drop_eq_nil_of_le hle, chainBytes],
        by rw [List.drop_eq_nil_of_le hle, chainEnd]⟩

/-- A chain ends in Eof or in a terminator met in mid-stream, never in another error (R149). -/
theorem chainEnd_cases (n : Nat) (l : List Byte) : chainEnd n l = .eof ∨ chainEnd n l = .malformed .terminatorMidStream := by
  induction l generalizing n with
  | nil => exact .inl (by cases n <;> rfl)
  | cons b l ih =>
    cases n with
    | zero =>
      by_cases hb : b = 0
      · exact .inr (by rw [chainEnd, if_pos hb])
      · rw [chainEnd, if_neg hb]
        exact ih _
    | succ n => exact ih n

theorem streamEnd_cases (s : State) : streamEnd s = .eof ∨ streamEnd s = .malformed .terminatorMidStream := by
  unfold streamEnd
  split
  · exact chainEnd_cases _ _
  · exact .inl rfl

/-- The stream of a reader in explicit form. -/
theorem streamBits_eq {s : State} {p : Nat} {n : BitVec 8} {k : BitVec 4} {buf : Option (BitVec 8)}
    (hb : s.br = { pos := some p, bytesInBlock := some n, buffer := buf, bitsLeft := some k }) :
    streamBits s =
      valueBits k.toNat (buf.getD 0).toNat ++
        (chainBytes n.toNat (s.input.drop p)).flatMap (fun b => valueBits 8 b.toNat) := by
  simp [streamBits, hb]

/-- Taking one bit from a buffer that holds bits (R78). -/
theorem takeBit_buffered {s : State} {p : Nat} {n : BitVec 8} {k : BitVec 4} {v : BitVec 8}
    (hb : s.br = { pos := some p, bytesInBlock := some n, buffer := some v, bitsLeft := some k }) (hk : k ≠ 0) :
    takeBit s =
      .ok (v.getLsbD 0)
        (s.setBr { pos := some p, bytesInBlock := some n, buffer := some (v >>> 1), bitsLeft := some (k - 1) }) := by
  simp only [takeBit, hb, need_some, if_neg hk, Res.bind_ok]

/-- Taking one bit from a buffer that holds bits: the reader keeps its form, the stream loses its first bit and one bit
less lies ahead. -/
theorem takeBit_buffered_spec {s : State} {p : Nat} {n : BitVec 8} {k : BitVec 4} {v : BitVec 8}
    (hb : s.br = { pos := some p, bytesInBlock := some n, buffer := some v, bitsLeft := some k })
    (ha : addressable s) (hp : p ≤ s.input.length) (hk : k ≠ 0) (hk8 : k.toNat ≤ 8) (hv : v.toNat < 2 ^ k.toNat) :
    ∃ br, takeBit s = .ok (v.getLsbD 0) (s.setBr br) ∧ readerOk (s.setBr br) ∧
      streamBits s = v.getLsbD 0 :: streamBits (s.setBr br) ∧ bitsAhead (s.setBr br) + 1 = bitsAhead s ∧
      streamEnd (s.setBr br) = streamEnd s := by
  obtain ⟨j, hsub⟩ : ∃ j, (k - 1).toNat = j := ⟨_, rfl⟩
  have hj : k.toNat = j + 1 := by rw [← hsub, toNat_pred (by decide) hk]
  refine ⟨_, takeBit_buffered hb hk, ?_, ?_, ?_, by simp [streamEnd, hb]⟩
  · refine (readerOk_iff _).2 ⟨ha, p, n, k - 1, some (v >>> 1), rfl, hp, by omega, fun _ => ⟨_, rfl, ?_⟩⟩
    rw [hsub, BitVec.toNat_ushiftRight, Nat.shiftRight_eq_div_pow]
    rw [hj, Nat.pow_succ] at hv
    omega
  · rw [streamBits_eq hb, streamBits_eq (s := s.setBr _) rfl, hsub, hj]
    simp only [Option.getD_some, valueBits, List.cons_append, State.setBr_input, BitVec.toNat_ushiftRight,
      Nat.shiftRight_eq_div_pow, pow_one, List.cons.injEq, and_true]
    rw [BitVec.getLsbD, Nat.testBit_zero]
    by_cases h2 : v.toNat % 2 = 1 <;> simp [h2]
  · simp only [bitsAhead, State.setBr_input, State.setBr_br, hb, Option.getD_some]
    omega

/-- Everything taking one bit can do: the first bit of the stream is taken, or the stream is at its end. -/
theorem takeBit_cases {s : State} (h : readerOk s) :
    (∃ b br, takeBit s = .ok b (s.setBr br) ∧ readerOk (s.setBr br) ∧
        streamBits s = b :: streamBits (s.setBr br) ∧ bitsAhead (s.setBr br) + 1 ≤ bitsAhead s ∧
        streamEnd (s.setBr br) = streamEnd s) ∨
      (∃ br, takeBit s = .raised (streamEnd s) (s.setBr br) ∧ streamBits s = []) := by
  obtain ⟨ha, p, n, k, buf, hb, hp, hk8, hbuf⟩ := (readerOk_iff s).1 h
  by_cases hk : k = 0
  · subst hk
    have h0 : s.br.bitsLeft = some 0 := by rw [hb]
    rcases brRefill_cases ha hb with ⟨v, p', n', hr, hlt, hle, hc, hce⟩ | ⟨e, br, hr, hc, he⟩
    · left
      -- after the refill one bit is taken from a full buffer
      obtain ⟨br, h1, h2, h3, h4, h5⟩ :=
        takeBit_buffered_spec (n := n') (State.setBr_br s _) ha hle (by decide : (8 : BitVec 4) ≠ 0) (by decide)
          (by simpa using v.isLt)
      rw [State.setBr_setBr] at h1 h2 h3 h4 h5
      refine ⟨v.getLsbD 0, br, ?_, h2, ?_, ?_, h5.trans ?_⟩
      · rw [← h1]
        simp only [takeBit, h0, need_some, if_pos, hr, Res.bind_ok, State.setBr_br]
        rfl
      · rw [← h3, streamBits_eq hb, streamBits_eq (s := s.setBr _) rfl, hc]
        simp [valueBits]
      · rw [h4]
        simp only [bitsAhead, State.setBr_input, State.setBr_br, hb, Option.getD_some]
        have h8 : (8 : BitVec 4).toNat = 8 := by decide
        have h00 : (0 : BitVec 4).toNat = 0 := by decide
        omega
      · simp only [streamEnd, State.setBr_br, State.setBr_input, hb, hce]
    · right
      refine ⟨br, ?_, ?_⟩
      · simp only [takeBit, need_some, if_pos, hr, Res.bind_raised, he, streamEnd, hb]
      · rw [streamBits_eq hb, hc]
        simp [valueBits]
  · left
    obtain ⟨v, rfl, hv⟩ := hbuf hk
    obtain ⟨br, h1, h2, h3, h4, h5⟩ := takeBit_buffered_spec hb ha hp hk hk8 hv
    exact ⟨_, br, h1, h2, h3, h4.le, h5⟩

/-- The next bit of the result: bit `i` of a number below `2 ^ i` is set to it. -/
theorem or_bit_toNat {r : Code} {i : Nat} (b : Bool) (hi : i < 12) (hr : r.toNat < 2 ^ i) :
    (r ||| (BitVec.ofBool b).zeroExtend 12 <<< i).toNat = r.toNat + 2 ^ i * b.toNat := by
  have h12 : (2 : Nat) ^ i * 2 ≤ 2 ^ 12 := by
    rw [← Nat.pow_succ]
    exact Nat.pow_le_pow_right (by decide) hi
  have hb : ((BitVec.ofBool b).zeroExtend 12 <<< i).toNat = 2 ^ i * b.toNat := by
    have hb1 : b.toNat ≤ 1 := b.toNat_le
    have hm : 2 ^ i * b.toNat < 2 ^ 12 := by
      have := Nat.mul_le_mul_left (2 ^ i) hb1
      have hp : 0 < 2 ^ i := Nat.two_pow_pos i
      omega
    rw [BitVec.toNat_shiftLeft, Nat.shiftLeft_eq]
    simp only [BitVec.truncate_eq_setWidth, BitVec.toNat_setWidth, BitVec.toNat_ofBool]
    rw [Nat.mod_eq_of_lt (a := b.toNat) (by omega), Nat.mul_comm, Nat.mod_eq_of_lt hm]
  rw [BitVec.toNat_or, hb, Nat.or_comm, ← Nat.two_pow_add_eq_or_of_lt hr]
  omega

/-- Everything BR_READBITS' loop can do: the next `n` bits of the stream, or the stream ends before them. -/
theorem readBitsFrom_cases {n i : Nat} {r : Code} {s : State} (h : readerOk s) (hi : i + n ≤ 12)
    (hr : r.toNat < 2 ^ i) :
    (∃ c br, readBitsFrom n i r s = .ok c (s.setBr br) ∧ readerOk (s.setBr br) ∧ n ≤ (streamBits s).length ∧
        streamBits (s.setBr br) = (streamBits s).drop n ∧
        c.toNat = r.toNat + 2 ^ i * bitsValue ((streamBits s).take n) ∧ c.toNat < 2 ^ (i + n) ∧
        bitsAhead (s.setBr br) + n ≤ bitsAhead s) ∨
      (∃ br, readBitsFrom n i r s = .raised (streamEnd s) (s.setBr br) ∧ (streamBits s).length < n) := by
  induction n generalizing i r s with
  | zero =>
    refine .inl ⟨r, s.br, rfl, h, by omega, rfl, by simp [bitsValue], by simpa using hr, ?_⟩
    exact le_of_eq rfl
  | succ n ih =>
    rcases takeBit_cases h with ⟨b, br, ht, hok, hs, ha, he⟩ | ⟨br, ht, hs⟩
    · have hn := or_bit_toNat b (i := i) (by omega) hr
      have hlt : (r ||| (BitVec.ofBool b).zeroExtend 12 <<< i).toNat < 2 ^ (i + 1) := by
        have := Nat.mul_le_mul_left (2 ^ i) b.toNat_le
        rw [hn, Nat.pow_succ]
        omega
      rcases ih (i := i + 1) hok (by omega) hlt with ⟨c, br', h1, h2, h3, h4, h5, h6, h7⟩ | ⟨br', h1, h2⟩
      · refine .inl ⟨c, br', ?_, h2, ?_, ?_, ?_, ?_, ?_⟩
        · simp only [readBitsFrom, ht, Res.bind_ok, h1]
          rfl
        · rw [hs]
          simpa using h3
        · rw [hs]
          exact h4
        · rw [h5, hn, hs, List.take_succ_cons, bitsValue, Nat.pow_succ]
          ring
        · rw [show i + (n + 1) = i + 1 + n by omega]
          exact h6
        · have : (s.setBr br).setBr br' = s.setBr br' := rfl
          rw [this] at h7
          omega
      · refine .inr ⟨br', ?_, ?_⟩
        · simp only [readBitsFrom, ht, Res.bind_ok, h1, he]
          rfl
        · rw [hs]
          simpa using h2
    · refine .inr ⟨br, ?_, by simp [hs]⟩
      simp [readBitsFrom, ht]

/-- Everything BR_READBITS(n) can do for a width the decoder passes (R78): the value of the next `n` stream bits, or the
chain ends before them. -/
theorem readBits_cases {n : Nat} {s : State} (h : readerOk s) (h0 : 1 ≤ n) (h12 : n ≤ 12) :
    (∃ c br, readBits n s = .ok c (s.setBr br) ∧ readerOk (s.setBr br) ∧ n ≤ (streamBits s).length ∧
        streamBits (s.setBr br) = (streamBits s).drop n ∧ c.toNat = bitsValue ((streamBits s).take n) ∧
        c.toNat < 2 ^ n ∧ bitsAhead (s.setBr br) + n ≤ bitsAhead s) ∨
      (∃ br, readBits n s = .raised (streamEnd s) (s.setBr br) ∧ (streamBits s).length < n) := by
  have hw : ¬ (n = 0 ∨ Config.maxCodeWidth < n) := by
    simp only [Config.maxCodeWidth]
    omega
  have := readBitsFrom_cases (n := n) (i := 0) (r := 0) h (by omega) (by simp)
  simpa [readBits, hw] using this

end Sys2Proof.Machine
end

