-- ==== Sys2Proof/Laws/Dictionary.lean ====
section
/-! SUPPORT. What the dictionary operations do to a dictionary in the form R22, R23 and R25 give (41_dictionary.md). -/

namespace Sys2Proof.Machine

/-! ### Code widths -/

theorem bitlen_le_iff (v k : Nat) : bitlen v ≤ k ↔ v < 2 ^ k := by
  unfold bitlen
  split
  · subst_vars
    simp
  · rw [Nat.succ_le_iff, Nat.log2_lt (by assumption)]

theorem lt_two_pow_bitlen (v : Nat) : v < 2 ^ bitlen v := (bitlen_le_iff v _).1 le_rfl

/-- One more makes a number longer exactly at a power of two. -/
theorem bitlen_succ (v : Nat) : bitlen (v + 1) = if v + 1 = 2 ^ bitlen v then bitlen v + 1 else bitlen v := by
  have h1 := lt_two_pow_bitlen v
  have h2 : bitlen v ≤ bitlen (v + 1) := (bitlen_le_iff _ _).2 (lt_trans (Nat.lt_succ_self v) (lt_two_pow_bitlen _))
  split
  · rename_i h
    refine le_antisymm ((bitlen_le_iff _ _).2 ?_) ?_
    · rw [Nat.pow_succ, h]
      have := Nat.two_pow_pos (bitlen v)
      omega
    · by_contra hc
      have := (bitlen_le_iff (v + 1) (bitlen v)).1 (by omega)
      omega
  · exact le_antisymm ((bitlen_le_iff _ _).2 (by omega)) h2

/-- Past the reserved codes the growth rule alone sets the width (R23). -/
theorem widthFor_eq {m ci : Nat} (h : 2 ^ m + 2 ≤ ci) : widthFor m ci = min 12 (bitlen ci) := by
  have : m + 1 ≤ bitlen ci := by
    by_contra hc
    have := (bitlen_le_iff ci m).1 (by omega)
    omega
  rw [widthFor, Nat.max_eq_right this]

/-- The width after an add, by the growth test of R89. -/
theorem widthFor_succ {m ci : Nat} (h : 2 ^ m + 2 ≤ ci) (h4 : ci < 4096) :
    widthFor m (ci + 1) =
      if ci = 2 ^ widthFor m ci - 1 ∧ widthFor m ci < 12 then widthFor m ci + 1 else widthFor m ci := by
  have hb : bitlen ci ≤ 12 := (bitlen_le_iff _ _).2 h4
  have hp := Nat.two_pow_pos (bitlen ci)
  have hw : widthFor m ci = bitlen ci := by rw [widthFor_eq h, Nat.min_eq_right hb]
  rw [hw, widthFor_eq (by omega), bitlen_succ]
  by_cases h1 : ci + 1 = 2 ^ bitlen ci
  · rw [if_pos h1]
    by_cases h2 : bitlen ci < 12
    · rw [if_pos ⟨by omega, h2⟩]
      omega
    · rw [if_neg fun h => h2 h.2]
      omega
  · rw [if_neg h1, if_neg fun h => h1 (by omega)]
    omega

theorem widthFor_bounds {m : Nat} (ci : Nat) (h2 : 2 ≤ m) (h8 : m ≤ 8) : 3 ≤ widthFor m ci ∧ widthFor m ci ≤ 12 := by
  unfold widthFor
  omega

/-- The width just after a reset (30_encoding.md R70). -/
theorem widthFor_reset {m : Nat} (h2 : 2 ≤ m) (h8 : m ≤ 8) : widthFor m (2 ^ m + 2) = m + 1 := by
  interval_cases m <;> decide

theorem two_pow_le_256 {m : Nat} (h8 : m ≤ 8) : 2 ^ m ≤ 256 := Nat.pow_le_pow_right (by decide) h8

theorem four_le_two_pow {m : Nat} (h2 : 2 ≤ m) : 4 ≤ 2 ^ m := Nat.pow_le_pow_right (n := 2) (by decide) h2

theorem ofNat_toNat_of_lt {w v : Nat} (h : v < 2 ^ w) : (BitVec.ofNat w v).toNat = v := by
  rw [BitVec.toNat_ofNat, Nat.mod_eq_of_lt h]

theorem thresholdOf_toNat {w : Nat} (h : w ≤ 12) : (thresholdOf w).toNat = 2 ^ w - 1 := by
  have h1 : 2 ^ w ≤ 2 ^ 12 := Nat.pow_le_pow_right (by decide) h
  have h2 := Nat.two_pow_pos w
  exact ofNat_toNat_of_lt (by omega)

/-! ### PREFIX values -/

theorem linkOfCode_eq (c : Code) : linkOfCode c = BitVec.ofNat 13 c.toNat := by
  apply BitVec.eq_of_toNat_eq
  have := c.isLt
  simp [linkOfCode]

theorem linkIndex_ofNat {i : Nat} (h : i < 4096) : linkIndex (BitVec.ofNat 13 i) = some i := by
  have h1 : (BitVec.ofNat 13 i).toNat = i := ofNat_toNat_of_lt (by omega)
  have h2 : (BitVec.ofNat 13 i).msb = false := by
    rw [BitVec.msb_eq_false_iff_two_mul_lt, h1]
    omega
  rw [linkIndex, h2, h1]
  rfl

theorem ofNat_ne_marker {i : Nat} (h : i < 4096) : (BitVec.ofNat 13 i : Link) ≠ -1 := by
  intro h1
  have h2 := congrArg BitVec.toNat h1
  rw [ofNat_toNat_of_lt (by omega)] at h2
  have : (-1 : Link).toNat = 8191 := by decide
  omega

/-! ### What a live entry holds -/

/-- A live index lies below the next free slot. -/
theorem live_lt {m ci i : Nat} {d : Dict} (hd : dictOk m ci d) (h : live m ci i) : i < ci := by
  obtain ⟨-, -, h3, -⟩ := hd
  rcases h with h | h <;> omega

/-- A live entry's length (R25, R96, R97). -/
theorem live_length {m ci i : Nat} {d : Dict} (hd : dictOk m ci d) (h : live m ci i) :
    ∃ n, storeGet d.lens i = some (BitVec.ofNat 13 n) ∧ 1 ≤ n ∧ n ≤ 4091 ∧ (i < 2 ^ m → n = 1) ∧
      (2 ^ m + 1 < i → n ≤ i - 2 ^ m) := by
  have hlt := live_lt hd h
  obtain ⟨h2, h8, h3, h4, -, -, he⟩ := hd
  have hm := four_le_two_pow h2
  rcases he i h with ⟨hi, -, -, hl⟩ | ⟨hi, p, b, n, -, -, -, h1, hn, -, -, -, hl⟩
  · exact ⟨1, hl, le_rfl, by omega, fun _ => rfl, by omega⟩
  · exact ⟨n + 1, hl, by omega, by omega, by omega, fun _ => hn⟩

/-- The registers of a dictionary, as numbers. -/
theorem dictOk_currentIndex {m ci : Nat} {d : Dict} (hd : dictOk m ci d) : (BitVec.ofNat 13 ci).toNat = ci :=
  ofNat_toNat_of_lt (by obtain ⟨-, -, -, h4, -⟩ := hd; omega)

/-- DICT_RESET (R88) leaves a dictionary at the size of R70; entries stay as they are. -/
theorem resetRegisters_ok {m ci : Nat} {d : Dict} (hd : dictOk m ci d) :
    dictOk m (2 ^ m + 2) (resetRegisters (BitVec.ofNat 4 m) d) := by
  obtain ⟨h2, h8, h3, h4, hr, hu, he⟩ := hd
  have hp := two_pow_le_256 h8
  have hm : (BitVec.ofNat 4 m).toNat = m := ofNat_toNat_of_lt (by omega)
  refine ⟨h2, h8, le_rfl, by omega, ⟨hr.1, ?_⟩, hu, fun i hi => ?_⟩
  · simp [resetRegisters, hm, widthFor_reset h2 h8]
  · have hi' : i < 2 ^ m := by
      rcases hi with hi | hi <;> omega
    rcases he i (.inl hi') with h | ⟨h, -⟩
    · exact .inl h
    · omega

/-- DICT_RESET answers, and changes the dictionary's registers only (R88). -/
theorem dictReset_ok {m ci : Nat} {s : State} (hd : dictOk m ci s.dict) :
    dictReset s = .ok () (s.setDict (resetRegisters (BitVec.ofNat 4 m) s.dict)) := by
  obtain ⟨-, -, -, -, hr, -⟩ := hd
  simp [dictReset, hr.1]

/-- The atomic entries that DICT_INIT has written (R87). -/
theorem writeAtomic_entries (n : Nat) (d : Dict) (i : Nat) :
    (storeGet (writeAtomic n d).links i = if i < n then some (-1) else storeGet d.links i) ∧
      (storeGet (writeAtomic n d).bytes i = if i < n then some (BitVec.ofNat 8 i) else storeGet d.bytes i) ∧
        (storeGet (writeAtomic n d).lens i = if i < n then some 1 else storeGet d.lens i) := by
  induction n with
  | zero => simp [writeAtomic]
  | succ n ih =>
    obtain ⟨h1, h2, h3⟩ := ih
    simp only [writeAtomic, writeEntry, storeGet_storeSet, h1, h2, h3]
    by_cases hi : i = n
    · subst hi
      simp
    · have : i < n + 1 ↔ i < n := by omega
      simp [hi, this]

theorem writeAtomic_registers (n : Nat) (d : Dict) :
    (writeAtomic n d).minCodeSize = d.minCodeSize ∧ (writeAtomic n d).codeLength = d.codeLength ∧
      (writeAtomic n d).clearCode = d.clearCode ∧ (writeAtomic n d).eoiCode = d.eoiCode ∧
      (writeAtomic n d).currentIndex = d.currentIndex ∧ (writeAtomic n d).maxCode = d.maxCode := by
  induction n with
  | zero => simp [writeAtomic]
  | succ n ih => simpa [writeAtomic, writeEntry] using ih

/-- DICT_INIT (R87) on a released dictionary. -/
theorem dictInit_ok {m : Nat} (h2 : 2 ≤ m) (h8 : m ≤ 8) {s : State} (hs : s.dict = Dict.released) :
    ∃ d, dictInit (BitVec.ofNat 4 m) s = .ok () (s.setDict d) ∧ dictOk m (2 ^ m + 2) d := by
  have hm : (BitVec.ofNat 4 m).toNat = m := ofNat_toNat_of_lt (by omega)
  have hp := two_pow_le_256 h8
  have hreg := writeAtomic_registers (2 ^ m) { s.dict with minCodeSize := some (BitVec.ofNat 4 m) }
  refine ⟨resetRegisters (BitVec.ofNat 4 m)
    (writeAtomic (2 ^ m) { s.dict with minCodeSize := some (BitVec.ofNat 4 m) }), ?_, ?_⟩
  · simp only [dictInit, hm, dictReset, State.setDict_dict, hreg.1, need_some, State.setDict_setDict]
  · have he := writeAtomic_entries (2 ^ m) { s.dict with minCodeSize := some (BitVec.ofNat 4 m) }
    refine ⟨h2, h8, le_rfl, by omega, ⟨?_, ?_⟩, fun i hi => ?_, fun i hi => .inl ?_⟩
    · simp [resetRegisters, hreg.1]
    · simp [resetRegisters, hm, widthFor_reset h2 h8]
    · have : ¬ i < 2 ^ m := by omega
      obtain ⟨e1, e2, e3⟩ := he i
      simp only [this, if_false] at e1 e2 e3
      exact ⟨by simpa [resetRegisters, hs, Dict.released] using e1, by simpa [resetRegisters, hs, Dict.released] using e2,
        by simpa [resetRegisters, hs, Dict.released] using e3⟩
    · have hi' : i < 2 ^ m := by
        rcases hi with hi | hi <;> omega
      obtain ⟨e1, e2, e3⟩ := he i
      simp only [hi', if_true] at e1 e2 e3
      exact ⟨hi', e1, e2, e3⟩

/-! ### DICT_ADD -/

/-- The dictionary an add leaves when the next free slot is `ci` and the prefix's length is `n` (R89). -/
def addedDict (m ci p : Nat) (b : Byte) (n : Nat) (d : Dict) : Dict :=
  { writeEntry ci (BitVec.ofNat 13 p) b (BitVec.ofNat 13 (n + 1)) d with
    codeLength := some (BitVec.ofNat 4 (widthFor m (ci + 1)))
    maxCode := some (thresholdOf (widthFor m (ci + 1)))
    currentIndex := some (BitVec.ofNat 13 (ci + 1)) }

/-- The growth test on a dictionary in form, and the registers it leaves (R89, R93). -/
theorem grow_eq {m ci : Nat} {d : Dict} (hd : dictOk m ci d) (h4 : ci < 4096) :
    grow (BitVec.ofNat 13 ci) (thresholdOf (widthFor m ci)) (BitVec.ofNat 4 (widthFor m ci)) d =
      { d with
        codeLength := some (BitVec.ofNat 4 (widthFor m (ci + 1)))
        maxCode := some (thresholdOf (widthFor m (ci + 1))) } := by
  have hci := dictOk_currentIndex hd
  obtain ⟨h2, h8, h3, -, ⟨-, hw, -, -, -, hx⟩, -⟩ := hd
  obtain ⟨hw3, hw12⟩ := widthFor_bounds ci h2 h8
  have hwn : (BitVec.ofNat 4 (widthFor m ci)).toNat = widthFor m ci := ofNat_toNat_of_lt (by omega)
  have hg : growthDue (BitVec.ofNat 13 ci) (thresholdOf (widthFor m ci)) (BitVec.ofNat 4 (widthFor m ci)) = true ↔
      (ci = 2 ^ widthFor m ci - 1 ∧ widthFor m ci < 12) := by
    simp only [growthDue, Config.maxCodeWidth, hci, hwn, thresholdOf_toNat hw12, Bool.and_eq_true, decide_eq_true_eq]
  unfold grow
  rw [widthFor_succ h3 h4]
  split
  · rename_i h
    rw [if_pos (hg.1 h), hwn]
    congr 2
    apply BitVec.eq_of_toNat_eq
    simp
  · rename_i h
    rw [if_neg fun h' => h (hg.2 h'), ← hw, ← hx]

/-- An add to a dictionary that is not frozen: it stores slot `ci` and answers it (R89). -/
theorem dictAdd_ok {m ci n : Nat} {s : State} {o : Code} (b : Byte) (hd : dictOk m ci s.dict) (h4 : ci < 4096)
    (hn : storeGet s.dict.lens o.toNat = some (BitVec.ofNat 13 n)) (hn4 : n < 4096) :
    dictAdd (linkOfCode o) b s = .ok (some ci) (s.setDict (addedDict m ci o.toNat b n s.dict)) := by
  have hci := dictOk_currentIndex hd
  have hg := grow_eq hd h4
  obtain ⟨h2, h8, h3, -, ⟨hm, hw, hc, he, hi, hx⟩, -⟩ := hd
  have hlink : linkIndex (BitVec.ofNat 13 o.toNat) = some o.toNat := linkIndex_ofNat o.isLt
  have hnn : (BitVec.ofNat 13 n).toNat = n := ofNat_toNat_of_lt (by omega)
  simp only [dictAdd, hi, hx, hw, need_some, hci, Config.dictCap, h4, if_true, linkOfCode_eq, prefixLength, hlink,
    lengthAt, hg, State.setDict_dict, hn, Res.bind_ok, hnn, State.setDict_setDict]
  congr 3
  refine congrArg some (BitVec.eq_of_toNat_eq ?_)
  simp

/-- An add to a frozen dictionary stores nothing and changes no register (R90). -/
theorem dictAdd_frozen {m : Nat} {s : State} (p : Link) (b : Byte) (hd : dictOk m 4096 s.dict) :
    dictAdd p b s = .ok none s := by
  obtain ⟨h2, h8, h3, -, ⟨hm, hw, hc, he, hi, hx⟩, -⟩ := hd
  have hw12 : widthFor m 4096 = 12 := by
    rw [widthFor_eq h3]
    decide
  rw [hw12] at hw hx
  have hg : grow (BitVec.ofNat 13 4096) (thresholdOf 12) (BitVec.ofNat 4 12) s.dict = s.dict := by
    have : growthDue (BitVec.ofNat 13 4096) (thresholdOf 12) (BitVec.ofNat 4 12) = false := by decide
    simp only [grow, this, Bool.false_eq_true, if_false]
  have hn : ¬ (BitVec.ofNat 13 4096).toNat < Config.dictCap := by decide
  simp only [dictAdd, hi, hx, hw, need_some, hg, if_neg hn]
  rfl

/-- What an add leaves is a dictionary in form, one slot larger (R25, R89, R97). -/
theorem addedDict_ok {m ci n p : Nat} {d : Dict} {b : Byte} (hd : dictOk m ci d) (h4 : ci < 4096)
    (hp : live m ci p) (hn : storeGet d.lens p = some (BitVec.ofNat 13 n)) (hn1 : 1 ≤ n)
    (hn2 : n + 1 ≤ ci - 2 ^ m) (hb : b.toNat < 2 ^ m) : dictOk m (ci + 1) (addedDict m ci p b n d) := by
  have hlt := live_lt hd hp
  obtain ⟨h2, h8, h3, -, ⟨hm, hw, hc, he, hi, hx⟩, hu, hent⟩ := hd
  refine ⟨h2, h8, by omega, by omega, ⟨hm, rfl, hc, he, rfl, rfl⟩, fun i hi => ?_, fun i hi => ?_⟩
  · obtain ⟨u1, u2, u3⟩ := hu i hi
    have hne : i ≠ ci := by omega
    simp [addedDict, writeEntry, storeGet_storeSet, hne, u1, u2, u3]
  · by_cases hic : i = ci
    · subst hic
      refine .inr ⟨by omega, p, b, n, ?_, hlt, hb, hn1, hn2, ?_, ?_, ?_, ?_⟩
      · exact hp.imp_right fun h => ⟨h.1, by omega⟩
      all_goals simp [addedDict, writeEntry, storeGet_storeSet, hlt.ne, hn]
    · have hold : live m ci i := hi.imp_right fun h => ⟨h.1, by omega⟩
      rcases hent i hold with ⟨e0, e1, e2, e3⟩ | ⟨e0, q, c, k, e1, e2, e3, e4, e5, e6, e7, e8, e9⟩
      · refine .inl ⟨e0, ?_, ?_, ?_⟩ <;> simpa [addedDict, writeEntry, storeGet_storeSet, hic]
      · have hqc : q ≠ ci := by
          rcases hi with h | h <;> omega
        refine .inr ⟨e0, q, c, k, e1.imp_right fun h => ⟨h.1, by omega⟩, e2, e3, e4, e5, ?_, ?_, ?_, ?_⟩ <;>
          simpa [addedDict, writeEntry, storeGet_storeSet, hic, hqc]

/-! ### Strings -/

/-- The string of a live entry: the walk ends, the length is LEN's, the first byte is below clearCode (R91, R96). -/
theorem entryString_ok {m ci : Nat} {d : Dict} (hd : dictOk m ci d) (i : Nat) (h : live m ci i) (fuel : Nat)
    (hf : i < fuel) :
    ∃ bs b n, entryString fuel d i = some (b :: bs) ∧ storeGet d.lens i = some (BitVec.ofNat 13 n) ∧
      n ≤ 4091 ∧ (b :: bs).length = n ∧ (b : Byte).toNat < 2 ^ m ∧ ∀ x ∈ bs, (x : Byte).toNat < 2 ^ m := by
  have hp := two_pow_le_256 hd.2.1
  have hlen := fun {j} (hj : live m ci j) => live_length hd hj
  have hlt := fun {j} (hj : live m ci j) => live_lt hd hj
  have hci : ci ≤ 4096 := hd.2.2.2.1
  obtain ⟨-, -, -, -, -, -, he⟩ := hd
  induction i using Nat.strong_induction_on generalizing fuel with
  | _ i ih =>
    obtain ⟨f, rfl⟩ : ∃ f, fuel = f + 1 := ⟨fuel - 1, by omega⟩
    rcases he i h with ⟨e0, e1, e2, e3⟩ | ⟨e0, p, c, k, e1, e2, e3, e4, e5, e6, e7, e8, e9⟩
    · refine ⟨[], BitVec.ofNat 8 i, 1, ?_, e3, by omega, rfl, ?_, by simp⟩
      · simp [entryString, e1, e2]
      · rw [ofNat_toNat_of_lt (by omega)]
        exact e0
    · have hp4 : p < 4096 := lt_of_lt_of_le (hlt e1) hci
      obtain ⟨bs, b, n, i1, i2, i3, i4, i5, i6⟩ := ih p e2 e1 f (by omega)
      have hkn : n = k := by
        rw [i2] at e8
        have := congrArg BitVec.toNat (Option.some.inj e8)
        obtain ⟨n', hn', hn1, hn2, -⟩ := hlen h
        rw [e9] at hn'
        have h3 := congrArg BitVec.toNat (Option.some.inj hn')
        have hk : k < 4096 := by
          have := hlt h
          omega
        rw [ofNat_toNat_of_lt (by omega), ofNat_toNat_of_lt (by omega)] at this
        exact this
      subst hkn
      obtain ⟨n', hn', hn1, hn2, -⟩ := hlen h
      have h3 := congrArg BitVec.toNat (Option.some.inj (e9.symm.trans hn'))
      rw [ofNat_toNat_of_lt (by omega), ofNat_toNat_of_lt (by omega)] at h3
      refine ⟨bs ++ [c], b, n + 1, ?_, e9, by omega, ?_, i5, ?_⟩
      · simp only [entryString, e6, e7, if_neg (ofNat_ne_marker hp4), linkIndex_ofNat hp4, i1, Option.map_some,
          List.cons_append]
      · simp only [List.length_cons, List.length_append, List.length_nil] at i4 ⊢
        omega
      · intro x hx
        rcases List.mem_append.1 hx with hx | hx
        · exact i6 x hx
        · rw [List.mem_singleton.1 hx]
          exact e3

/-- DICT_FIRSTBYTE's walk gives the first byte of the string (R91). -/
theorem firstByteWalk_ok {m ci : Nat} {s : State} (hd : dictOk m ci s.dict) (i : Nat) (h : live m ci i) (fuel : Nat)
    (hf : i < fuel) {b : Byte} {bs : List Byte} {f : Nat} (hstr : entryString f s.dict i = some (b :: bs)) :
    firstByteWalk fuel i s = .ok b s := by
  have hlt := fun {j} (hj : live m ci j) => live_lt hd hj
  have hci : ci ≤ 4096 := hd.2.2.2.1
  obtain ⟨-, -, -, -, -, -, he⟩ := hd
  induction i using Nat.strong_induction_on generalizing fuel f b bs with
  | _ i ih =>
    obtain ⟨g, rfl⟩ : ∃ g, fuel = g + 1 := ⟨fuel - 1, by omega⟩
    cases f with
    | zero => simp [entryString] at hstr
    | succ f =>
      rcases he i h with ⟨e0, e1, e2, e3⟩ | ⟨e0, p, c, k, e1, e2, e3, e4, e5, e6, e7, e8, e9⟩
      · simp only [entryString, e1, e2, if_true, Option.some.injEq, List.cons.injEq] at hstr
        simp [firstByteWalk, linkAt, e1, byteAt, e2, hstr.1]
      · have hp4 : p < 4096 := lt_of_lt_of_le (hlt e1) hci
        simp only [entryString, e6, e7, ofNat_ne_marker hp4, if_false, linkIndex_ofNat hp4, Option.map_eq_some_iff]
          at hstr
        obtain ⟨str, hs, hstr⟩ := hstr
        cases str with
        | nil =>
          exfalso
          cases f with
          | zero => simp [entryString] at hs
          | succ f =>
            simp only [entryString] at hs
            split at hs
            · split at hs
              · simp at hs
              · split at hs
                · simp only [Option.map_eq_some_iff] at hs
                  obtain ⟨_, -, hs⟩ := hs
                  simp at hs
                · simp at hs
            · simp at hs
        | cons b' bs' =>
          simp only [List.cons_append, List.cons.injEq] at hstr
          have := ih p e2 e1 g (by omega) (hstr.1 ▸ hs)
          simp only [firstByteWalk, linkAt, e6, Res.bind_ok, if_neg (ofNat_ne_marker hp4), linkIndex_ofNat hp4, this]

/-- DICT_FIRSTBYTE of a live entry: its string's first byte, below clearCode (R91). -/
theorem firstByte_ok {m ci i : Nat} {s : State} (hd : dictOk m ci s.dict) (h : live m ci i) :
    ∃ b bs, firstByte i s = .ok b s ∧ entryString 4096 s.dict i = some (b :: bs) ∧ b.toNat < 2 ^ m := by
  have hi : i < 4096 := lt_of_lt_of_le (live_lt hd h) hd.2.2.2.1
  obtain ⟨bs, b, n, h1, -, -, -, h5, -⟩ := entryString_ok hd i h 4096 hi
  exact ⟨b, bs, firstByteWalk_ok hd i h 4096 hi h1, h1, h5⟩

/-- The string of an atomic entry is its own index (R25). -/
theorem atomic_string {m ci i : Nat} {d : Dict} (hd : dictOk m ci d) (h : i < 2 ^ m) :
    entryString 4096 d i = some [BitVec.ofNat 8 i] := by
  rcases hd.2.2.2.2.2.2 i (.inl h) with ⟨e0, e1, e2, e3⟩ | ⟨e0, -⟩
  · simp [entryString, e1, e2]
  · omega

/-- No entry's string is empty. -/
theorem entryString_ne_nil {f i : Nat} {d : Dict} : entryString f d i ≠ some [] := by
  cases f with
  | zero => simp [entryString]
  | succ f =>
    simp only [entryString]
    split
    · split
      · simp
      · split <;> simp
    · simp

/-- The string of a live entry depends on the live entries only. -/
theorem entryString_congr {m ci : Nat} {d d' : Dict} (hd : dictOk m ci d)
    (h : ∀ j, j < ci → storeGet d'.links j = storeGet d.links j ∧ storeGet d'.bytes j = storeGet d.bytes j) (i : Nat)
    (hi : live m ci i) (f : Nat) : entryString f d' i = entryString f d i := by
  have hlt := fun {j} (hj : live m ci j) => live_lt hd hj
  have hci : ci ≤ 4096 := hd.2.2.2.1
  have he := hd.2.2.2.2.2.2
  induction i using Nat.strong_induction_on generalizing f with
  | _ i ih =>
    cases f with
    | zero => rfl
    | succ f =>
      have hsame := h i (hlt hi)
      rcases he i hi with ⟨e0, e1, e2, e3⟩ | ⟨e0, p, c, k, e1, e2, e3, e4, e5, e6, e7, e8, e9⟩
      · simp only [entryString, hsame.1, hsame.2, e1, e2, if_true]
      · have hp4 : p < 4096 := lt_of_lt_of_le (hlt e1) hci
        simp only [entryString, hsame.1, hsame.2, e6, e7, linkIndex_ofNat hp4, ih p e2 e1]

/-- The walk's bound does not matter once it is above the entry. -/
theorem entryString_fuel {m ci : Nat} {d : Dict} (hd : dictOk m ci d) (i : Nat) (hi : live m ci i) (f g : Nat) (hf : i < f)
    (hg : i < g) : entryString f d i = entryString g d i := by
  have hlt := fun {j} (hj : live m ci j) => live_lt hd hj
  have hci : ci ≤ 4096 := hd.2.2.2.1
  have he := hd.2.2.2.2.2.2
  induction i using Nat.strong_induction_on generalizing f g with
  | _ i ih =>
    obtain ⟨f, rfl⟩ : ∃ f', f = f' + 1 := ⟨f - 1, by omega⟩
    obtain ⟨g, rfl⟩ : ∃ g', g = g' + 1 := ⟨g - 1, by omega⟩
    rcases he i hi with ⟨e0, e1, e2, e3⟩ | ⟨e0, p, c, k, e1, e2, e3, e4, e5, e6, e7, e8, e9⟩
    · simp only [entryString, e1, e2, if_true]
    · have hp4 : p < 4096 := lt_of_lt_of_le (hlt e1) hci
      simp only [entryString, e6, e7, linkIndex_ofNat hp4, ih p e2 e1 f g (by omega) (by omega)]

/-- The string of an entry just added is its prefix's string with the byte behind it (R89, R112). -/
theorem added_string {m ci n : Nat} {d : Dict} {o : Code} {b : Byte} {str : List Byte} (hd : dictOk m ci d)
    (h4 : ci < 4096) (ho : live m ci o.toNat) (hs : entryString 4096 d o.toNat = some str) :
    entryString 4096 (addedDict m ci o.toNat b n d) ci = some (str ++ [b]) := by
  have hlt := live_lt hd ho
  have h1 : storeGet (addedDict m ci o.toNat b n d).links ci = some (BitVec.ofNat 13 o.toNat) := by
    simp [addedDict, writeEntry]
  have h2 : storeGet (addedDict m ci o.toNat b n d).bytes ci = some b := by simp [addedDict, writeEntry]
  have h3 : entryString 4095 (addedDict m ci o.toNat b n d) o.toNat = some str := by
    rw [entryString_congr hd (fun j hj => ?_) _ ho, ← hs]
    · exact entryString_fuel hd _ ho _ _ (by omega) (by omega)
    · have : j ≠ ci := by omega
      simp [addedDict, writeEntry, storeGet_storeSet, this]
  rw [entryString]
  simp only [h1, h2, linkIndex_ofNat (i := o.toNat) (by omega), h3, if_neg (ofNat_ne_marker (i := o.toNat) (by omega))]
  rfl

/-- An add to a dictionary in form, as its reads and registers (R89). -/
theorem addedDict_entryAdded {m ci n : Nat} {d : Dict} {o : Code} {b : Byte}
    (hd' : dictOk m (ci + 1) (addedDict m ci o.toNat b n d))
    (hn : storeGet d.lens o.toNat = some (BitVec.ofNat 13 n)) : entryAdded m ci o b d (addedDict m ci o.toNat b n d) := by
  refine ⟨hd'.2.2.2.2.1, ?_, ?_, ⟨_, hn, ?_⟩, fun j hj => ?_⟩
  · simp only [addedDict, writeEntry, storeGet_storeSet_self]
    rw [← linkOfCode_eq]
    rfl
  · simp [addedDict, writeEntry]
  · simp only [addedDict, writeEntry, storeGet_storeSet_self]
    congr 1
    apply BitVec.eq_of_toNat_eq
    simp
  · simp [addedDict, writeEntry, storeGet_storeSet, hj]

/-- DICT_FIRSTBYTE of a live entry whose string is known. -/
theorem firstByte_of_string {m ci i : Nat} {s : State} {b : Byte} {bs : List Byte} (hd : dictOk m ci s.dict)
    (h : live m ci i) (hs : entryString 4096 s.dict i = some (b :: bs)) : firstByte i s = .ok b s ∧ b.toNat < 2 ^ m := by
  obtain ⟨b', bs', h1, h2, h3⟩ := firstByte_ok hd h
  rw [hs] at h2
  cases h2
  exact ⟨h1, h3⟩

/-- DICT_INIT's registers and entries, on any dictionary (R87). -/
theorem dictInit_entries {m : Nat} (h2 : 2 ≤ m) (h8 : m ≤ 8) (s : State) :
    ∃ d, dictInit (BitVec.ofNat 4 m) s = .ok () (s.setDict d) ∧ dictRegisters m (2 ^ m + 2) d ∧
      (∀ j, j < 2 ^ m →
        storeGet d.links j = some (-1) ∧ storeGet d.bytes j = some (BitVec.ofNat 8 j) ∧ storeGet d.lens j = some 1) ∧
      ∀ j, 2 ^ m ≤ j →
        storeGet d.links j = storeGet s.dict.links j ∧ storeGet d.bytes j = storeGet s.dict.bytes j ∧
          storeGet d.lens j = storeGet s.dict.lens j := by
  have hm : (BitVec.ofNat 4 m).toNat = m := ofNat_toNat_of_lt (by omega)
  have hreg := writeAtomic_registers (2 ^ m) { s.dict with minCodeSize := some (BitVec.ofNat 4 m) }
  have hent := writeAtomic_entries (2 ^ m) { s.dict with minCodeSize := some (BitVec.ofNat 4 m) }
  refine ⟨resetRegisters (BitVec.ofNat 4 m) (writeAtomic (2 ^ m) { s.dict with minCodeSize := some (BitVec.ofNat 4 m) }),
    ?_, ?_, fun j hj => ?_, fun j hj => ?_⟩
  · simp only [dictInit, hm, dictReset, State.setDict_dict, hreg.1, need_some]
    rfl
  · refine ⟨hreg.1, ?_, ?_, ?_, ?_, ?_⟩ <;> simp [resetRegisters, hm, widthFor_reset h2 h8]
  · obtain ⟨a, b, c⟩ := hent j
    rw [if_pos hj] at a b c
    exact ⟨a, b, c⟩
  · obtain ⟨a, b, c⟩ := hent j
    rw [if_neg (by omega)] at a b c
    exact ⟨a, b, c⟩

end Sys2Proof.Machine
end

