-- ==== Sys2Proof/Laws/Encoding.lean ====
section
/-! SUPPORT. The laws of stream bits and values, and of the conditions on a place's registers. -/

namespace Sys2Proof

/-- The conditions on the dictionary registers, as inequalities. -/
theorem CodeView.wf_iff (d : CodeView) :
    d.wf = true ↔
      3 ≤ d.width ∧ d.width ≤ 12 ∧ d.eoiCode = d.clearCode + 1 ∧ d.eoiCode < d.currentIndex ∧ d.currentIndex ≤ 4096 ∧
        d.eoiCode < 2 ^ d.width := by
  simp only [CodeView.wf, Bool.and_eq_true, decide_eq_true_eq, and_assoc]
  rfl

/-- A minCodeSize byte is legal exactly in 2..8 (30_encoding.md R65). -/
theorem legalMinCodeSize_iff (b : Byte) : legalMinCodeSize b = true ↔ 2 ≤ b.toNat ∧ b.toNat ≤ 8 := by
  rw [legalMinCodeSize, Bool.and_eq_true, decide_eq_true_eq, decide_eq_true_eq]
  rfl

/-- The value of the low `n` bits of a value. -/
theorem bitsValue_valueBits (n v : Nat) : bitsValue (valueBits n v) = v % 2 ^ n := by
  induction n generalizing v with
  | zero => simp [valueBits, bitsValue, Nat.mod_one]
  | succ n ih =>
    rw [valueBits, bitsValue, ih, Nat.pow_succ, Nat.mul_comm (2 ^ n) 2, Nat.mod_mul]
    rcases Nat.mod_two_eq_zero_or_one v with h | h <;> simp [h]

/-- The bits of a value of bits. -/
theorem valueBits_bitsValue (bs : List Bool) : valueBits bs.length (bitsValue bs) = bs := by
  induction bs with
  | nil => rfl
  | cons b bs ih =>
    rw [List.length_cons, valueBits, bitsValue]
    have h1 : (b.toNat + 2 * bitsValue bs) / 2 = bitsValue bs := by
      have := b.toNat_lt
      omega
    rw [h1, ih]
    cases b <;> simp

/-- `n` bits make a value below `2 ^ n`. -/
theorem bitsValue_lt (bs : List Bool) : bitsValue bs < 2 ^ bs.length := by
  induction bs with
  | nil => simp [bitsValue]
  | cons b bs ih =>
    rw [List.length_cons, bitsValue, Nat.pow_succ]
    have := b.toNat_lt
    omega

/-- Bit k of a value of bits is its k-th bit (30_encoding.md R63, R66). -/
theorem testBit_bitsValue (bs : List Bool) (k : Nat) : (bitsValue bs).testBit k = bs.getD k false := by
  induction bs generalizing k with
  | nil => simp [bitsValue]
  | cons b bs ih =>
    rw [bitsValue]
    cases k with
    | zero =>
      rw [Nat.testBit_zero]
      cases b <;> simp
    | succ k =>
      have h : (b.toNat + 2 * bitsValue bs) / 2 = bitsValue bs := by
        have := b.toNat_lt
        omega
      rw [Nat.testBit_succ, h, ih]
      simp

end Sys2Proof
end

