-- ==== Sys2Proof/Laws/Rasterizer.lean ====
section
/-! SUPPORT. What the rasterizer can do (43_rasterizer.md): the string fill, one byte, and a string. -/

namespace Sys2Proof.Machine

/-! ### The pen -/

theorem coord_add_toNat (a b : BitVec 16) : (a.zeroExtend 17 + b.zeroExtend 17).toNat = a.toNat + b.toNat := by
  have ha := a.isLt
  have hb := b.isLt
  rw [BitVec.toNat_add]
  simp only [BitVec.truncate_eq_setWidth, BitVec.toNat_setWidth]
  omega

theorem coord_toNat (a : BitVec 16) : (a.zeroExtend 17).toNat = a.toNat := by
  have ha := a.isLt
  simp only [BitVec.truncate_eq_setWidth, BitVec.toNat_setWidth]
  omega

theorem coord_eq (a : BitVec 16) : a.zeroExtend 17 = BitVec.ofNat 17 a.toNat := by
  have := a.isLt
  apply BitVec.eq_of_toNat_eq
  rw [coord_toNat, ofNat_toNat_of_lt (by omega)]

theorem coord_add_eq (a b : BitVec 16) : a.zeroExtend 17 + b.zeroExtend 17 = BitVec.ofNat 17 (a.toNat + b.toNat) := by
  have := a.isLt
  have := b.isLt
  apply BitVec.eq_of_toNat_eq
  rw [coord_add_toNat, ofNat_toNat_of_lt (by omega)]

theorem coord_succ {p : Coord} (h : p.toNat < 131071) : (p + 1).toNat = p.toNat + 1 := by
  rw [BitVec.toNat_add]
  simp
  omega

/-- OPEN's pen stands at the rectangle's first position (R103, R133). -/
theorem openDatapath_ok (c : Cfg) (d : Datapath) : penOk c (openDatapath c d) := by
  refine ⟨rfl, rfl, rfl, rfl, _, _, rfl, rfl, ?_, ?_, ?_, ?_, ?_⟩
  · rw [coord_toNat]
  · rw [coord_toNat]; omega
  · rw [coord_toNat]
    intro h
    exact BitVec.eq_of_toNat_eq (by simp; omega)
  · rw [coord_toNat]
  · rw [coord_toNat]; omega

/-- The pen after one byte (R129): the next column, or the first column of the next row. -/
def nextPen (c : Cfg) (px py : Coord) (d : Datapath) : Datapath :=
  if c.left.toNat + c.width.toNat ≤ px.toNat + 1 then { d with px := some (c.left.zeroExtend 17), py := some (py + 1) }
  else { d with px := some (px + 1) }

/-- The advanced pen with the left edge as a number. -/
theorem nextPen_eq (c : Cfg) (px py : Coord) (d : Datapath) :
    nextPen c px py d =
      if c.left.toNat + c.width.toNat ≤ px.toNat + 1 then
        { d with px := some (BitVec.ofNat 17 c.left.toNat), py := some (py + 1) }
      else { d with px := some (px + 1) } := by
  unfold nextPen
  rw [coord_eq]

/-- The three conditions of a transparent byte (R127). -/
theorem transparent_iff {c : Cfg} {b : Byte} :
    transparent c b = true ↔ c.gcePresent = true ∧ c.transparentFlag = true ∧ b = c.transparentIndex := by
  simp [transparent, and_assoc]

/-- The pen advance on a pen in form (R129). -/
theorem advancePen_ok {c : Cfg} {s : State} {px py : Coord} (h : penOk c s.dp) (hx : s.dp.px = some px)
    (hy : s.dp.py = some py) : advancePen s = .ok () (s.setDp (nextPen c px py s.dp)) := by
  obtain ⟨hl, hr, -, -, px', py', hx', -, h1, h2, -⟩ := h
  obtain rfl : px = px' := Option.some.inj (hx.symm.trans hx')
  have hlw := c.left.isLt
  have hww := c.width.isLt
  have hp1 : (px + 1).toNat = px.toNat + 1 := coord_succ (by omega)
  simp only [advancePen, hx, hy, hl, hr, need_some, coord_add_toNat, hp1, nextPen]
  split <;> rfl

/-- The pen stays in form (R133), where the bottom stop has let the byte through. -/
theorem nextPen_ok {c : Cfg} {d : Datapath} {px py : Coord} (h : penOk c d) (hx : d.px = some px)
    (hy : d.py = some py) (hbot : py.toNat < c.top.toNat + c.height.toNat) : penOk c (nextPen c px py d) := by
  obtain ⟨hl, hr, ht, hb, px', py', hx', hy', h1, h2, h3, h4, h5⟩ := h
  obtain rfl : px = px' := Option.some.inj (hx.symm.trans hx')
  obtain rfl : py = py' := Option.some.inj (hy.symm.trans hy')
  have hlw := c.left.isLt
  have hww := c.width.isLt
  have htw := c.top.isLt
  have hhw := c.height.isLt
  have hy1 : (py + 1).toNat = py.toNat + 1 := coord_succ (by omega)
  unfold nextPen
  split
  · refine ⟨hl, hr, ht, hb, _, _, rfl, rfl, ?_, ?_, ?_, ?_, ?_⟩
    · rw [coord_toNat]
    · rw [coord_toNat]; omega
    · rw [coord_toNat]
      intro h
      exact BitVec.eq_of_toNat_eq (by simp; omega)
    · omega
    · omega
  · have hp1 : (px + 1).toNat = px.toNat + 1 := coord_succ (by omega)
    exact ⟨hl, hr, ht, hb, _, _, rfl, hy, by omega, by omega, by omega, by omega, by omega⟩

theorem nextPen_other (c : Cfg) (px py : Coord) (d : Datapath) :
    (nextPen c px py d).index = d.index ∧ (nextPen c px py d).old = d.old ∧ (nextPen c px py d).clipB = d.clipB := by
  unfold nextPen
  split <;> simp

/-- The pen moves to the next position in raster order (R129, R134). -/
theorem nextPen_penAt {c : Cfg} {d : Datapath} {q : Nat} (hw : c.width ≠ 0) (h : penAt c q d)
    (hbot : c.top.toNat + q / c.width.toNat < c.top.toNat + c.height.toNat) :
    penAt c (q + 1)
      (nextPen c (BitVec.ofNat 17 (c.left.toNat + q % c.width.toNat))
        (BitVec.ofNat 17 (c.top.toNat + q / c.width.toNat)) d) := by
  have hlw := c.left.isLt
  have hww := c.width.isLt
  have htw := c.top.isLt
  have hhw := c.height.isLt
  have hw0 : 0 < c.width.toNat := by
    rcases Nat.eq_zero_or_pos c.width.toNat with h0 | h0
    · exact absurd (BitVec.eq_of_toNat_eq (by simpa using h0)) hw
    · exact h0
  have hmod := Nat.mod_lt q hw0
  have hx : (BitVec.ofNat 17 (c.left.toNat + q % c.width.toNat)).toNat = c.left.toNat + q % c.width.toNat :=
    ofNat_toNat_of_lt (by omega)
  unfold nextPen penAt
  rw [hx]
  have hdm := Nat.div_add_mod q c.width.toNat
  by_cases hl : c.left.toNat + c.width.toNat ≤ c.left.toNat + q % c.width.toNat + 1
  · have hq1 : (q + 1) = c.width.toNat * (q / c.width.toNat + 1) := by
      rw [Nat.mul_add]
      omega
    have hd1 : (q + 1) / c.width.toNat = q / c.width.toNat + 1 := by
      rw [hq1, Nat.mul_div_cancel_left _ hw0]
    have hm1 : (q + 1) % c.width.toNat = 0 := by
      rw [hq1, Nat.mul_mod_right]
    rw [if_pos hl, hd1, hm1]
    refine ⟨congrArg some (BitVec.eq_of_toNat_eq ?_), congrArg some (BitVec.eq_of_toNat_eq ?_)⟩
    · rw [coord_toNat, ofNat_toNat_of_lt (by omega)]
      rfl
    · have hy : (BitVec.ofNat 17 (c.top.toNat + q / c.width.toNat)).toNat = c.top.toNat + q / c.width.toNat :=
        ofNat_toNat_of_lt (by omega)
      rw [coord_succ (by omega), hy, ofNat_toNat_of_lt (by omega)]
      omega
  · have hd1 : (q + 1) / c.width.toNat = q / c.width.toNat := by
      rw [Nat.div_eq_iff hw0]
      rw [Nat.mul_comm] at hdm
      omega
    have hm1 : (q + 1) % c.width.toNat = q % c.width.toNat + 1 := by
      have := Nat.div_add_mod (q + 1) c.width.toNat
      rw [hd1] at this
      omega
    rw [if_neg hl, hd1, hm1]
    refine ⟨congrArg some (BitVec.eq_of_toNat_eq ?_), h.2⟩
    rw [coord_succ (by omega), hx, ofNat_toNat_of_lt (by omega)]
    omega

/-! ### One byte -/

/-- What a painted byte may change: the pen's two registers and FB. -/
def paintedFrom (s t : State) : Prop :=
  ∃ fb dp, t = (s.setFb fb).setDp dp ∧ dp.index = s.dp.index ∧ dp.old = s.dp.old ∧ dp.clipB = s.dp.clipB

/-- A visible byte with a colour-table entry on a pen in form (R128, R130): the pixel under the pen is written if it is
inside the rectangle and the canvas. -/
theorem drawByte_ok {c : Cfg} {s : State} {b : Byte} {e : Rgb} {px py : Coord} (h : penOk c s.dp)
    (hx : s.dp.px = some px) (hy : s.dp.py = some py) (hct : s.ct[b.toNat]? = some e)
    (hb : b.toNat < c.ctLen.toNat) :
    drawByte c b s =
      .ok ()
        (if px.toNat < c.left.toNat + c.width.toNat ∧ px.toNat < c.canvasW.toNat ∧ py.toNat < c.canvasH.toNat then
          fbWritePixel c.canvasW px.toNat py.toNat (e.extractLsb' 0 8) (e.extractLsb' 8 8) (e.extractLsb' 16 8) 0xFF#8 s
        else s) := by
  obtain ⟨-, hr, -⟩ := h
  simp only [drawByte, if_neg (Nat.not_le.2 hb), ctRead, hct, Res.bind_ok, hx, hy, hr, need_some, coord_add_toNat]
  split <;> rfl

/-- Everything one byte can do where the bottom stop has let it through (R124, R127 to R130): the pen advances and at
most the pixel under it is written, or a visible byte has no colour-table entry. -/
theorem paintByte_cases {c : Cfg} {s : State} {px py : Coord} (b : Byte) (hc : configured c s) (h : penOk c s.dp)
    (hx : s.dp.px = some px) (hy : s.dp.py = some py) (hbot : py.toNat < c.top.toNat + c.height.toNat) :
    (∃ fb, paintByte b s = .ok () ((s.setFb fb).setDp (nextPen c px py s.dp)) ∧
        (Memory.wf s.fb → Memory.wf fb) ∧
        (∀ a, outsideRectangle c a → (s.setFb fb).fbRead a = s.fbRead a) ∧
        (transparent c b = true ∨ b.toNat < c.ctLen.toNat)) ∨
      (paintByte b s = .raised (.malformed .colorIndexOutOfRange) s ∧ transparent c b = false ∧
        c.ctLen.toNat ≤ b.toNat) := by
  obtain ⟨hcfg, -, hct⟩ := hc
  by_cases ht : transparent c b
  · refine .inl ⟨s.fb, ?_, id, fun a _ => rfl, .inl ht⟩
    simp only [paintByte, hcfg, need_some, if_pos ht, Res.bind_ok, advancePen_ok h hx hy]
    rfl
  · by_cases hb : b.toNat < c.ctLen.toNat
    · obtain ⟨e, hget⟩ : ∃ e, s.ct[b.toNat]? = some e := ⟨_, List.getElem?_eq_getElem (by omega)⟩
      have hd := drawByte_ok h hx hy hget hb
      by_cases hin : px.toNat < c.left.toNat + c.width.toNat ∧ px.toNat < c.canvasW.toNat ∧ py.toNat < c.canvasH.toNat
      · rw [if_pos hin] at hd
        refine .inl ⟨(fbWritePixel c.canvasW px.toNat py.toNat (e.extractLsb' 0 8) (e.extractLsb' 8 8)
          (e.extractLsb' 16 8) 0xFF#8 s).fb, ?_, fun hw => fbWritePixel_wf hin.2.1 hin.2.2 _ _ _ _ hw, fun a ha => ?_,
          .inr hb⟩
        · simp only [paintByte, hcfg, need_some, if_neg ht, hd, Res.bind_ok]
          exact advancePen_ok (s := fbWritePixel _ _ _ _ _ _ _ s) h hx hy
        · obtain ⟨-, -, -, -, px', py', hx', hy', h1, h2, h3, h4, h5⟩ := h
          obtain rfl : px = px' := Option.some.inj (hx.symm.trans hx')
          obtain rfl : py = py' := Option.some.inj (hy.symm.trans hy')
          exact fbWritePixel_other _ _ _ _ s (ha _ _ ⟨h1, hin.1, hin.2.1, h4, hbot, hin.2.2⟩)
      · rw [if_neg hin] at hd
        refine .inl ⟨s.fb, ?_, id, fun a _ => rfl, .inr hb⟩
        simp only [paintByte, hcfg, need_some, if_neg ht, hd, Res.bind_ok, advancePen_ok h hx hy]
        rfl
    · refine .inr ⟨?_, by simpa using ht, by omega⟩
      simp only [paintByte, hcfg, need_some, if_neg ht, drawByte, if_pos (Nat.le_of_not_lt hb), Res.bind_raised]

/-- A byte that is painted changes the pen and FB only. -/
theorem paintByte_paintedFrom {b : Byte} {s t : State} (h : paintByte b s = .ok () t) : paintedFrom s t := by
  obtain ⟨c, hc, h⟩ := need_eq_ok h
  obtain ⟨u, s1, h1, h⟩ := Res.bind_eq_ok h
  have hs1 : ∃ fb, s1 = s.setFb fb := by
    split at h1
    · cases h1
      exact ⟨s.fb, rfl⟩
    · simp only [drawByte] at h1
      split at h1
      · cases h1
      · obtain ⟨rgb, s2, h2, h3⟩ := Res.bind_eq_ok h1
        obtain rfl : s2 = s := by
          simp only [ctRead] at h2
          split at h2 <;> cases h2
          rfl
        obtain ⟨px, -, h4⟩ := need_eq_ok h3
        obtain ⟨py, -, h5⟩ := need_eq_ok h4
        obtain ⟨r, -, h6⟩ := need_eq_ok h5
        split at h6
        · cases h6
          exact fbWritePixel_eq _ _ _ _ _ _ _ _
        · cases h6
          exact ⟨_, rfl⟩
  obtain ⟨fb, rfl⟩ := hs1
  obtain ⟨px, -, h⟩ := need_eq_ok h
  obtain ⟨r, -, h⟩ := need_eq_ok h
  split at h
  · obtain ⟨l, -, h⟩ := need_eq_ok h
    obtain ⟨py, -, h⟩ := need_eq_ok h
    cases h
    exact ⟨fb, _, rfl, rfl, rfl, rfl⟩
  · cases h
    exact ⟨fb, _, rfl, rfl, rfl, rfl⟩

/-! ### A string -/

/-- The room is used up exactly at the bottom, and each byte takes one place of it. -/
theorem room_cases {c : Cfg} {d : Datapath} {px py : Coord} (h : penOk c d) (hx : d.px = some px) (hy : d.py = some py) :
    (c.top.toNat + c.height.toNat ≤ py.toNat → room c d = 0) ∧
      (py.toNat < c.top.toNat + c.height.toNat → room c d = room c (nextPen c px py d) + 1) := by
  obtain ⟨-, -, -, -, px', py', hx', hy', h1, h2, h3, h4, h5⟩ := h
  obtain rfl : px = px' := Option.some.inj (hx.symm.trans hx')
  obtain rfl : py = py' := Option.some.inj (hy.symm.trans hy')
  have hlw := c.left.isLt
  have hww := c.width.isLt
  have htw := c.top.isLt
  have hhw := c.height.isLt
  have hw0 : px.toNat < c.left.toNat + c.width.toNat ∨ (px.toNat = c.left.toNat ∧ c.width.toNat = 0) := by
    by_cases hlt : px.toNat < c.left.toNat + c.width.toNat
    · exact .inl hlt
    · have h0 := congrArg BitVec.toNat (h3 (by omega))
      simp only [BitVec.ofNat_eq_ofNat, BitVec.toNat_ofNat, Nat.zero_mod] at h0
      exact .inr ⟨by omega, h0⟩
  constructor
  · intro hle
    simp only [room, hx, hy]
    rw [show c.top.toNat + c.height.toNat - py.toNat = 0 by omega]
    omega
  · intro hlt
    obtain ⟨k, hk⟩ : ∃ k, c.top.toNat + c.height.toNat - py.toNat = k + 1 := ⟨_, (Nat.succ_pred (by omega)).symm⟩
    have hy1 : (py + 1).toNat = py.toNat + 1 := coord_succ (by omega)
    have hx1 : (px + 1).toNat = px.toNat + 1 := coord_succ (by omega)
    unfold nextPen
    split
    · simp only [room, hx, hy, hy1, coord_toNat, hk]
      rw [show c.top.toNat + c.height.toNat - (py.toNat + 1) = k by omega, Nat.succ_mul]
      have : max 1 c.width.toNat = px.toNat - c.left.toNat + 1 := by omega
      omega
    · simp only [room, hx, hy, hx1, hk]
      have hm : max 1 c.width.toNat ≤ (k + 1) * max 1 c.width.toNat := Nat.le_mul_of_pos_left _ (by omega)
      have : px.toNat + 1 - c.left.toNat < max 1 c.width.toNat := by omega
      omega

/-- Everything painting a string can do (R123, R126): its bytes are painted or dropped, or a visible byte that the bottom
stop has not dropped has no colour-table entry. -/
theorem paintList_cases {c : Cfg} (str : List Byte) {s : State} (hc : configured c s) (h : penOk c s.dp) :
    (∃ fb dp, paintList str s = .ok () ((s.setFb fb).setDp dp) ∧ penOk c dp ∧ dp.index = s.dp.index ∧
        dp.old = s.dp.old ∧ (Memory.wf s.fb → Memory.wf fb) ∧
        (∀ a, outsideRectangle c a → (s.setFb fb).fbRead a = s.fbRead a) ∧
        colorsInRange c (str.take (room c s.dp))) ∨
      (∃ fb dp, paintList str s = .raised (.malformed .colorIndexOutOfRange) ((s.setFb fb).setDp dp) ∧
        (Memory.wf s.fb → Memory.wf fb) ∧
        (∀ a, outsideRectangle c a → (s.setFb fb).fbRead a = s.fbRead a) ∧
        ¬ colorsInRange c (str.take (room c s.dp))) := by
  induction str generalizing s with
  | nil => exact .inl ⟨s.fb, s.dp, rfl, h, rfl, rfl, id, fun a _ => rfl, by simp [colorsInRange]⟩
  | cons b str ih =>
    obtain ⟨-, -, -, hbot, px, py, hx, hy, -⟩ := id h
    obtain ⟨hroom0, hroom⟩ := room_cases h hx hy
    simp only [paintList, hy, hbot, need_some, coord_add_toNat]
    by_cases hstop : c.top.toNat + c.height.toNat ≤ py.toNat
    · rw [if_pos hstop, hroom0 hstop]
      exact .inl ⟨s.fb, s.dp, rfl, h, rfl, rfl, id, fun a _ => rfl, by simp [colorsInRange]⟩
    · rw [if_neg hstop, hroom (by omega), List.take_succ_cons]
      obtain ⟨hcfg, h256, hct⟩ := id hc
      rcases paintByte_cases b hc h hx hy (by omega) with ⟨fb, hp, hwf, hout, hcol⟩ | ⟨hp, ht, hb⟩
      · obtain ⟨n1, n2, -⟩ := nextPen_other c px py s.dp
        rw [hp, Res.bind_ok]
        rcases ih (s := (s.setFb fb).setDp (nextPen c px py s.dp)) ⟨hcfg, h256, hct⟩ (nextPen_ok h hx hy (by omega)) with
          ⟨fb', dp', i1, i2, i3, i4, i5, i6, i7⟩ | ⟨fb', dp', i1, i2, i3, i4⟩
        · refine .inl ⟨fb', dp', i1, i2, i3.trans n1, i4.trans n2, fun hw => i5 (hwf hw), fun a ha => ?_, ?_⟩
          · exact (i6 a ha).trans (hout a ha)
          · intro x hx
            rcases List.mem_cons.1 hx with rfl | hx
            · exact hcol
            · exact i7 x hx
        · refine .inr ⟨fb', dp', i1, fun hw => i2 (hwf hw), fun a ha => (i3 a ha).trans (hout a ha), fun hr => i4 ?_⟩
          exact fun x hx => hr x (List.mem_cons_of_mem _ hx)
      · rw [hp, Res.bind_raised]
        refine .inr ⟨s.fb, s.dp, rfl, id, fun a _ => rfl, fun hr => ?_⟩
        rcases hr b List.mem_cons_self with h1 | h1
        · rw [ht] at h1
          cases h1
        · omega

/-- PAINT's pass over PB is the painting of the string that PB holds (R123, R125). -/
theorem paintBytes_eq_paintList (str : List Byte) (k : Nat) (s : State)
    (hpb : ∀ j, j < str.length → storeGet s.pb (k + j) = str[j]?) : paintBytes str.length k s = paintList str s := by
  induction str generalizing k s with
  | nil => rfl
  | cons b str ih =>
    have h0 : storeGet s.pb k = some b := by simpa using hpb 0 (by simp)
    simp only [List.length_cons, paintBytes, paintList, pbRead, h0, Res.bind_ok]
    congr 1
    funext py
    congr 1
    funext bot
    split
    · rfl
    · cases hp : paintByte b s with
      | ok u t =>
        obtain ⟨fb, dp, rfl, -⟩ := paintByte_paintedFrom hp
        simp only [Res.bind_ok]
        refine ih (k + 1) _ fun j hj => ?_
        have := hpb (j + 1) (by simpa using hj)
        simpa [Nat.add_assoc, Nat.add_comm 1 j] using this
      | raised e t => rfl
      | fault f => rfl
      | refused r => rfl

/-! ### The fill -/

/-- The string fill (R125): PB holds the string from its first byte on, and nothing else changes. -/
theorem fillString_ok {m ci : Nat} {s : State} (hd : dictOk m ci s.dict) (i : Nat) (h : live m ci i)
    {str : List Byte} {f : Nat} (hstr : entryString f s.dict i = some str) (hlen : str.length ≤ 4096) :
    ∃ pb, fillString str.length (BitVec.ofNat 13 i) s = .ok () (s.setPb pb) ∧
      (∀ k, k < str.length → storeGet pb k = str[k]?) ∧
      (∀ k, str.length ≤ k → storeGet pb k = storeGet s.pb k) ∧
      (Store.wf s.pb ∧ (∀ x ∈ s.pb, x.1 < 4096) → Store.wf pb ∧ (∀ x ∈ pb, x.1 < 4096)) := by
  induction f generalizing i str s with
  | zero => simp [entryString] at hstr
  | succ f ih =>
    have hlt := live_lt hd h
    have hci : ci ≤ 4096 := hd.2.2.2.1
    have hi4 : linkIndex (BitVec.ofNat 13 i) = some i := linkIndex_ofNat (by omega)
    rcases hd.2.2.2.2.2.2 i h with ⟨e0, e1, e2, e3⟩ | ⟨e0, p, c, k, e1, e2, e3, e4, e5, e6, e7, e8, e9⟩
    · simp only [entryString, e1, e2, if_true, Option.some.injEq] at hstr
      subst hstr
      refine ⟨storeSet s.pb 0 (BitVec.ofNat 8 i), ?_, ?_, ?_, fun hw => ⟨storeSet_wf hw.1 _ _, storeSet_bound hw.2 (by decide) _⟩⟩
      · simp [fillString, hi4, byteAt, e2, pbWrite, Config.pbCap, linkAt, e1]
      · intro k hk
        simp only [List.length_cons, List.length_nil] at hk
        obtain rfl : k = 0 := by omega
        simp
      · intro k hk
        simp only [List.length_cons, List.length_nil] at hk
        exact storeGet_storeSet_ne _ _ (by omega)
    · have hp4 : p < 4096 := by omega
      simp only [entryString, e6, e7, if_neg (ofNat_ne_marker hp4), linkIndex_ofNat hp4, Option.map_eq_some_iff] at hstr
      obtain ⟨str', hs', rfl⟩ := hstr
      rw [List.length_append, List.length_singleton] at hlen
      obtain ⟨pb, i1, i2, i3, i4⟩ :=
        ih (s := s.setPb (storeSet s.pb str'.length c)) hd p e1 hs' (by omega)
      refine ⟨pb, ?_, ?_, ?_, fun hw => i4 ⟨storeSet_wf hw.1 _ _, storeSet_bound hw.2 (by omega) _⟩⟩
      · have hk : ¬ Config.pbCap ≤ str'.length := by
          simp only [Config.pbCap]
          omega
        simp only [List.length_append, List.length_singleton, fillString, hi4, byteAt, e7, Res.bind_ok, pbWrite,
          if_neg hk, linkAt, State.setPb_dict, e6]
        exact i1
      · intro k hk
        rw [List.length_append, List.length_singleton] at hk
        by_cases hk' : k < str'.length
        · rw [i2 k hk', List.getElem?_append_left hk']
        · obtain rfl : k = str'.length := by omega
          rw [i3 _ le_rfl]
          simp
      · intro k hk
        rw [List.length_append, List.length_singleton] at hk
        rw [i3 k (by omega)]
        exact storeGet_storeSet_ne _ _ (by omega)

/-- PAINT(i) of a live entry is the painting of its string, with PB filled (R120, R123, R125). -/
theorem paint_eq_paintList {m ci i : Nat} {s : State} (hd : dictOk m ci s.dict) (h : live m ci i)
    {str : List Byte} (hstr : entryString 4096 s.dict i = some str) :
    ∃ pb, paint i s = paintList str (s.setPb pb) ∧
      (Store.wf s.pb ∧ (∀ x ∈ s.pb, x.1 < 4096) → Store.wf pb ∧ (∀ x ∈ pb, x.1 < 4096)) := by
  have hi : i < 4096 := lt_of_lt_of_le (live_lt hd h) hd.2.2.2.1
  obtain ⟨bs, b, n, h1, h2, h3, h4, -⟩ := entryString_ok hd i h 4096 hi
  obtain rfl : str = b :: bs := Option.some.inj (hstr.symm.trans h1)
  obtain ⟨pb, f1, f2, -, f4⟩ := fillString_ok hd i h hstr (by omega)
  refine ⟨pb, ?_, f4⟩
  have hn : (BitVec.ofNat 13 n).toNat = (b :: bs).length := by
    rw [h4, ofNat_toNat_of_lt (by omega)]
  simp only [paint, lengthAt, h2, Res.bind_ok, hn, f1]
  exact paintBytes_eq_paintList _ 0 _ fun j hj => by simpa using f2 j hj

/-- Everything PAINT of a live entry can do in a decode under way. -/
theorem paint_cases {c : Cfg} {m ci i : Nat} {s : State} (hr : running c m ci s) (h : live m ci i) :
    ∃ str, entryString 4096 s.dict i = some str ∧
      ((∃ pb fb dp, paint i s = .ok () (((s.setPb pb).setFb fb).setDp dp) ∧ penOk c dp ∧ dp.index = s.dp.index ∧
          dp.old = s.dp.old ∧ (Memory.wf s.fb → Memory.wf fb) ∧
          (∀ a, outsideRectangle c a → (s.setFb fb).fbRead a = s.fbRead a) ∧
          colorsInRange c (str.take (room c s.dp)) ∧
          (Store.wf s.pb ∧ (∀ x ∈ s.pb, x.1 < 4096) → Store.wf pb ∧ (∀ x ∈ pb, x.1 < 4096))) ∨
        (∃ pb fb dp, paint i s = .raised (.malformed .colorIndexOutOfRange) (((s.setPb pb).setFb fb).setDp dp) ∧
          (Memory.wf s.fb → Memory.wf fb) ∧
          (∀ a, outsideRectangle c a → (s.setFb fb).fbRead a = s.fbRead a) ∧
          ¬ colorsInRange c (str.take (room c s.dp)))) := by
  obtain ⟨hc, -, hd, hp⟩ := hr
  have hi : i < 4096 := lt_of_lt_of_le (live_lt hd h) hd.2.2.2.1
  obtain ⟨bs, b, n, h1, -⟩ := entryString_ok hd i h 4096 hi
  obtain ⟨pb, hpaint, hpb⟩ := paint_eq_paintList hd h h1
  refine ⟨_, h1, ?_⟩
  rw [hpaint]
  rcases paintList_cases (c := c) (b :: bs) (s := s.setPb pb) hc hp with
    ⟨fb, dp, i1, i2, i3, i4, i5, i6, i7⟩ | ⟨fb, dp, i1, i2, i3, i4⟩
  · exact .inl ⟨pb, fb, dp, i1, i2, i3, i4, i5, i6, i7, hpb⟩
  · exact .inr ⟨pb, fb, dp, i1, i2, i3, i4⟩

end Sys2Proof.Machine
end

