-- ==== Sys2Proof/Laws/Step.lean ====
section
/-! SUPPORT. What a step can fetch in each phase, what the host's moves can do, and ABORT. One lemma each, which later
proofs cite instead of unfolding the step. -/

namespace Sys2Proof.Machine

/-! ### The code read -/

/-- In a decode under way a code gets the class that the dictionary's registers give it (R71). -/
theorem codeView_class {m ci : Nat} {s : State} (p : CodePlace) (c : Code) (hd : dictOk m ci s.dict) :
    ((codeView p s).bind fun d s => .ok (decodeCode p d c) s) = .ok (decodeCode p (viewOf m ci) c) s := by
  have hci := dictOk_currentIndex hd
  obtain ⟨h2, h8, h3, h4, ⟨-, hw, hc, he, hi, -⟩, -⟩ := hd
  have hp := two_pow_le_256 h8
  have hb := widthFor_bounds ci h2 h8
  have hcn : (BitVec.ofNat 9 (2 ^ m)).toNat = 2 ^ m := ofNat_toNat_of_lt (by omega)
  have hen : (BitVec.ofNat 9 (2 ^ m + 1)).toNat = 2 ^ m + 1 := ofNat_toNat_of_lt (by omega)
  have hwn : (BitVec.ofNat 4 (widthFor m ci)).toNat = widthFor m ci := ofNat_toNat_of_lt (by omega)
  cases p <;> simp only [codeView, hw, hc, he, hi, need_some, Res.bind_ok, hcn, hen, hwn, hci] <;> rfl

/-- What the class map sees is in form (R23). -/
theorem viewOf_wf {m ci : Nat} {d : Dict} (hd : dictOk m ci d) : (viewOf m ci).wf = true := by
  obtain ⟨h2, h8, h3, h4, -⟩ := hd
  have hb := widthFor_bounds ci h2 h8
  have hm : 2 * 2 ^ m ≤ 2 ^ widthFor m ci := by
    rw [Nat.mul_comm, ← Nat.pow_succ]
    refine Nat.pow_le_pow_right (by decide) ?_
    unfold widthFor
    omega
  have hm4 := four_le_two_pow h2
  have e1 : 3 ≤ widthFor m ci := hb.1
  have e2 : 2 ^ m + 1 < ci := by omega
  have e3 : 2 ^ m + 1 < 2 ^ widthFor m ci := by omega
  simp [CodeView.wf, viewOf, Config.maxCodeWidth, Config.dictCap, hb.2, e1, e2, e3, h4]

/-- A decode goes on being one when only the reader, in form, and INDEX and OLD change. -/
theorem running_setReader {c : Cfg} {m ci : Nat} {s : State} {br : BitReader} (ix : Option Code)
    (h : running c m ci s) (hbr : readerOk (s.setBr br)) :
    running c m ci ((s.setBr br).setDp { s.dp with index := ix }) := by
  obtain ⟨hc, -, hd, hp⟩ := h
  exact ⟨hc, hbr, hd, hp⟩

/-- Everything a code read can do in a decode under way (R104, R78). -/
theorem readCode_cases {c : Cfg} {m ci : Nat} {s : State} (h : running c m ci s) :
    (∃ (v : Code) (br : BitReader), readCode s = .ok v ((s.setBr br).setDp { s.dp with index := some v }) ∧
        readerOk (s.setBr br) ∧ widthFor m ci ≤ (streamBits s).length ∧
        streamBits (s.setBr br) = (streamBits s).drop (widthFor m ci) ∧
        v.toNat = bitsValue ((streamBits s).take (widthFor m ci)) ∧ v.toNat < 2 ^ widthFor m ci ∧
        bitsAhead (s.setBr br) + widthFor m ci ≤ bitsAhead s) ∨
      (∃ br : BitReader, readCode s = .raised (streamEnd s) (s.setBr br) ∧
        (streamBits s).length < widthFor m ci) := by
  obtain ⟨-, hr, ⟨h2, h8, -, -, ⟨-, hw, -⟩, -⟩, -⟩ := h
  have hb := widthFor_bounds ci h2 h8
  have hwn : (BitVec.ofNat 4 (widthFor m ci)).toNat = widthFor m ci := ofNat_toNat_of_lt (by omega)
  rcases readBits_cases (n := widthFor m ci) hr (by omega) hb.2 with
    ⟨v, br, h1, h2, h3, h4, h5, h6, h7⟩ | ⟨br, h1, h2⟩
  · refine .inl ⟨v, br, ?_, h2, h3, h4, h5, h6, h7⟩
    simp only [readCode, hw, need_some, hwn, h1, Res.bind_ok]
    rfl
  · refine .inr ⟨br, ?_, h2⟩
    simp only [readCode, hw, need_some, hwn, h1, Res.bind_raised]

/-- Everything a busy phase that reads a code can fetch (R71, R104). -/
theorem fetchCode_cases {c : Cfg} {m ci : Nat} {s : State} (p : CodePlace) (h : running c m ci s) :
    (∃ (v : Code) (br : BitReader),
        fetchCode p s = .ok (decodeCode p (viewOf m ci) v) ((s.setBr br).setDp { s.dp with index := some v }) ∧
        running c m ci ((s.setBr br).setDp { s.dp with index := some v }) ∧ widthFor m ci ≤ (streamBits s).length ∧
        streamBits (s.setBr br) = (streamBits s).drop (widthFor m ci) ∧
        v.toNat = bitsValue ((streamBits s).take (widthFor m ci)) ∧ v.toNat < 2 ^ widthFor m ci ∧
        bitsAhead (s.setBr br) + widthFor m ci ≤ bitsAhead s) ∨
      (∃ br : BitReader, fetchCode p s = .raised (streamEnd s) (s.setBr br) ∧
        (streamBits s).length < widthFor m ci) := by
  rcases readCode_cases h with ⟨v, br, h1, h2, h3⟩ | ⟨br, h1, h2⟩
  · have hrun := running_setReader (some v) h h2
    refine .inl ⟨v, br, ?_, hrun, h3⟩
    simp only [fetchCode, h1, Res.bind_ok, codeView_class p v hrun.2.2.1]
  · refine .inr ⟨br, ?_, h2⟩
    simp only [fetchCode, h1, Res.bind_raised]

/-! ### The other reads, and the host -/

/-- Everything OPEN can fetch (R103): the token at CFG.startPos, or Eof. -/
theorem fetchOpen_cases {s : State} {c : Cfg} (ha : addressable s) (hc : s.cfg = some c) :
    (∃ b, s.input[c.startPos]? = some b ∧
        fetchOpen s = .ok (decodeByte .openByte b) (s.setBr { s.br with pos := some (c.startPos + 1) })) ∨
      (s.input[c.startPos]? = none ∧ ∃ br, fetchOpen s = .raised .eof (s.setBr br)) := by
  rcases inRead_cases (s := s.setBr { s.br with pos := some c.startPos }) ha rfl with ⟨v, h1, -, h2⟩ | ⟨h1, h2⟩
  · refine .inl ⟨v, h1, ?_⟩
    rw [fetchOpen, hc, need_some, h2]
    rfl
  · refine .inr ⟨List.getElem?_eq_none h1, { s.br with pos := some c.startPos }, ?_⟩
    rw [fetchOpen, hc, need_some, h2]
    rfl

/-- Everything TERM can fetch (R80): the token behind the rest of the sub-block, or Eof. -/
theorem fetchTerm_cases {s : State} {p : Nat} {n : BitVec 8} (ha : addressable s) (hw : p < 2 ^ s.addrW)
    (hp : s.br.pos = some p) (hn : s.br.bytesInBlock = some n) :
    (∃ b, s.input[p + n.toNat]? = some b ∧
        fetchTerm s = .ok (decodeByte .terminator b) (s.setBr { s.br with pos := some (p + n.toNat + 1) })) ∨
      (s.input[p + n.toNat]? = none ∧ ∃ br, fetchTerm s = .raised .eof (s.setBr br)) := by
  rcases inAdvance_cases n.toNat ha hw hp with ⟨h1, h2⟩ | ⟨h1, h2⟩
  · rcases inRead_cases (s := s.setBr { s.br with pos := some (p + n.toNat) }) ha rfl with ⟨v, h3, -, h4⟩ | ⟨h3, h4⟩
    · refine .inl ⟨v, h3, ?_⟩
      rw [fetchTerm, readTerminator, hn, need_some, h2, Res.bind_ok, h4]
      rfl
    · refine .inr ⟨List.getElem?_eq_none h3, { s.br with pos := some (p + n.toNat) }, ?_⟩
      rw [fetchTerm, readTerminator, hn, need_some, h2, Res.bind_ok, h4]
      rfl
  · refine .inr ⟨List.getElem?_eq_none (by omega), s.br, ?_⟩
    rw [fetchTerm, readTerminator, hn, need_some, h2]
    rfl

/-- A step of FIRST, START or LOOP. -/
theorem step_code {s : State} {p : CodePlace} (h : codePlaceOf s.phase = some p) :
    step s = (fetchCode p s).thenRun exec := by
  unfold step stepWith
  cases hp : s.phase <;> rw [hp] at h <;> cases h <;> rfl

/-- A step of OPEN. -/
theorem step_opening {s : State} (h : s.phase = .opening) : step s = (fetchOpen s).thenRun exec := by
  unfold step stepWith
  rw [h]

/-- A step of TERM. -/
theorem step_term {s : State} (h : s.phase = .term) : step s = (fetchTerm s).thenRun exec := by
  unfold step stepWith
  rw [h]

/-- A step of IDLE, DONE or ERROR. -/
theorem step_quiescent {s : State} (h : s.phase.quiescent = true) : step s = hostStep exec s := by
  unfold step stepWith
  cases hp : s.phase <;> rw [hp] at h <;> first | rfl | cases h

/-- What a step of a quiescent phase leaves in the outcome registers (R12, R107, R139, R154). -/
theorem hostStep_cases {s t : State} (hq : s.phase.quiescent = true) (h : step s = .next t) :
    (t.phase = s.phase ∧ t.status = s.status ∧ t.endPos = s.endPos) ∨
      (∃ cfg rest, s.host = .start cfg :: rest ∧ cfg.ctLen.toNat ≤ 256 ∧
        t =
          { s with
            host := rest, cfg := some { cfg with startPos := s.position cfg.startPos }, status := Status.idle,
            endPos := none, phase := .opening }) ∨
      (∃ rest, s.host = .reset :: rest ∧ t = hardwareReset { s with host := rest }) := by
  rw [step_quiescent hq] at h
  unfold hostStep at h
  split at h
  · cases h
    exact .inl ⟨rfl, rfl, rfl⟩
  · rename_i cfg rest hh
    simp only [exec, execStart, hq, Bool.true_eq_false, if_false] at h
    split at h
    · cases h
    · rename_i hlt
      cases h
      exact .inr (.inl ⟨_, _, hh, Nat.not_lt.1 hlt, rfl⟩)
  · cases h
    exact .inl ⟨rfl, rfl, rfl⟩
  · cases h
    exact .inl ⟨rfl, rfl, rfl⟩
  · cases h
    exact .inl ⟨rfl, rfl, rfl⟩
  · rename_i rest hh
    cases h
    exact .inr (.inr ⟨_, hh, rfl⟩)

/-- A byte at a byte place decodes to its token (R72). -/
theorem decode_byte (p : BytePlace) (b : Byte) :
    decode (.byte p) (valueBits 8 b.toNat) = .ok (decodeByte p b, []) := by
  have h : ¬ (valueBits 8 b.toNat).length < 8 := by simp
  have ht : (valueBits 8 b.toNat).take 8 = valueBits 8 b.toNat := List.take_of_length_le (by simp)
  have hd : (valueBits 8 b.toNat).drop 8 = [] := List.drop_of_length_le (by simp)
  have hb : BitVec.ofNat 8 (b.toNat % 2 ^ 8) = b := by
    rw [Nat.mod_eq_of_lt b.isLt]
    simp
  simp only [decode, if_neg h, ht, hd, bitsValue_valueBits, hb]

/-- The decoder at a code place of a decode under way (R71, R82). -/
theorem decode_code {m ci : Nat} {p : CodePlace} {bits : List Bool} (h2 : 2 ≤ m) (h8 : m ≤ 8) :
    decode (.code p (viewOf m ci)) bits =
      if bits.length < widthFor m ci then .error .shortCode
      else
        .ok (decodeCode p (viewOf m ci) (BitVec.ofNat 12 (bitsValue (bits.take (widthFor m ci)))),
          bits.drop (widthFor m ci)) := by
  have := widthFor_bounds ci h2 h8
  have hw : ¬ ((viewOf m ci).width = 0 ∨ Config.maxCodeWidth < (viewOf m ci).width) := by
    simp only [viewOf, Config.maxCodeWidth]
    omega
  simp only [decode, if_neg hw]
  rfl

/-! ### ABORT -/

theorem foldl_drawPixel_fb (w : BitVec 16) (l : List (Nat × Nat)) {s t : State} (h : s.fb = t.fb) (k : s.draws = t.draws) :
    (l.foldl (drawPixel w) s).fb = (l.foldl (drawPixel w) t).fb := by
  induction l generalizing s t with
  | nil => exact h
  | cons p l ih =>
    rw [List.foldl_cons, List.foldl_cons]
    refine ih ?_ k
    simp only [drawPixel, fbWritePixel, fbWriteByte, State.setFb_fb, h, k]

/-- ABORT depends on what it keeps only, not on the registers it releases (R148). -/
theorem abort_congr (e : Exc) {s t : State} (h1 : s.cfg = t.cfg) (h2 : s.ct = t.ct) (h3 : s.input = t.input)
    (h4 : s.fb = t.fb) (h5 : s.draws = t.draws) (h6 : s.host = t.host) (h7 : s.addrW = t.addrW) :
    abort e s = abort e t := by
  have hfb : (drawFrame s).fb = (drawFrame t).fb := by
    unfold drawFrame
    rw [h1]
    cases t.cfg with
    | none => exact h4
    | some c => exact foldl_drawPixel_fb _ _ h4 h5
  rw [abort_eq, abort_eq, hfb, h1, h2, h3, h5, h6, h7]

theorem abort_setBr (e : Exc) (s : State) (br : BitReader) : abort e (s.setBr br) = abort e s :=
  abort_congr e rfl rfl rfl rfl rfl rfl rfl

/-- ABORT leaves the invariant of ERROR, whatever it was taken from (R148). -/
theorem abort_inv {e : Exc} {s : State} (h : Memory.wf s.fb) (ha : addressable s)
    (hc : ∀ c, s.cfg = some c → c.startPos < 2 ^ s.addrW) (he : e ≠ .malformed .none) : Inv (abort e s) := by
  rw [abort_eq]
  refine ⟨⟨drawFrame_wf h, ?_⟩, ?_, ⟨rfl, rfl, rfl, rfl⟩, ha, nofun, nofun, hc⟩
  · simp [Dict.released]
  · refine ⟨rfl, ?_⟩
    cases e with
    | eof => exact .inl rfl
    | malformed r => exact .inr ⟨r, fun h => he (h ▸ rfl), rfl⟩

/-- ABORT leaves every byte outside rectangle and canvas alone (R148, U1). -/
theorem abort_other {e : Exc} {s : State} {c : Cfg} (hc : s.cfg = some c) {a : Nat} (ha : outsideRectangle c a) :
    (abort e s).fbRead a = s.fbRead a := by
  have h1 : (abort e s).fbRead a = (drawFrame s).fbRead a := by
    rw [abort_eq]
    rfl
  rw [h1, drawFrame, hc]
  exact foldl_drawPixel_other _ _ fun p hp => ha p.1 p.2 (mem_framePixels.1 hp)

end Sys2Proof.Machine
end

