-- ==== Sys2Proof/Laws/Frame.lean ====
section
/-! SUPPORT. What no operation of a rule touches, in every state: the outcome registers, the configuration, the host
memories IN and CT, and the model's own fields; that every store keeps its canonical form; that positions keep their
width; and that an alpha byte is written as 0xFF only. One lemma per operation. -/

namespace Sys2Proof.Machine

/-- What every operation of a rule leaves as it is (R12, R15, R34, R56, R131). -/
def Kept (s t : State) : Prop :=
  (t.phase = s.phase ∧ t.status = s.status ∧ t.endPos = s.endPos ∧ t.cfg = s.cfg ∧ t.ct = s.ct ∧ t.input = s.input ∧
      t.draws = s.draws ∧ t.host = s.host ∧ t.addrW = s.addrW) ∧
    (storesOk s → storesOk t) ∧ (positionsFit s → positionsFit t) ∧ ∀ a, a % 4 = 3 → t.fbRead a = s.fbRead a ∨ t.fbRead a = 0xFF#8

theorem Kept.refl (s : State) : Kept s s := ⟨⟨rfl, rfl, rfl, rfl, rfl, rfl, rfl, rfl, rfl⟩, id, id, fun _ _ => .inl rfl⟩

theorem Kept.trans {s t u : State} (h : Kept s t) (k : Kept t u) : Kept s u := by
  obtain ⟨⟨a1, a2, a3, a4, a5, a6, a7, a8, a9⟩, a10, a11, a12⟩ := h
  obtain ⟨⟨b1, b2, b3, b4, b5, b6, b7, b8, b9⟩, b10, b11, b12⟩ := k
  refine ⟨⟨b1.trans a1, b2.trans a2, b3.trans a3, b4.trans a4, b5.trans a5, b6.trans a6, b7.trans a7, b8.trans a8,
    b9.trans a9⟩, b10 ∘ a10, b11 ∘ a11, fun a ha => ?_⟩
  rcases b12 a ha with h | h
  · rcases a12 a ha with h' | h'
    · exact .inl (h.trans h')
    · exact .inr (h.trans h')
  · exact .inr h

/-- The states an operation can end in; what it raises is Eof or a Malformed with a reason (R142, R144). -/
def Res.All {α : Type} (P : State → Prop) : Res α → Prop
  | .ok _ t => P t
  | .raised e t => P t ∧ e ≠ .malformed .none
  | .fault _ => True
  | .refused _ => True

theorem Res.all_bind {α β : Type} {s : State} {r : Res α} {k : α → State → Res β} (h : r.All (Kept s))
    (hk : ∀ a t, r = .ok a t → (k a t).All (Kept t)) : (r.bind k).All (Kept s) := by
  cases r with
  | ok a t =>
    have := hk a t rfl
    simp only [Res.bind_ok]
    cases hr : k a t with
    | ok b u =>
      rw [hr] at this
      exact h.trans this
    | raised e u =>
      rw [hr] at this
      exact ⟨h.trans this.1, this.2⟩
    | fault f => trivial
    | refused r => trivial
  | raised e t => exact h
  | fault f => trivial
  | refused r => trivial

theorem Res.all_need {α β : Type} {P : State → Prop} {r : Option α} {n : RegName} {k : α → Res β}
    (h : ∀ v, r = some v → (k v).All P) : (need r n k).All P := by
  cases r with
  | some v => exact h v rfl
  | none => trivial

/-- A change of the bit reader that keeps BR.pos in its width. -/
theorem setBr_kept {s : State} {b : BitReader} (h : positionsFit s → ∀ p, b.pos = some p → p < 2 ^ s.addrW) :
    Kept s (s.setBr b) :=
  ⟨⟨rfl, rfl, rfl, rfl, rfl, rfl, rfl, rfl, rfl⟩, id, fun hf => ⟨h hf, hf.2⟩, fun _ _ => .inl rfl⟩

/-- A change of the bit reader that leaves BR.pos alone. -/
theorem setBr_pos_kept {s : State} {b : BitReader} (h : b.pos = s.br.pos) : Kept s (s.setBr b) :=
  setBr_kept fun hf p hp => hf.1 p (h ▸ hp)

/-- A change of the bit reader that writes BR.pos. -/
theorem setBr_position_kept (s : State) (p : Nat) (b : BitReader) : Kept s (s.setBr { b with pos := some (s.position p) }) :=
  setBr_kept fun _ q hq => by
    cases hq
    exact position_lt s p

theorem setDp_kept (s : State) (d : Datapath) : Kept s (s.setDp d) :=
  ⟨⟨rfl, rfl, rfl, rfl, rfl, rfl, rfl, rfl, rfl⟩, id, id, fun _ _ => .inl rfl⟩

/-- A change of the dictionary that keeps its stores in form. -/
theorem setDict_kept {s : State} {d : Dict} (h : storesOk s → storesOk (s.setDict d)) : Kept s (s.setDict d) :=
  ⟨⟨rfl, rfl, rfl, rfl, rfl, rfl, rfl, rfl, rfl⟩, h, id, fun _ _ => .inl rfl⟩

theorem writeEntry_stores {s : State} {d : Dict} (h : storesOk (s.setDict d)) {i : Nat} (hi : i < Config.dictCap)
    (l : Link) (b : Byte) (n : BitVec 13) : storesOk (s.setDict (writeEntry i l b n d)) := by
  obtain ⟨h1, ⟨h2, h3⟩, ⟨h4, h5⟩, ⟨h6, h7⟩, h8⟩ := h
  exact ⟨h1, ⟨storeSet_wf h2 _ _, storeSet_bound h3 hi _⟩, ⟨storeSet_wf h4 _ _, storeSet_bound h5 hi _⟩,
    ⟨storeSet_wf h6 _ _, storeSet_bound h7 hi _⟩, h8⟩

theorem writeAtomic_stores {s : State} {d : Dict} (h : storesOk (s.setDict d)) {n : Nat} (hn : n ≤ Config.dictCap) :
    storesOk (s.setDict (writeAtomic n d)) := by
  induction n with
  | zero => exact h
  | succ n ih => exact writeEntry_stores (ih (by omega)) (by omega) _ _ _

theorem fbWritePixel_kept {c : Cfg} {px py : Nat} (hx : px < c.canvasW.toNat) (hy : py < c.canvasH.toNat)
    (r g b : Byte) (s : State) : Kept s (fbWritePixel c.canvasW px py r g b 0xFF#8 s) := by
  refine ⟨⟨rfl, rfl, rfl, rfl, rfl, rfl, rfl, rfl, rfl⟩, fun h => ⟨fbWritePixel_wf hx hy _ _ _ _ h.1, h.2⟩, id,
    fun a ha => ?_⟩
  by_cases hp : inPixel c.canvasW px py a
  · right
    obtain ⟨h1, h2⟩ := hp
    obtain rfl : a = pixelOffset c.canvasW px py + 3 := by
      simp only [pixelOffset] at *
      omega
    exact (fbWritePixel_bytes _ _ _ _ _ _ _ s).2.2.2
  · exact .inl (fbWritePixel_other _ _ _ _ s hp)

/-! ### The bit reader -/

theorem inRead_kept (s : State) : (inRead s).All (Kept s) := by
  refine Res.all_need fun p hp => ?_
  split
  · exact ⟨Kept.refl s, by decide⟩
  · exact setBr_position_kept _ _ _

theorem inAdvance_kept (n : Nat) (s : State) : (inAdvance n s).All (Kept s) := by
  refine Res.all_need fun p hp => ?_
  split
  · exact ⟨Kept.refl s, by decide⟩
  · exact setBr_position_kept _ _ _

theorem loadData_kept (b : Byte) (s : State) : (loadData b s).All (Kept s) :=
  Res.all_need fun _ _ => setBr_pos_kept rfl

theorem loadFirstLen_kept (b : Byte) (s : State) : (loadFirstLen b s).All (Kept s) := setBr_pos_kept rfl

theorem loadSubblock_kept (b : Byte) (s : State) : (loadSubblock b s).All (Kept s) := by
  have h : Kept s (s.setBr { s.br with bytesInBlock := some b }) := setBr_pos_kept rfl
  have h2 := Res.all_bind (inRead_kept (s.setBr { s.br with bytesInBlock := some b }))
    (k := loadData) fun a t _ => loadData_kept a t
  unfold loadSubblock
  revert h2
  cases ((inRead (s.setBr { s.br with bytesInBlock := some b })).bind loadData) with
  | ok a t => exact h.trans
  | raised e t => exact fun k => ⟨h.trans k.1, k.2⟩
  | fault f => exact id
  | refused r => exact id

theorem brRefill_kept (s : State) : (brRefill s).All (Kept s) := by
  refine Res.all_need fun n hn => ?_
  split
  · refine Res.all_bind (inRead_kept s) fun b t _ => ?_
    unfold loadLength
    split
    · exact ⟨Kept.refl t, by decide⟩
    · exact loadSubblock_kept b t
  · exact Res.all_bind (inRead_kept s) fun b t _ => loadData_kept b t

theorem takeBit_kept (s : State) : (takeBit s).All (Kept s) := by
  refine Res.all_need fun k hk => Res.all_bind ?_ fun _ t _ => ?_
  · split
    · exact brRefill_kept s
    · exact Kept.refl s
  · exact Res.all_need fun _ _ => Res.all_need fun _ _ => setBr_pos_kept rfl

theorem readBitsFrom_kept (n i : Nat) (r : Code) (s : State) : (readBitsFrom n i r s).All (Kept s) := by
  induction n generalizing i r s with
  | zero => exact Kept.refl s
  | succ n ih => exact Res.all_bind (takeBit_kept s) fun b t _ => ih _ _ t

theorem readBits_kept (n : Nat) (s : State) : (readBits n s).All (Kept s) := by
  unfold readBits
  split
  · trivial
  · exact readBitsFrom_kept _ _ _ _

theorem readTerminator_kept (s : State) : (readTerminator s).All (Kept s) :=
  Res.all_need fun _ _ => Res.all_bind (inAdvance_kept _ s) fun _ t _ => inRead_kept t

theorem brOpen_kept (s : State) : (brOpen s).All (Kept s) :=
  Res.all_bind (inRead_kept s) fun b t _ => loadFirstLen_kept b t

/-! ### The dictionary -/

theorem dictReset_kept (s : State) : (dictReset s).All (Kept s) :=
  Res.all_need fun _ _ => setDict_kept id

theorem linkAt_kept (i : Nat) (s : State) : (linkAt i s).All (Kept s) := by
  unfold linkAt
  split
  · exact Kept.refl s
  · trivial

theorem byteAt_kept (i : Nat) (s : State) : (byteAt i s).All (Kept s) := by
  unfold byteAt
  split
  · exact Kept.refl s
  · trivial

theorem lengthAt_kept (i : Nat) (s : State) : (lengthAt i s).All (Kept s) := by
  unfold lengthAt
  split
  · exact Kept.refl s
  · trivial

theorem firstByteWalk_kept (n i : Nat) (s : State) : (firstByteWalk n i s).All (Kept s) := by
  induction n generalizing i s with
  | zero => trivial
  | succ n ih =>
    refine Res.all_bind (linkAt_kept i s) fun l t _ => ?_
    split
    · exact byteAt_kept i t
    · split
      · exact ih _ t
      · trivial

theorem prefixLength_kept (p : Link) (s : State) : (prefixLength p s).All (Kept s) := by
  unfold prefixLength
  split
  · exact Kept.refl s
  · exact Res.all_bind (lengthAt_kept _ s) fun n t _ => Kept.refl t

theorem dictAdd_kept (p : Link) (b : Byte) (s : State) : (dictAdd p b s).All (Kept s) := by
  refine Res.all_need fun ci _ => Res.all_need fun mx _ => Res.all_need fun w _ => ?_
  have hg : Kept s (s.setDict (grow ci mx w s.dict)) := by
    refine setDict_kept ?_
    unfold grow
    split
    · exact id
    · exact id
  dsimp only
  split
  · rename_i hlt
    have h2 : ((prefixLength p (s.setDict (grow ci mx w s.dict))).bind fun n s2 =>
        Res.ok (some ci.toNat)
          (s2.setDict { writeEntry ci.toNat p b (BitVec.ofNat 13 (n + 1)) s2.dict with currentIndex := some (ci + 1) })).All
        (Kept (s.setDict (grow ci mx w s.dict))) := by
      refine Res.all_bind (prefixLength_kept p _) fun n t _ => ?_
      exact setDict_kept fun h => writeEntry_stores (s := t) (d := t.dict) h hlt p b (BitVec.ofNat 13 (n + 1))
    revert h2
    cases ((prefixLength p (s.setDict (grow ci mx w s.dict))).bind fun n s2 =>
        Res.ok (some ci.toNat)
          (s2.setDict { writeEntry ci.toNat p b (BitVec.ofNat 13 (n + 1)) s2.dict with currentIndex := some (ci + 1) })) with
    | ok a t => exact hg.trans
    | raised e t => exact fun k => ⟨hg.trans k.1, k.2⟩
    | fault f => exact id
    | refused r => exact id
  · exact hg

theorem dictInit_kept {m : BitVec 4} (hm : m.toNat ≤ 12) (s : State) : (dictInit m s).All (Kept s) := by
  have h : Kept s (s.setDict (writeAtomic (2 ^ m.toNat) { s.dict with minCodeSize := some m })) := by
    refine setDict_kept fun h => writeAtomic_stores (d := { s.dict with minCodeSize := some m }) h ?_
    exact Nat.pow_le_pow_right (by decide : 0 < 2) hm
  have h2 := dictReset_kept (s.setDict (writeAtomic (2 ^ m.toNat) { s.dict with minCodeSize := some m }))
  unfold dictInit
  revert h2
  cases dictReset (s.setDict (writeAtomic (2 ^ m.toNat) { s.dict with minCodeSize := some m })) with
  | ok a t => exact h.trans
  | raised e t => exact fun k => ⟨h.trans k.1, k.2⟩
  | fault f => exact id
  | refused r => exact id

/-! ### The rasterizer -/

theorem pbRead_kept (k : Nat) (s : State) : (pbRead k s).All (Kept s) := by
  unfold pbRead
  split
  · exact Kept.refl s
  · trivial

theorem pbWrite_kept (k : Nat) (b : Byte) (s : State) : (pbWrite k b s).All (Kept s) := by
  unfold pbWrite
  split
  · trivial
  · rename_i hk
    refine ⟨⟨rfl, rfl, rfl, rfl, rfl, rfl, rfl, rfl, rfl⟩, fun h => ?_, id, fun _ _ => .inl rfl⟩
    obtain ⟨h1, h2, h3, h4, h5, h6⟩ := h
    exact ⟨h1, h2, h3, h4, storeSet_wf h5 _ _, storeSet_bound h6 (by omega) _⟩

theorem fillString_kept (n : Nat) (j : Link) (s : State) : (fillString n j s).All (Kept s) := by
  induction n generalizing j s with
  | zero => exact Kept.refl s
  | succ n ih =>
    unfold fillString
    split
    · trivial
    · exact Res.all_bind (byteAt_kept _ s) fun b t _ =>
        Res.all_bind (pbWrite_kept _ b t) fun _ u _ => Res.all_bind (linkAt_kept _ u) fun l v _ => ih l v

theorem ctRead_kept (i : Nat) (s : State) : (ctRead i s).All (Kept s) := by
  unfold ctRead
  split
  · trivial
  · exact Kept.refl s

theorem drawByte_kept (c : Cfg) (b : Byte) (s : State) : (drawByte c b s).All (Kept s) := by
  unfold drawByte
  split
  · exact ⟨Kept.refl s, by decide⟩
  · refine Res.all_bind (ctRead_kept _ s) fun rgb t _ => Res.all_need fun px _ => Res.all_need fun py _ =>
      Res.all_need fun r _ => ?_
    split
    · rename_i h
      exact fbWritePixel_kept h.2.1 h.2.2 _ _ _ t
    · exact Kept.refl t

theorem advancePen_kept (s : State) : (advancePen s).All (Kept s) := by
  refine Res.all_need fun px _ => Res.all_need fun r _ => ?_
  split
  · exact Res.all_need fun l _ => Res.all_need fun py _ => setDp_kept _ _
  · exact setDp_kept _ _

theorem paintByte_kept (b : Byte) (s : State) : (paintByte b s).All (Kept s) := by
  refine Res.all_need fun c _ => Res.all_bind ?_ fun _ t _ => advancePen_kept t
  split
  · exact Kept.refl s
  · exact drawByte_kept c b s

theorem paintBytes_kept (n k : Nat) (s : State) : (paintBytes n k s).All (Kept s) := by
  induction n generalizing k s with
  | zero => exact Kept.refl s
  | succ n ih =>
    refine Res.all_bind (pbRead_kept k s) fun b t _ => Res.all_need fun py _ => Res.all_need fun bot _ => ?_
    split
    · exact Kept.refl t
    · exact Res.all_bind (paintByte_kept b t) fun _ u _ => ih _ u

theorem paint_kept (i : Nat) (s : State) : (paint i s).All (Kept s) :=
  Res.all_bind (lengthAt_kept i s) fun _ t _ =>
    Res.all_bind (fillString_kept _ _ t) fun _ u _ => paintBytes_kept _ _ u

/-! ### The reads of a phase -/

theorem readCode_kept (s : State) : (readCode s).All (Kept s) :=
  Res.all_need fun _ _ => Res.all_bind (readBits_kept _ s) fun _ t _ => setDp_kept t _

theorem codeView_kept (p : CodePlace) (s : State) : (codeView p s).All (Kept s) := by
  refine Res.all_need fun _ _ => Res.all_need fun _ _ => ?_
  cases p with
  | first => exact Kept.refl s
  | start => exact Kept.refl s
  | loop => exact Res.all_need fun _ _ => Res.all_need fun _ _ => Kept.refl s

theorem fetchCode_kept (p : CodePlace) (s : State) : (fetchCode p s).All (Kept s) :=
  Res.all_bind (readCode_kept s) fun _ t _ => Res.all_bind (codeView_kept p t) fun _ u _ => Kept.refl u

theorem fetchTerm_kept (s : State) : (fetchTerm s).All (Kept s) :=
  Res.all_bind (readTerminator_kept s) fun _ t _ => Kept.refl t

theorem fetchOpen_kept (s : State) : (fetchOpen s).All (Kept s) := by
  refine Res.all_need fun c hc => ?_
  have h : Kept s (s.setBr { s.br with pos := some c.startPos }) := setBr_kept fun hf p hp => by
    cases hp
    exact hf.2.2 c hc
  have h2 := Res.all_bind (k := fun b s => Res.ok (decodeByte .openByte b) s)
    (inRead_kept (s.setBr { s.br with pos := some c.startPos })) fun b t _ => Kept.refl t
  revert h2
  cases ((inRead (s.setBr { s.br with pos := some c.startPos })).bind fun b s => Res.ok (decodeByte .openByte b) s) with
  | ok a t => exact h.trans
  | raised e t => exact fun k => ⟨h.trans k.1, k.2⟩
  | fault f => exact id
  | refused r => exact id

/-! ### Instructions and steps -/

/-- What a busy step can be, in every state: the exception it raised is taken, the phase moves on, or the decode ends
(R107, R115, R148). `ps` are the phases it may move to. -/
def busyOutcome (ps : List Phase) (s t : State) : Prop :=
  (∃ u e, Kept s u ∧ e ≠ .malformed .none ∧ t = abort e u) ∨
    (∃ u p, Kept s u ∧ p ∈ ps ∧ t = u.setPhase p) ∨
    (s.phase = .term ∧ ∃ u pos, Kept s u ∧ u.br.pos = some pos ∧
      t = { release u with endPos := some pos, status := Status.success, phase := .done })

theorem busyOutcome_of_all {α : Type} {ps : List Phase} {s t : State} {r : Res α} {k : α → State → Res Unit} {p : Phase}
    (hp : p ∈ ps) (h : r.All (Kept s)) (hk : ∀ a u, r = .ok a u → ∃ q : State → State, (∀ v, Kept v (q v)) ∧
      k a u = .ok () ((q u).setPhase p)) (ht : (r.bind k).finish = .next t) : busyOutcome ps s t := by
  cases r with
  | ok a u =>
    obtain ⟨q, hq, he⟩ := hk a u rfl
    rw [Res.bind_ok, he, Res.finish_ok] at ht
    cases ht
    exact .inr (.inl ⟨_, p, h.trans (hq u), hp, rfl⟩)
  | raised e u =>
    rw [Res.bind_raised, Res.finish_raised] at ht
    cases ht
    exact .inl ⟨u, e, h.1, h.2, rfl⟩
  | fault f => cases ht
  | refused r => cases ht

theorem busyOutcome_abort {ps : List Phase} {s u t : State} {e : Exc} (h : Kept s u) (he : e ≠ .malformed .none)
    (ht : Host.Outcome.next (abort e u) = (.next t : Out)) : busyOutcome ps s t := by
  cases ht
  exact .inl ⟨u, e, h, he, rfl⟩

theorem busyOutcome_trans {ps : List Phase} {s u t : State} (h : Kept s u) (k : busyOutcome ps u t) :
    busyOutcome ps s t := by
  rcases k with ⟨v, e, h1, h2, h3⟩ | ⟨v, p, h1, h2, h3⟩ | ⟨h0, v, pos, h1, h2, h3⟩
  · exact .inl ⟨v, e, h.trans h1, h2, h3⟩
  · exact .inr (.inl ⟨v, p, h.trans h1, h2, h3⟩)
  · exact .inr (.inr ⟨h.1.1 ▸ h0, v, pos, h.trans h1, h2, h3⟩)

/-- A read that answers an instruction of a kind each of whose runs is a busy outcome. -/
theorem thenRun_outcome {ps : List Phase} {s t : State} {r : Res Instr} (h : r.All (Kept s))
    (hk : ∀ i u, r = .ok i u → exec i u = .next t → busyOutcome ps u t) (ht : r.thenRun exec = .next t) :
    busyOutcome ps s t := by
  cases r with
  | ok i u => exact busyOutcome_trans h (hk i u rfl ht)
  | raised e u => exact busyOutcome_abort h.1 h.2 ht
  | fault f => cases ht
  | refused r => cases ht

theorem exec_first_outcome {d : CodeView} {c : Code} {s t : State}
    (h : exec (decodeCode .first d c) s = .next t) : busyOutcome [.start] s t := by
  simp only [decodeCode] at h
  split at h
  · cases h
    exact .inr (.inl ⟨s, .start, Kept.refl s, by simp, rfl⟩)
  · exact busyOutcome_abort (Kept.refl s) (by decide) h

theorem exec_start_outcome {d : CodeView} {c : Code} {s t : State}
    (h : exec (decodeCode .start d c) s = .next t) : busyOutcome [.loop] s t := by
  simp only [decodeCode] at h
  split at h
  · exact busyOutcome_of_all (by simp) (paint_kept c.toNat s)
      (fun _ u _ => ⟨setOld c, fun v => setDp_kept v _, rfl⟩) h
  · exact busyOutcome_abort (Kept.refl s) (by decide) h

/-- A rule whose whole action keeps what `Kept` says, and which leaves PHASE. -/
theorem busyOutcome_same {ps : List Phase} {s t : State} {r : Res Unit} (hp : s.phase ∈ ps) (h : r.All (Kept s))
    (ht : r.finish = .next t) : busyOutcome ps s t := by
  cases r with
  | ok a u =>
    refine .inr (.inl ⟨u, s.phase, h, hp, ?_⟩)
    cases ht
    rw [← h.1.1]
    rfl
  | raised e u => exact busyOutcome_abort h.1 h.2 ht
  | fault f => cases ht
  | refused r => cases ht

theorem exec_loop_outcome {d : CodeView} {c : Code} {s t : State} (hs : s.phase = .loop)
    (h : exec (decodeCode .loop d c) s = .next t) : busyOutcome [.loop, .start, .term] s t := by
  simp only [decodeCode] at h
  split at h
  · cases h
    exact .inr (.inl ⟨s, .term, Kept.refl s, by simp, rfl⟩)
  · split at h
    · exact busyOutcome_of_all (p := .start) (by simp) (dictReset_kept s)
        (fun _ u _ => ⟨id, Kept.refl, rfl⟩) h
    · split at h
      · refine busyOutcome_same (by rw [hs]; simp) ?_ h
        exact Res.all_bind (paint_kept _ s) fun _ t _ => Res.all_bind (firstByteWalk_kept _ _ t) fun b u _ =>
          Res.all_need fun old _ => Res.all_bind (dictAdd_kept _ b u) fun _ v _ => setDp_kept v _
      · split at h
        · refine busyOutcome_same (by rw [hs]; simp) ?_ h
          refine Res.all_need fun old _ => Res.all_bind (firstByteWalk_kept _ _ s) fun b u _ =>
            Res.all_bind (dictAdd_kept _ b u) fun k v _ => ?_
          cases k with
          | none => trivial
          | some k => exact Res.all_bind (paint_kept k v) fun _ w _ => setDp_kept w _
        · exact busyOutcome_abort (Kept.refl s) (by decide) h

theorem exec_open_outcome {b : Byte} {s t : State}
    (h : exec (decodeByte .openByte b) s = .next t) : busyOutcome [.first] s t := by
  simp only [decodeByte] at h
  split at h
  · rename_i hb
    have hb' := (legalMinCodeSize_iff b).1 hb
    have hm : (BitVec.truncate 4 b).toNat ≤ 12 := by
      simp only [BitVec.truncate_eq_setWidth, BitVec.toNat_setWidth]
      omega
    have h1 := dictInit_kept hm s
    simp only [exec, execMinCodeSize] at h
    cases hr : dictInit (BitVec.truncate 4 b) s with
    | ok a u =>
      rw [hr] at h h1
      rw [Res.bind_ok] at h
      cases hc : u.cfg with
      | none =>
        rw [hc] at h
        cases h
      | some c =>
        rw [hc, need_some] at h
        exact busyOutcome_trans (h1.trans (setDp_kept u _)) (busyOutcome_of_all (by simp) (brOpen_kept _)
          (fun _ u _ => ⟨id, Kept.refl, rfl⟩) h)
    | raised e u =>
      rw [hr] at h h1
      exact busyOutcome_abort h1.1 h1.2 h
    | fault f =>
      rw [hr] at h
      cases h
    | refused r =>
      rw [hr] at h
      cases h
  · exact busyOutcome_abort (Kept.refl s) (by decide) h

theorem exec_term_outcome {b : Byte} {s t : State} (hs : s.phase = .term)
    (h : exec (decodeByte .terminator b) s = .next t) : busyOutcome [] s t := by
  simp only [decodeByte] at h
  split at h
  · simp only [exec, execTerminator] at h
    cases hp : s.br.pos with
    | none =>
      rw [hp] at h
      cases h
    | some p =>
      rw [hp] at h
      cases h
      exact .inr (.inr ⟨hs, s, p, Kept.refl s, hp, rfl⟩)
  · exact busyOutcome_abort (Kept.refl s) (by decide) h

/-- The phases a busy phase may move to without an exception, other than DONE (R107). -/
def nextPhases : Phase → List Phase
  | .opening => [.first]
  | .first => [.start]
  | .start => [.loop]
  | .loop => [.loop, .start, .term]
  | .term => []
  | .idle => []
  | .done => []
  | .error => []

theorem fetchCode_class {p : CodePlace} {s u : State} {i : Instr} (h : fetchCode p s = .ok i u) :
    ∃ d c, i = decodeCode p d c := by
  obtain ⟨c, v, -, h⟩ := Res.bind_eq_ok h
  obtain ⟨d, w, -, h⟩ := Res.bind_eq_ok h
  cases h
  exact ⟨d, c, rfl⟩

/-- Everything a busy step can do, in every state (R107). -/
theorem step_busy {s t : State} (hq : s.phase.quiescent = false) (h : step s = .next t) :
    busyOutcome (nextPhases s.phase) s t := by
  unfold step stepWith at h
  cases hp : s.phase with
  | idle => simp [hp, Phase.quiescent] at hq
  | done => simp [hp, Phase.quiescent] at hq
  | error => simp [hp, Phase.quiescent] at hq
  | opening =>
    rw [hp] at h
    refine thenRun_outcome (fetchOpen_kept s) (fun i u hr he => ?_) h
    obtain ⟨c, -, hr⟩ := need_eq_ok hr
    obtain ⟨b, v, -, hr⟩ := Res.bind_eq_ok hr
    cases hr
    exact exec_open_outcome he
  | first =>
    rw [hp] at h
    refine thenRun_outcome (fetchCode_kept .first s) (fun i u hr he => ?_) h
    obtain ⟨d, c, rfl⟩ := fetchCode_class hr
    exact exec_first_outcome he
  | start =>
    rw [hp] at h
    refine thenRun_outcome (fetchCode_kept .start s) (fun i u hr he => ?_) h
    obtain ⟨d, c, rfl⟩ := fetchCode_class hr
    exact exec_start_outcome he
  | loop =>
    rw [hp] at h
    have hk := fetchCode_kept .loop s
    refine thenRun_outcome hk (fun i u hr he => ?_) h
    obtain ⟨d, c, rfl⟩ := fetchCode_class hr
    rw [hr] at hk
    exact exec_loop_outcome (hk.1.1.trans hp) he
  | term =>
    rw [hp] at h
    have hk := fetchTerm_kept s
    refine thenRun_outcome hk (fun i u hr he => ?_) h
    rw [hr] at hk
    obtain ⟨b, v, -, hr⟩ := Res.bind_eq_ok hr
    cases hr
    exact exec_term_outcome (hk.1.1.trans hp) he

end Sys2Proof.Machine
end

