-- ==== Sys2Proof/Laws/Exec.lean ====
section
/-! SUPPORT. What each instruction that runs on, and each step, does in a decode under way: the decode it leaves, or the
exception it takes. -/

namespace Sys2Proof.Machine

/-- An atomic entry is live. -/
theorem live_atomic {m ci i : Nat} (h : i < 2 ^ m) : live m ci i := .inl h

/-- A live entry stays live when the dictionary grows. -/
theorem live_succ {m ci i : Nat} (h : live m ci i) : live m (ci + 1) i := by
  rcases h with h | ⟨h1, h2⟩
  · exact .inl h
  · exact .inr ⟨h1, by omega⟩

/-- Everything DICT_ADD can do with a live prefix in a decode under way (R89, R90). -/
theorem dictAdd_cases {m ci : Nat} {s : State} {o : Code} {b : Byte} (hd : dictOk m ci s.dict)
    (ho : live m ci o.toNat) (hb : b.toNat < 2 ^ m) :
    (ci = 4096 ∧ dictAdd (linkOfCode o) b s = .ok none s) ∨
      (ci < 4096 ∧ ∃ n, storeGet s.dict.lens o.toNat = some (BitVec.ofNat 13 n) ∧ 1 ≤ n ∧ n ≤ 4091 ∧
        dictAdd (linkOfCode o) b s = .ok (some ci) (s.setDict (addedDict m ci o.toNat b n s.dict)) ∧
        dictOk m (ci + 1) (addedDict m ci o.toNat b n s.dict)) := by
  obtain ⟨n, h1, h2, h3, h4, h5⟩ := live_length hd ho
  have hlt := live_lt hd ho
  have hci := hd.2.2.1
  have hmax := hd.2.2.2.1
  by_cases hf : ci = 4096
  · subst hf
    exact .inl ⟨rfl, dictAdd_frozen _ _ hd⟩
  · refine .inr ⟨by omega, n, h1, h2, h3, dictAdd_ok b hd (by omega) h1 (by omega),
      addedDict_ok hd (by omega) ho h1 h2 ?_ hb⟩
    rcases ho with ho | ho
    · have := h4 ho
      omega
    · have := h5 ho.1
      omega

/-- PAINT of a live entry answers where every visible byte above the bottom has a colour (R128). -/
theorem paint_answers {c : Cfg} {m ci i : Nat} {s : State} {str : List Byte} (hr : running c m ci s) (h : live m ci i)
    (hs : entryString 4096 s.dict i = some str) (hcol : colorsInRange c (str.take (room c s.dp))) :
    ∃ pb fb dp, paint i s = .ok () (((s.setPb pb).setFb fb).setDp dp) ∧ dp.old = s.dp.old := by
  obtain ⟨str', hs', h1⟩ := paint_cases hr h
  rw [hs] at hs'
  cases hs'
  rcases h1 with ⟨pb, fb, dp, e1, e2, e3, e4, -⟩ | ⟨pb, fb, dp, e1, -, -, e4⟩
  · exact ⟨pb, fb, dp, e1, e4⟩
  · exact absurd hcol e4

/-- PAINT of a live entry raises where a visible byte above the bottom has no colour (R128). -/
theorem paint_raises {c : Cfg} {m ci i : Nat} {s : State} {str : List Byte} (hr : running c m ci s) (h : live m ci i)
    (hs : entryString 4096 s.dict i = some str) (hcol : ¬ colorsInRange c (str.take (room c s.dp))) :
    ∃ u, paint i s = .raised (.malformed .colorIndexOutOfRange) u ∧ u.cfg = s.cfg ∧
      ∀ a, outsideRectangle c a → u.fbRead a = s.fbRead a := by
  obtain ⟨str', hs', h1⟩ := paint_cases hr h
  rw [hs] at hs'
  cases hs'
  rcases h1 with ⟨pb, fb, dp, e1, -, -, -, -, -, e4, -⟩ | ⟨pb, fb, dp, e1, -, e3, e4⟩
  · exact absurd e4 hcol
  · exact ⟨_, e1, rfl, e3⟩

/-- An abort taken by an instruction of a decode under way. -/
def abortsOn (s : State) (o : Out) : Prop := ∃ u, o = .next (abort (.malformed .colorIndexOutOfRange) u) ∧ Kept s u

theorem paint_raised_kept {i : Nat} {s u : State} {e : Exc} (h : paint i s = .raised e u) : Kept s u := by
  have := paint_kept i s
  rw [h] at this
  exact this.1

/-- START_LITERAL on an atomic code (R109). -/
theorem startLiteral_running {c : Cfg} {m ci : Nat} {s : State} {v : Code} (hr : running c m ci s)
    (hv : v.toNat < 2 ^ m) :
    (∃ t, execStartLiteral v s = .next t ∧ t.phase = .loop ∧ running c m ci t ∧ oldLive m ci t ∧ t.br = s.br ∧
        t.input = s.input) ∨
      abortsOn s (execStartLiteral v s) := by
  obtain ⟨str, -, h⟩ := paint_cases hr (live_atomic hv)
  rcases h with ⟨pb, fb, dp, hp, h1, -⟩ | ⟨pb, fb, dp, hp, -⟩
  · refine .inl ⟨(setOld v (((s.setPb pb).setFb fb).setDp dp)).setPhase .loop,
      by rw [execStartLiteral, hp, Res.bind_ok, Res.finish_ok], rfl, ?_, ⟨v, rfl, live_atomic hv⟩, rfl, rfl⟩
    exact ⟨hr.1, hr.2.1, hr.2.2.1, h1⟩
  · exact .inr ⟨_, by rw [execStartLiteral, hp, Res.bind_raised, Res.finish_raised], paint_raised_kept hp⟩

/-- EXISTING on a live code (R111). -/
theorem existing_running {c : Cfg} {m ci : Nat} {s : State} {v : Code} (hr : running c m ci s) (ho : oldLive m ci s)
    (hv : live m ci v.toNat) :
    (∃ t ci', execExisting v s = .next t ∧ t.phase = s.phase ∧ running c m ci' t ∧ oldLive m ci' t ∧
        ci' = min (ci + 1) 4096 ∧ t.br = s.br ∧ t.input = s.input) ∨
      abortsOn s (execExisting v s) := by
  obtain ⟨str, -, h⟩ := paint_cases hr hv
  obtain ⟨o, ho1, ho2⟩ := ho
  rcases h with ⟨pb, fb, dp, hp, h1, h2, h3, -⟩ | ⟨pb, fb, dp, hp, -⟩
  · left
    have hd : dictOk m ci (((s.setPb pb).setFb fb).setDp dp).dict := hr.2.2.1
    obtain ⟨b, bs, hf, -, hb⟩ := firstByte_ok hd hv
    rcases dictAdd_cases hd ho2 hb with ⟨rfl, ha⟩ | ⟨hlt, n, hn, -, -, ha, hd'⟩
    · refine ⟨setOld v (((s.setPb pb).setFb fb).setDp dp), 4096, ?_, ?_, ?_, ⟨v, rfl, hv⟩, by omega, rfl, rfl⟩
      · rw [execExisting, hp, Res.bind_ok, hf, Res.bind_ok]
        simp only [State.setDp_dp, h3, ho1, need_some, ha, Res.bind_ok, Res.finish_ok]
      · rfl
      · exact ⟨hr.1, hr.2.1, hr.2.2.1, h1⟩
    · refine ⟨setOld v ((((s.setPb pb).setFb fb).setDp dp).setDict (addedDict m ci o.toNat b n s.dict)), ci + 1,
        ?_, ?_, ?_, ⟨v, rfl, live_succ hv⟩, by omega, rfl, rfl⟩
      · rw [execExisting, hp, Res.bind_ok, hf, Res.bind_ok]
        simp only [State.setDp_dp, h3, ho1, need_some, ha, Res.bind_ok, Res.finish_ok]
        rfl
      · rfl
      · exact ⟨hr.1, hr.2.1, hd', h1⟩
  · exact .inr ⟨_, by rw [execExisting, hp, Res.bind_raised, Res.finish_raised], paint_raised_kept hp⟩

/-- KWKWK on the code of the next free slot (R112). -/
theorem kwkwk_running {c : Cfg} {m ci : Nat} {s : State} {v : Code} (hr : running c m ci s) (ho : oldLive m ci s)
    (hv : v.toNat = ci) :
    (∃ t, execKwkwk v s = .next t ∧ t.phase = s.phase ∧ running c m (ci + 1) t ∧ oldLive m (ci + 1) t ∧ t.br = s.br ∧
        t.input = s.input) ∨
      abortsOn s (execKwkwk v s) := by
  obtain ⟨o, ho1, ho2⟩ := ho
  have hv4 := v.isLt
  have hci := hr.2.2.1.2.2.1
  obtain ⟨b, bs, hf, -, hb⟩ := firstByte_ok hr.2.2.1 ho2
  rcases dictAdd_cases hr.2.2.1 ho2 hb with ⟨rfl, ha⟩ | ⟨hlt, n, hn, -, -, ha, hd'⟩
  · omega
  · have hr' : running c m (ci + 1) (s.setDict (addedDict m ci o.toNat b n s.dict)) := ⟨hr.1, hr.2.1, hd', hr.2.2.2⟩
    have hl : live m (ci + 1) ci := .inr ⟨by omega, by omega⟩
    obtain ⟨str, -, h⟩ := paint_cases hr' hl
    have hk := dictAdd_kept (linkOfCode o) b s
    rw [ha] at hk
    have he : execKwkwk v s =
        Res.finish ((paint ci (s.setDict (addedDict m ci o.toNat b n s.dict))).bind fun _ s => .ok () (setOld v s)) := by
      simp only [execKwkwk, ho1, need_some, hf, Res.bind_ok, ha]
    rcases h with ⟨pb, fb, dp, hp, h1, -⟩ | ⟨pb, fb, dp, hp, -⟩
    · refine .inl ⟨setOld v ((((s.setDict (addedDict m ci o.toNat b n s.dict)).setPb pb).setFb fb).setDp dp),
        by rw [he, hp, Res.bind_ok, Res.finish_ok], rfl, ?_, ⟨v, rfl, hv ▸ hl⟩, rfl, rfl⟩
      exact ⟨hr.1, hr.2.1, hd', h1⟩
    · exact .inr ⟨_, by rw [he, hp, Res.bind_raised, Res.finish_raised],
        hk.trans (paint_raised_kept hp)⟩

/-! ### Steps of a decode under way -/

/-- A step that takes an exception. -/
def stepAborts (s : State) : Prop := ∃ e u, step s = .next (abort e u) ∧ e ≠ .malformed .none

theorem streamEnd_ne (s : State) : streamEnd s ≠ .malformed .none := by
  rcases streamEnd_cases s with h | h <;> rw [h] <;> decide

/-- The bits ahead depend on the bit reader and IN only. -/
theorem bitsAhead_congr {s t : State} (h : t.br = s.br) (k : t.input = s.input) : bitsAhead t = bitsAhead s := by
  rw [bitsAhead, bitsAhead, h, k]

/-- Every step of FIRST (R108): START with the code's bits used up, or an exception. -/
theorem step_first {s : State} {c : Cfg} {m : Nat} (hp : s.phase = .first) (hr : running c m (2 ^ m + 2) s) :
    (∃ t, step s = .next t ∧ t.phase = .start ∧ running c m (2 ^ m + 2) t ∧ t.input = s.input ∧
        bitsAhead t + 3 ≤ bitsAhead s) ∨
      stepAborts s := by
  have hb := (widthFor_bounds (2 ^ m + 2) hr.2.2.1.1 hr.2.2.1.2.1).1
  have hs : step s = (fetchCode .first s).thenRun exec := step_code (by rw [hp]; rfl)
  rcases fetchCode_cases .first hr with ⟨v, br, a1, a2, -, -, -, -, a7⟩ | ⟨br, a1, -⟩
  · rw [a1, Res.thenRun_ok, decodeCode] at hs
    split at hs
    · refine .inl ⟨_, hs, rfl, a2, rfl, ?_⟩
      exact le_trans (Nat.add_le_add_left hb (bitsAhead (s.setBr br))) a7
    · exact .inr ⟨_, _, hs, by decide⟩
  · rw [a1] at hs
    exact .inr ⟨_, _, hs, streamEnd_ne s⟩

/-- Every step of START (R109): LOOP with OLD a live entry and the code's bits used up, or an exception. -/
theorem step_start {s : State} {c : Cfg} {m : Nat} (hp : s.phase = .start) (hr : running c m (2 ^ m + 2) s) :
    (∃ t, step s = .next t ∧ t.phase = .loop ∧ running c m (2 ^ m + 2) t ∧ oldLive m (2 ^ m + 2) t ∧
        t.input = s.input ∧ bitsAhead t + 3 ≤ bitsAhead s) ∨
      stepAborts s := by
  have hb := (widthFor_bounds (2 ^ m + 2) hr.2.2.1.1 hr.2.2.1.2.1).1
  have hs : step s = (fetchCode .start s).thenRun exec := step_code (by rw [hp]; rfl)
  rcases fetchCode_cases .start hr with ⟨v, br, a1, a2, -, -, -, -, a7⟩ | ⟨br, a1, -⟩
  · rw [a1, Res.thenRun_ok, decodeCode] at hs
    split at hs
    · rename_i hlt
      rcases startLiteral_running a2 hlt with ⟨t, h1, h2, h3, h4, h5, h6⟩ | ⟨u, h1, -⟩
      · refine .inl ⟨t, hs.trans h1, h2, h3, h4, h6, ?_⟩
        rw [bitsAhead_congr (s := s.setBr br) h5 h6]
        omega
      · exact .inr ⟨_, _, hs.trans h1, by decide⟩
    · exact .inr ⟨_, _, hs, by decide⟩
  · rw [a1] at hs
    exact .inr ⟨_, _, hs, streamEnd_ne s⟩

/-- The dictionary after a CLEAR is that of a decode just opened (R110). -/
theorem clear_running {c : Cfg} {m ci : Nat} {s : State} (hr : running c m ci s) :
    ∃ t, execClear s = .next t ∧ t.phase = .start ∧ running c m (2 ^ m + 2) t ∧ t.br = s.br ∧ t.input = s.input := by
  refine ⟨(s.setDict (resetRegisters (BitVec.ofNat 4 m) s.dict)).setPhase .start, ?_, rfl, ?_, rfl, rfl⟩
  · rw [execClear, dictReset_ok hr.2.2.1, Res.bind_ok, Res.finish_ok]
  · exact ⟨hr.1, hr.2.1, resetRegisters_ok hr.2.2.1, hr.2.2.2⟩

/-- Every step of LOOP (R110 to R114): it goes on in LOOP with a larger or frozen dictionary, or to START with a fresh one,
or to TERM; the code's bits are used up; or it takes an exception. -/
theorem step_loop {s : State} {c : Cfg} {m ci : Nat} (hp : s.phase = .loop) (hr : running c m ci s) (ho : oldLive m ci s) :
    (∃ t, step s = .next t ∧ t.input = s.input ∧ bitsAhead t + 3 ≤ bitsAhead s ∧
        ((t.phase = .loop ∧ running c m (min (ci + 1) 4096) t ∧ oldLive m (min (ci + 1) 4096) t) ∨
          (t.phase = .start ∧ running c m (2 ^ m + 2) t) ∨ (t.phase = .term ∧ running c m ci t))) ∨
      stepAborts s := by
  have hb := (widthFor_bounds ci hr.2.2.1.1 hr.2.2.1.2.1).1
  have hci := hr.2.2.1.2.2.1
  have hs : step s = (fetchCode .loop s).thenRun exec := step_code (by rw [hp]; rfl)
  rcases fetchCode_cases .loop hr with ⟨v, br, a1, a2, -, -, -, -, a7⟩ | ⟨br, a1, -⟩
  · rw [a1, Res.thenRun_ok, decodeCode] at hs
    have ho2 : oldLive m ci ((s.setBr br).setDp { s.dp with index := some v }) := ho
    have hv4 := v.isLt
    split at hs
    · refine .inl ⟨_, hs, rfl, ?_, .inr (.inr ⟨rfl, a2⟩)⟩
      exact le_trans (Nat.add_le_add_left hb (bitsAhead (s.setBr br))) a7
    · rename_i he
      split at hs
      · obtain ⟨t, h1, h2, h3, h4, h5⟩ := clear_running a2
        refine .inl ⟨t, hs.trans h1, h5, ?_, .inr (.inl ⟨h2, h3⟩)⟩
        rw [bitsAhead_congr (s := s.setBr br) h4 h5]
        omega
      · rename_i hc
        simp only [viewOf] at he hc
        split at hs
        · rename_i hlt
          simp only [viewOf] at hlt
          have hl : live m ci v.toNat := by
            by_cases h : v.toNat < 2 ^ m
            · exact .inl h
            · exact .inr ⟨by omega, hlt⟩
          rcases existing_running a2 ho2 hl with ⟨t, ci', h1, h2, h3, h4, rfl, h5, h6⟩ | ⟨u, h1, -⟩
          · refine .inl ⟨t, hs.trans h1, h6, ?_, .inl ⟨h2.trans hp, h3, h4⟩⟩
            rw [bitsAhead_congr (s := s.setBr br) h5 h6]
            omega
          · exact .inr ⟨_, _, hs.trans h1, by decide⟩
        · split at hs
          · rename_i hk
            simp only [viewOf] at hk
            rcases kwkwk_running a2 ho2 hk with ⟨t, h1, h2, h3, h4, h5, h6⟩ | ⟨u, h1, -⟩
            · have hm : ci + 1 = min (ci + 1) 4096 := by omega
              refine .inl ⟨t, hs.trans h1, h6, ?_, .inl ⟨h2.trans hp, hm ▸ h3, hm ▸ h4⟩⟩
              rw [bitsAhead_congr (s := s.setBr br) h5 h6]
              omega
            · exact .inr ⟨_, _, hs.trans h1, by decide⟩
          · exact .inr ⟨_, _, hs, by decide⟩
  · rw [a1] at hs
    exact .inr ⟨_, _, hs, streamEnd_ne s⟩

/-- Every step of TERM (R115): DONE with everything released, or an exception. -/
theorem step_term_cases {s : State} (hp : s.phase = .term) (hr : readerOk s) :
    (∃ e, step s = .next { release s with endPos := some e, status := Status.success, phase := .done }) ∨ stepAborts s := by
  obtain ⟨ha, p, n, k, h1, h2, h3, hle, -⟩ := hr
  rcases fetchTerm_cases ha (Nat.lt_of_le_of_lt hle ha) h1 h2 with ⟨b, -, h4⟩ | ⟨-, br, h4⟩
  · have hs : step s = exec (decodeByte .terminator b) (s.setBr { s.br with pos := some (p + n.toNat + 1) }) := by
      rw [step_term hp, h4, Res.thenRun_ok]
    rw [decodeByte] at hs
    split at hs
    · exact .inl ⟨_, hs⟩
    · exact .inr ⟨_, _, hs, by decide⟩
  · exact .inr ⟨_, _, by rw [step_term hp, h4, Res.thenRun_raised], by decide⟩

/-- MINCODESIZE on a released block (R103, R155): a decode under way, with the reader at the first length byte. -/
theorem minCodeSize_running {s : State} {c : Cfg} {b : Byte} {p : Nat} (ha : addressable s) (hc : configured c s)
    (hd : s.dict = Dict.released)
    (h2 : 2 ≤ b.toNat) (h8 : b.toNat ≤ 8) (hp : s.br.pos = some p) :
    (∃ t, execMinCodeSize b s = .next t ∧ t.phase = .first ∧ running c b.toNat (2 ^ b.toNat + 2) t ∧ t.input = s.input ∧
        bitsAhead t ≤ 8 * s.input.length) ∨
      ∃ u, execMinCodeSize b s = .next (abort .eof u) := by
  obtain ⟨d, hi, hok⟩ := dictInit_ok h2 h8 hd
  have hb : BitVec.truncate 4 b = BitVec.ofNat 4 b.toNat := BitVec.eq_of_toNat_eq (by simp)
  have hcfg : (s.setDict d).cfg = some c := hc.1
  rw [execMinCodeSize, hb, hi, Res.bind_ok, hcfg, need_some, brOpen]
  rcases inRead_cases (s := (s.setDict d).setDp (openDatapath c (s.setDict d).dp)) (p := p) ha hp with
    ⟨v, hv, hlt, h⟩ | ⟨-, h⟩
  · have hlt' : p < s.input.length := hlt
    rw [h, Res.bind_ok, loadFirstLen, Res.bind_ok, Res.finish_ok]
    refine .inl ⟨_, rfl, rfl, ⟨hc, ?_, hok, openDatapath_ok c _⟩, rfl, ?_⟩
    · exact ⟨ha, p + 1, v, 0, rfl, rfl, rfl, hlt', by decide, fun h => absurd rfl h⟩
    · have h0 : (0 : BitVec 4).toNat = 0 := by decide
      show 8 * (s.input.length - (p + 1)) + (0 : BitVec 4).toNat ≤ 8 * s.input.length
      omega
  · rw [h, Res.bind_raised, Res.bind_raised, Res.finish_raised]
    exact .inr ⟨_, rfl⟩

/-- Every step of OPEN (R103): FIRST, or an exception. -/
theorem step_open {s : State} {c : Cfg} (hp : s.phase = .opening) (ha : addressable s) (hc : configured c s)
    (hr : released s) :
    (∃ t m, step s = .next t ∧ t.phase = .first ∧ running c m (2 ^ m + 2) t ∧ t.input = s.input ∧
        bitsAhead t ≤ 8 * s.input.length) ∨
      stepAborts s := by
  rcases fetchOpen_cases ha hc.1 with ⟨b, -, h⟩ | ⟨-, br, h⟩
  · have hs : step s = exec (decodeByte .openByte b) (s.setBr { s.br with pos := some (c.startPos + 1) }) := by
      rw [step_opening hp, h, Res.thenRun_ok]
    rw [decodeByte] at hs
    split at hs
    · rename_i hb
      obtain ⟨h2, h8⟩ := (legalMinCodeSize_iff b).1 hb
      rcases minCodeSize_running (s := s.setBr { s.br with pos := some (c.startPos + 1) }) ha hc hr.2.1 h2 h8 rfl with
        ⟨t, k1, k2, k3, k4, k5⟩ | ⟨u, k1⟩
      · exact .inl ⟨t, b.toNat, hs.trans k1, k2, k3, k4, k5⟩
      · exact .inr ⟨_, _, hs.trans k1, by decide⟩
    · exact .inr ⟨_, _, hs, by decide⟩
  · exact .inr ⟨_, _, by rw [step_opening hp, h, Res.thenRun_raised], by decide⟩

/-! ### The frame outside the rectangle -/

/-- No byte of FB outside rectangle and canvas differs. -/
def keepsOut (c : Cfg) (s t : State) : Prop := ∀ a, outsideRectangle c a → t.fbRead a = s.fbRead a

theorem abort_out {c : Cfg} {s u : State} {e : Exc} (hc : u.cfg = some c) (h : keepsOut c s u) : keepsOut c s (abort e u) :=
  fun a ha => (abort_other hc ha).trans (h a ha)

/-- No code of a decode under way changes FB outside rectangle and canvas, an abort included (R132, R148). -/
theorem code_out {c : Cfg} {m ci : Nat} {s t : State} {p : CodePlace} {v : Code} (hr : running c m ci s) (ho : p = .loop → oldLive m ci s)
    (h : exec (decodeCode p (viewOf m ci) v) s = .next t) : keepsOut c s t := by
  have hself : keepsOut c s s := fun _ _ => rfl
  have hcfg := hr.1.1
  have hci := hr.2.2.1.2.2.1
  have hv4 := v.isLt
  cases p with
  | first =>
    simp only [decodeCode] at h
    split at h
    · cases h; exact hself
    · cases h; exact abort_out hcfg hself
  | start =>
    simp only [decodeCode] at h
    split at h
    · rename_i hv
      simp only [exec, execStartLiteral] at h
      obtain ⟨str, -, h1⟩ := paint_cases hr (live_atomic hv)
      rcases h1 with ⟨pb, fb, dp, hp, -, -, -, -, h6, -⟩ | ⟨pb, fb, dp, hp, -, h6, -⟩
      · rw [hp, Res.bind_ok, Res.finish_ok] at h; cases h; exact h6
      · rw [hp, Res.bind_raised, Res.finish_raised] at h; cases h; exact abort_out hcfg h6
    · cases h; exact abort_out hcfg hself
  | loop =>
    obtain ⟨o, ho1, ho2⟩ := ho rfl
    simp only [decodeCode] at h
    split at h
    · cases h; exact hself
    · rename_i he
      split at h
      · obtain ⟨t', h1, -⟩ := clear_running hr
        simp only [exec, execClear, dictReset_ok hr.2.2.1, Res.bind_ok, Res.finish_ok] at h
        cases h; exact hself
      · rename_i hc
        simp only [viewOf] at he hc
        split at h
        · rename_i hlt
          simp only [viewOf] at hlt
          have hl : live m ci v.toNat := by
            by_cases h : v.toNat < 2 ^ m
            · exact .inl h
            · exact .inr ⟨by omega, hlt⟩
          simp only [exec, execExisting] at h
          obtain ⟨str, -, h1⟩ := paint_cases hr hl
          rcases h1 with ⟨pb, fb, dp, hp, -, -, h3, -, h6, -⟩ | ⟨pb, fb, dp, hp, -, h6, -⟩
          · have hd : dictOk m ci (((s.setPb pb).setFb fb).setDp dp).dict := hr.2.2.1
            obtain ⟨b, bs, hf, -, hb⟩ := firstByte_ok hd hl
            rw [hp, Res.bind_ok, hf, Res.bind_ok] at h
            rcases dictAdd_cases hd ho2 hb with ⟨rfl, ha⟩ | ⟨hlt, n, hn, -, -, ha, hd'⟩
            · simp only [State.setDp_dp, h3, ho1, need_some, ha, Res.bind_ok, Res.finish_ok] at h
              cases h; exact h6
            · simp only [State.setDp_dp, h3, ho1, need_some, ha, Res.bind_ok, Res.finish_ok] at h
              cases h; exact h6
          · rw [hp, Res.bind_raised, Res.finish_raised] at h; cases h; exact abort_out hcfg h6
        · split at h
          · rename_i hk
            simp only [viewOf] at hk
            obtain ⟨b, bs, hf, -, hb⟩ := firstByte_ok hr.2.2.1 ho2
            rcases dictAdd_cases hr.2.2.1 ho2 hb with ⟨rfl, ha⟩ | ⟨hlt, n, hn, -, -, ha, hd'⟩
            · omega
            · have hr' : running c m (ci + 1) (s.setDict (addedDict m ci o.toNat b n s.dict)) := ⟨hr.1, hr.2.1, hd', hr.2.2.2⟩
              have hl : live m (ci + 1) ci := .inr ⟨by omega, by omega⟩
              obtain ⟨str, -, h1⟩ := paint_cases hr' hl
              simp only [exec, execKwkwk, ho1, need_some, hf, Res.bind_ok, ha] at h
              rcases h1 with ⟨pb, fb, dp, hp, -, -, -, -, h6, -⟩ | ⟨pb, fb, dp, hp, -, h6, -⟩
              · rw [hp, Res.bind_ok, Res.finish_ok] at h; cases h; exact h6
              · rw [hp, Res.bind_raised, Res.finish_raised] at h; cases h; exact abort_out hcfg h6
          · cases h; exact abort_out hcfg hself

/-- Nor does a step of FIRST, START or LOOP. -/
theorem codeStep_out {c : Cfg} {m ci : Nat} {s t : State} {p : CodePlace} (hp : codePlaceOf s.phase = some p) (hr : running c m ci s) (ho : p = .loop → oldLive m ci s) (h : step s = .next t) : keepsOut c s t := by
  rw [step_code hp] at h
  rcases fetchCode_cases p hr with ⟨v, br, a1, a2, -⟩ | ⟨br, a1, -⟩
  · rw [a1, Res.thenRun_ok] at h
    have ho2 : p = .loop → oldLive m ci ((s.setBr br).setDp { s.dp with index := some v }) := ho
    exact code_out (s := (s.setBr br).setDp { s.dp with index := some v }) a2 ho2 h
  · rw [a1] at h
    cases h
    exact abort_out hr.1.1 fun _ _ => rfl

/-- From every state that meets the invariant no step faults: no rule reads a register or an element that holds ⊥ (U9, U10,
R155), whatever the host's moves are. -/
theorem step_never_faults {s : State} (h : Inv s) (f : Fault) : step s ≠ .fault f := by
  obtain ⟨-, -, hph, hadr, -⟩ := h
  have hnext : (∃ t, step s = .next t) → step s ≠ .fault f := fun ⟨t, e⟩ => by simp [e]
  have hab : stepAborts s → step s ≠ .fault f := fun ⟨e, u, k, _⟩ => hnext ⟨_, k⟩
  unfold phaseOk at hph
  by_cases hq : s.phase.quiescent = true
  · rw [step_quiescent hq]
    unfold hostStep
    split
    · simp
    · simp only [exec, execStart]
      split
      · simp
      · split <;> simp
    all_goals simp
  · cases hp : s.phase <;> rw [hp] at hph hq
    · exact absurd rfl hq
    · obtain ⟨hr, c, hc⟩ := hph
      exact (step_open hp hadr hc hr).elim (fun ⟨t, _, k, _⟩ => hnext ⟨t, k⟩) hab
    · obtain ⟨c, m, hr⟩ := hph
      exact (step_first hp hr).elim (fun ⟨t, k, _⟩ => hnext ⟨t, k⟩) hab
    · obtain ⟨c, m, hr⟩ := hph
      exact (step_start hp hr).elim (fun ⟨t, k, _⟩ => hnext ⟨t, k⟩) hab
    · obtain ⟨c, m, ci, hr, ho⟩ := hph
      exact (step_loop hp hr ho).elim (fun ⟨t, k, _⟩ => hnext ⟨t, k⟩) hab
    · obtain ⟨c, m, ci, hr⟩ := hph
      exact (step_term_cases hp hr.2.1).elim (fun ⟨_, k⟩ => hnext ⟨_, k⟩) hab
    · exact absurd rfl hq
    · exact absurd rfl hq

end Sys2Proof.Machine
end

