-- ==== Sys2Proof/Laws/PerInstr.lean ====
section
/-! SUPPORT. Statements about every instruction as syntax, one lemma per constructor. -/

namespace Sys2Proof.Laws.EncodeWidth

/-- Where the instruction may stand, it has a value, the value fits the place's width, and its encoding has exactly that
many bits (30_encoding.md R63, R71, R72). START may stand nowhere in the stream (60_exceptions.md R139). -/
def Statement (i : Instr) : Prop :=
  ∀ x, i.wellFormed x = true →
    (encode x i).length = x.bitWidth ∧ ∃ v, i.value x = some v ∧ v < 2 ^ x.bitWidth

theorem length_valueBits (n v : Nat) : (valueBits n v).length = n := by
  induction n generalizing v with
  | zero => rfl
  | succ n ih => simp [valueBits, ih]

/-- An instruction whose value fits has an encoding of the place's width. -/
theorem of_value {x : Context} {i : Instr} {v : Nat} (h : i.value x = some v) (hv : v < 2 ^ x.bitWidth) :
    (encode x i).length = x.bitWidth ∧ ∃ v, i.value x = some v ∧ v < 2 ^ x.bitWidth := by
  refine ⟨?_, v, h, hv⟩
  rw [encode, h]
  exact length_valueBits _ _

theorem wf_bounds {d : CodeView} (h : d.wf = true) : d.clearCode < 2 ^ d.width ∧ d.eoiCode < 2 ^ d.width := by
  have := (CodeView.wf_iff d).1 h
  omega

theorem firstClear : Statement .firstClear := by
  intro x h
  cases x with
  | byte p => simp [Instr.wellFormed, Instr.wfAtByte] at h
  | code p d =>
    simp only [Instr.wellFormed, Bool.and_eq_true] at h
    exact of_value rfl (wf_bounds h.1).1

theorem firstBad (c : Code) : Statement (.firstBad c) := by
  intro x h
  cases x with
  | byte p => simp [Instr.wellFormed, Instr.wfAtByte] at h
  | code p d =>
    simp only [Instr.wellFormed, Instr.wfAtCode, fitsWidth, Bool.and_eq_true, decide_eq_true_eq] at h
    exact of_value rfl h.2.1.2

theorem startLiteral (c : Code) : Statement (.startLiteral c) := by
  intro x h
  cases x with
  | byte p => simp [Instr.wellFormed, Instr.wfAtByte] at h
  | code p d =>
    simp only [Instr.wellFormed, Instr.wfAtCode, Bool.and_eq_true, decide_eq_true_eq] at h
    exact of_value rfl (lt_trans h.2.2 (wf_bounds h.1).1)

theorem startBad (c : Code) : Statement (.startBad c) := by
  intro x h
  cases x with
  | byte p => simp [Instr.wellFormed, Instr.wfAtByte] at h
  | code p d =>
    simp only [Instr.wellFormed, Instr.wfAtCode, fitsWidth, Bool.and_eq_true, decide_eq_true_eq] at h
    exact of_value rfl h.2.1.2

theorem eoi : Statement .eoi := by
  intro x h
  cases x with
  | byte p => simp [Instr.wellFormed, Instr.wfAtByte] at h
  | code p d =>
    simp only [Instr.wellFormed, Bool.and_eq_true] at h
    exact of_value rfl (wf_bounds h.1).2

theorem clear : Statement .clear := by
  intro x h
  cases x with
  | byte p => simp [Instr.wellFormed, Instr.wfAtByte] at h
  | code p d =>
    simp only [Instr.wellFormed, Bool.and_eq_true] at h
    exact of_value rfl (wf_bounds h.1).1

theorem existing (c : Code) : Statement (.existing c) := by
  intro x h
  cases x with
  | byte p => simp [Instr.wellFormed, Instr.wfAtByte] at h
  | code p d =>
    simp only [Instr.wellFormed, Instr.wfAtCode, fitsWidth, Bool.and_eq_true, decide_eq_true_eq] at h
    exact of_value rfl h.2.1.1.1.2

theorem kwkwk (c : Code) : Statement (.kwkwk c) := by
  intro x h
  cases x with
  | byte p => simp [Instr.wellFormed, Instr.wfAtByte] at h
  | code p d =>
    simp only [Instr.wellFormed, Instr.wfAtCode, fitsWidth, Bool.and_eq_true, decide_eq_true_eq] at h
    exact of_value rfl h.2.1.2

theorem invalid (c : Code) : Statement (.invalid c) := by
  intro x h
  cases x with
  | byte p => simp [Instr.wellFormed, Instr.wfAtByte] at h
  | code p d =>
    simp only [Instr.wellFormed, Instr.wfAtCode, fitsWidth, Bool.and_eq_true, decide_eq_true_eq] at h
    exact of_value rfl h.2.1.2

/-- A byte token's value is a byte. -/
theorem of_byte {x : Context} {i : Instr} {b : Byte} (h : i.wellFormed x = true) (hc : ∀ p d, i.wfAtCode p d = false)
    (hv : i.value x = some b.toNat) : (encode x i).length = x.bitWidth ∧ ∃ v, i.value x = some v ∧ v < 2 ^ x.bitWidth := by
  cases x with
  | byte p => exact of_value hv b.isLt
  | code p d => simp [Instr.wellFormed, hc] at h

theorem minCodeSize (b : Byte) : Statement (.minCodeSize b) := fun _ h => of_byte h (fun _ _ => rfl) rfl

theorem minCodeSizeBad (b : Byte) : Statement (.minCodeSizeBad b) := fun _ h => of_byte h (fun _ _ => rfl) rfl

theorem firstLen (b : Byte) : Statement (.firstLen b) := fun _ h => of_byte h (fun _ _ => rfl) rfl

theorem subblockLen (b : Byte) : Statement (.subblockLen b) := fun _ h => of_byte h (fun _ _ => rfl) rfl

theorem midstreamTerminator : Statement .midstreamTerminator :=
  fun _ h => of_byte (b := 0) h (fun _ _ => rfl) rfl

theorem data (b : Byte) : Statement (.data b) := fun _ h => of_byte h (fun _ _ => rfl) rfl

theorem terminator : Statement .terminator := fun _ h => of_byte (b := 0) h (fun _ _ => rfl) rfl

theorem badTerminator (b : Byte) : Statement (.badTerminator b) := fun _ h => of_byte h (fun _ _ => rfl) rfl

theorem start (cfg : Cfg) : Statement (.start cfg) := by
  intro x h
  cases x with
  | byte p => simp [Instr.wellFormed, Instr.wfAtByte] at h
  | code p d => simp [Instr.wellFormed, Instr.wfAtCode] at h

end Sys2Proof.Laws.EncodeWidth
end

