-- ==== Sys2Proof/Tests/Slice0.lean ====
section
/-! SUPPORT. The model's own tests. The expected results are those of 95_test_vectors.md (the vector is named), or are
worked by hand from the rule named; the last part has, for each statement with hypotheses, a state and operands that meet
them. -/

namespace Sys2Proof.Tests

open Sys2Proof.Machine

/-! ### Well-formedness: a term for each check, and one that the check refuses -/

/-- m = 2 just after a reset (R70): 3-bit codes, clearCode 4, eoiCode 5, currentIndex 6. -/
def view6 : CodeView := { width := 3, clearCode := 4, eoiCode := 5, currentIndex := 6 }

/-- The frozen dictionary of DI-10, m = 2. -/
def viewFrozen : CodeView := { width := 12, clearCode := 4, eoiCode := 5, currentIndex := 4096 }

theorem test_wf_view : view6.wf = true ∧ viewFrozen.wf = true := by decide

/-- The six checks of `CodeView.wf`, each refused alone. -/
theorem test_illformed_view :
    { view6 with width := 2 }.wf = false ∧ { view6 with width := 13 }.wf = false ∧
      { view6 with eoiCode := 4 }.wf = false ∧ { view6 with currentIndex := 5 }.wf = false ∧
      { viewFrozen with currentIndex := 4097 }.wf = false ∧
      { width := 3, clearCode := 8, eoiCode := 9, currentIndex := 10 : CodeView }.wf = false := by decide

theorem test_illformed_minCodeSize :
    (Instr.minCodeSize 1).wellFormed (.byte .openByte) = false ∧
      (Instr.minCodeSize 9).wellFormed (.byte .openByte) = false ∧
      (Instr.minCodeSizeBad 2).wellFormed (.byte .openByte) = false ∧
      (Instr.minCodeSizeBad 8).wellFormed (.byte .openByte) = false := by decide

theorem test_illformed_first :
    (Instr.firstClear).wellFormed (.code .start view6) = false ∧
      (Instr.firstBad 4).wellFormed (.code .first view6) = false ∧
      (Instr.firstBad 8).wellFormed (.code .first view6) = false ∧
      (Instr.firstBad 3).wellFormed (.code .loop view6) = false := by decide

theorem test_illformed_start :
    (Instr.startLiteral 4).wellFormed (.code .start view6) = false ∧
      (Instr.startLiteral 3).wellFormed (.code .loop view6) = false ∧
      (Instr.startBad 3).wellFormed (.code .start view6) = false ∧
      (Instr.startBad 8).wellFormed (.code .start view6) = false ∧
      (Instr.startBad 4).wellFormed (.code .first view6) = false := by decide

theorem test_illformed_loop :
    (Instr.existing 4).wellFormed (.code .loop view6) = false ∧
      (Instr.existing 5).wellFormed (.code .loop view6) = false ∧
      (Instr.existing 6).wellFormed (.code .loop view6) = false ∧
      (Instr.existing 3).wellFormed (.code .start view6) = false ∧
      (Instr.kwkwk 7).wellFormed (.code .loop view6) = false ∧
      (Instr.kwkwk 4096).wellFormed (.code .loop viewFrozen) = false ∧
      (Instr.invalid 6).wellFormed (.code .loop view6) = false ∧
      (Instr.invalid 8).wellFormed (.code .loop view6) = false ∧
      (Instr.eoi).wellFormed (.code .first view6) = false ∧ (Instr.clear).wellFormed (.code .start view6) = false := by
  decide

theorem test_illformed_byte :
    (Instr.subblockLen 0).wellFormed (.byte .refillLen) = false ∧
      (Instr.midstreamTerminator).wellFormed (.byte .firstLen) = false ∧
      (Instr.firstLen 0).wellFormed (.byte .refillLen) = false ∧
      (Instr.data 0).wellFormed (.byte .refillLen) = false ∧
      (Instr.terminator).wellFormed (.byte .refillLen) = false ∧
      (Instr.badTerminator 0).wellFormed (.byte .terminator) = false := by decide

/-- P1's CFG. -/
def cfg1 : Cfg :=
  { startPos := 0, left := 0, top := 0, width := 1, height := 1, canvasW := 1, canvasH := 1, ctLen := 2,
    gcePresent := false, transparentFlag := false, transparentIndex := 0 }

/-- START has no bit pattern (R139). -/
theorem test_illformed_start_command :
    (Instr.start cfg1).wellFormed (.byte .openByte) = false ∧ (Instr.start cfg1).wellFormed (.code .loop view6) = false ∧
      encode (.byte .openByte) (.start cfg1) = [] := by decide

/-! ### Decoding: a word of each row, written out bit by bit, LSB first (R63, R71, R72) -/

/-- P1's first code, 4 = clearCode. -/
theorem test_decode_firstClear : decode (.code .first view6) [false, false, true] = .ok (.firstClear, []) := by decide

/-- DE-2's first code, 0. -/
theorem test_decode_firstBad : decode (.code .first view6) [false, false, false] = .ok (.firstBad 0, []) := by decide

/-- P1's second code, 1; the next bit stays. -/
theorem test_decode_startLiteral :
    decode (.code .start view6) [true, false, false, true] = .ok (.startLiteral 1, [true]) := by decide

/-- DE-4's start code, 5. -/
theorem test_decode_startBad : decode (.code .start view6) [true, false, true] = .ok (.startBad 5, []) := by decide

/-- P1's last code, 5 = eoiCode. -/
theorem test_decode_eoi : decode (.code .loop view6) [true, false, true] = .ok (.eoi, []) := by decide

/-- P2's third code, 4 = clearCode. -/
theorem test_decode_clear : decode (.code .loop view6) [false, false, true] = .ok (.clear, []) := by decide

/-- P3's code 6 at currentIndex 7. -/
theorem test_decode_existing :
    decode (.code .loop { view6 with currentIndex := 7 }) [false, true, true] = .ok (.existing 6, []) := by decide

/-- P3's code 8 at currentIndex 8, four bits wide. -/
theorem test_decode_kwkwk :
    decode (.code .loop { view6 with width := 4, currentIndex := 8 }) [false, false, false, true] =
      .ok (.kwkwk 8, []) := by decide

/-- DE-10's code 7 at currentIndex 6. -/
theorem test_decode_invalid : decode (.code .loop view6) [true, true, true] = .ok (.invalid 7, []) := by decide

/-- P4's CLEAR of nine bits: a byte 00, then bit 0 of 03. -/
theorem test_decode_nine_bits :
    decode (.code .first { width := 9, clearCode := 256, eoiCode := 257, currentIndex := 258 })
      [false, false, false, false, false, false, false, false, true] = .ok (.firstClear, []) := by decide

/-- 08 is the largest minCodeSize, 09 the first beyond it (EX-3). -/
theorem test_decode_minCodeSize :
    decode (.byte .openByte) [false, false, false, true, false, false, false, false] = .ok (.minCodeSize 0x08, []) := by
  decide

theorem test_decode_minCodeSizeBad :
    decode (.byte .openByte) [true, false, false, true, false, false, false, false] =
      .ok (.minCodeSizeBad 0x09, []) := by decide

/-- EX-16's first length, 00, is no terminator (R83). -/
theorem test_decode_firstLen :
    decode (.byte .firstLen) [false, false, false, false, false, false, false, false] = .ok (.firstLen 0x00, []) := by
  decide

/-- EX-16's 3b met as a length. -/
theorem test_decode_subblockLen :
    decode (.byte .refillLen) [true, true, false, true, true, true, false, false] = .ok (.subblockLen 0x3B, []) := by
  decide

theorem test_decode_midstreamTerminator :
    decode (.byte .refillLen) [false, false, false, false, false, false, false, false] =
      .ok (.midstreamTerminator, []) := by decide

/-- P1's first data byte, 4c. -/
theorem test_decode_data :
    decode (.byte .refillData) [false, false, true, true, false, false, true, false] = .ok (.data 0x4C, []) := by decide

theorem test_decode_terminator :
    decode (.byte .terminator) [false, false, false, false, false, false, false, false] = .ok (.terminator, []) := by
  decide

/-- EX-10's 01 at the terminator check. -/
theorem test_decode_badTerminator :
    decode (.byte .terminator) [true, false, false, false, false, false, false, false] =
      .ok (.badTerminator 0x01, []) := by decide

/-- The decoder's three rejections, by name. -/
theorem test_decode_rejects :
    decode (.byte .openByte) [true, true, true, true, true, true, true] = .error .noByte ∧
      decode (.code .loop view6) [true, true] = .error .shortCode ∧
      decode (.code .loop { view6 with width := 13 }) [] = .error .codeWidth := by decide

/-- A table word is decoded as the terminator check does. -/
theorem test_decodeTableWord :
    decodeTableWord 8 0 = some .terminator ∧ decodeTableWord 8 255 = some (.badTerminator 0xFF) ∧
      decodeTableWord 8 256 = none ∧ decodeTableWord 9 0 = none := by decide

/-- A placed table word is the token that the next step runs (log entry 9). -/
theorem test_withFetchWord :
    (step (State.reset.withFetchWord 8 0) =
        exec .terminator { State.reset with phase := .term, input := [0],
                                            br := { BitReader.released with pos := some 1, bytesInBlock := some 0 } }) ∧
      step (State.reset.withFetchWord 8 0x3B) =
        exec (.badTerminator 0x3B)
          { State.reset with phase := .term, input := [0x3B],
                             br := { BitReader.released with pos := some 1, bytesInBlock := some 0 } } := ⟨rfl, rfl⟩

/-! ### Small states -/

/-- BW (95_test_vectors.md section 0): black, white. -/
def bw : List Rgb := [0x000000, 0xFFFFFF]

/-- A canvas and rectangle of 2×1, two colours. -/
def cfg2 : Cfg := { cfg1 with width := 2, canvasW := 2 }

/-- The dictionary after DICT_INIT(2) on a released one. -/
def dict6 : Dict := resetRegisters 2 (writeAtomic 4 { Dict.released with minCodeSize := some 2 })

/-- A decode of `cfg2` in the given phase, with the pen where OPEN puts it. -/
def stateAt (p : Phase) (d : Dict) (b : BitReader) (bytes : List Byte) : State :=
  { State.reset with
    phase := p
    cfg := some cfg2
    ct := bw
    dict := d
    br := b
    dp := openDatapath cfg2 Datapath.released
    input := bytes }

/-- BR as (pos, bytesInBlock, buffer, bitsLeft). -/
def reader (p : Nat) (n buf : Byte) (k : BitVec 4) : BitReader :=
  { pos := some p, bytesInBlock := some n, buffer := some buf, bitsLeft := some k }

/-- BR after BR_OPEN. -/
def opened (p : Nat) (n : Byte) : BitReader :=
  { pos := some p, bytesInBlock := some n, buffer := none, bitsLeft := some 0 }

/-- A LOOP state with OLD = `o`, whose code comes from the buffer. -/
def loopState (d : Dict) (o : Code) (b : BitReader) (bytes : List Byte) : State :=
  let s := stateAt .loop d b bytes
  s.setDp { s.dp with old := some o }

/-- The state a result ends in. -/
def resState {α : Type} : Res α → Option State
  | .ok _ s => some s
  | .raised _ s => some s
  | .fault _ => none
  | .refused _ => none

/-- A field of the state a step answers. -/
def nextField {α : Type} (f : State → α) : Out → Option α
  | .next s => some (f s)
  | .fault _ => none
  | .refused _ => none

/-- PHASE and the two codes of STATUS. -/
def outcomeOf (s : State) : Phase × Nat × Nat := (s.phase, s.status.kind.code.toNat, s.status.reason.code.toNat)

/-- Four bytes of FB from an offset on. -/
def pixelAt (a : Nat) (s : State) : List Byte := [s.fbRead a, s.fbRead (a + 1), s.fbRead (a + 2), s.fbRead (a + 3)]

/-- (PREFIX, BYTEV, LEN) of an entry. -/
def entryOf (i : Nat) (s : State) : Option Link × Option Byte × Option (BitVec 13) :=
  (storeGet s.dict.links i, storeGet s.dict.bytes i, storeGet s.dict.lens i)

/-- (currentIndex, codeLength). -/
def sizeOf (s : State) : Option (BitVec 13) × Option (BitVec 4) := (s.dict.currentIndex, s.dict.codeLength)

/-! ### One step of each instruction -/

/-- HO-3: START with P1's CFG. -/
theorem test_start :
    nextField outcomeOf (step { State.reset with host := [.start cfg1] }) = some (.opening, 0, 0) := by decide

/-- The latched startPos has ADDR_W bits (R16): with ADDR_W 4 the low four bits of 0x13 (log entry 4). -/
theorem test_start_width :
    nextField (fun s => s.cfg.map Cfg.startPos)
        (step { State.reset with addrW := 4, host := [.start { cfg1 with startPos := 0x13 }] }) = some (some 3) := by
  decide

/-- HO-5: ctLen 257 is refused; HO-4: so is START in a busy phase. -/
theorem test_start_refused :
    step { State.reset with host := [.start { cfg1 with ctLen := 257 }] } = .refused .ctLenOver256 ∧
      exec (.start cfg1) (stateAt .loop dict6 (opened 2 1) []) = .refused .startWhileBusy := by
  refine ⟨rfl, rfl⟩

/-- S1's step 1: m = 2, first length 2, currentIndex 6, width 3. -/
theorem test_minCodeSize :
    nextField (fun s => (s.phase, sizeOf s, s.br))
        (step { State.reset with phase := .opening, cfg := some cfg1, ct := bw, input := [0x02, 0x02, 0x4C, 0x01, 0x00] }) =
      some (.first, (some 6, some 3), opened 2 2) := by decide

/-- EX-14: no first length is Eof, after the range check of m. -/
theorem test_minCodeSize_eof :
    nextField outcomeOf (step { State.reset with phase := .opening, cfg := some cfg1, input := [0x02] }) =
      some (.error, 2, 0) := by decide

/-- EX-4: m = 12. -/
theorem test_minCodeSizeBad :
    nextField outcomeOf
        (step { State.reset with phase := .opening, cfg := some cfg1, input := [0x0C, 0x02, 0x04, 0x53, 0x00] }) =
      some (.error, 3, 1) := by decide

/-- S1's step 2: the refill loads 4c, code 4. -/
theorem test_firstClear :
    nextField (fun s => (s.phase, s.br)) (step (stateAt .first dict6 (opened 2 2) [0x02, 0x02, 0x4C, 0x01, 0x00])) =
      some (.start, reader 3 1 0x09 5) := by decide

/-- EX-5: first code 0. -/
theorem test_firstBad :
    nextField outcomeOf (step (stateAt .first dict6 (opened 2 1) [0x02, 0x01, 0x28, 0x00])) = some (.error, 3, 2) := by
  decide

/-- S1's step 3: code 1 paints white at (0,0), OLD 1, nothing added. -/
theorem test_startLiteral :
    nextField (fun s => (s.phase, pixelAt 0 s, s.dp.old, sizeOf s))
        (step (stateAt .start dict6 (reader 3 1 0x09 5) [0x02, 0x02, 0x4C, 0x01, 0x00])) =
      some (.loop, [0xFF, 0xFF, 0xFF, 0xFF], some 1, (some 6, some 3)) := rfl

/-- RA-4: index 2 with two colours and no transparency. -/
theorem test_startLiteral_color :
    nextField outcomeOf (exec (.startLiteral 2) (stateAt .start dict6 (opened 2 2) [])) = some (.error, 3, 7) := by decide

/-- EX-6: start code CLEAR (24: codes 4, 4). -/
theorem test_startBad :
    nextField outcomeOf (step (stateAt .start dict6 (reader 3 0 0x04 5) [0x02, 0x01, 0x24, 0x00])) =
      some (.error, 3, 3) := by decide

/-- S1's step 4: two bits of the buffer, a refill of 01, code 5. -/
theorem test_eoi :
    nextField (fun s => (s.phase, s.br)) (step (loopState dict6 1 (reader 3 1 0x01 2) [0x02, 0x02, 0x4C, 0x01, 0x00])) =
      some (.term, reader 4 0 0x00 7) := by decide

/-- DI-12's registers, and OLD and the pen kept (R110, R117): CLEAR with 9 entries and 4-bit codes. -/
theorem test_clear :
    nextField (fun s => (s.phase, sizeOf s, s.dict.maxCode, s.dp.old, s.dp.px))
        (exec .clear (loopState { dict6 with currentIndex := some 9, codeLength := some 4, maxCode := some 15 } 3
          (opened 2 1) [])) =
      some (.start, (some 6, some 3), some 7, some 3, some 0) := rfl

/-- P3's first LOOP code, 1 after 0: paints 1, adds 6 = (0, 1, 2). -/
theorem test_existing :
    nextField (fun s => (entryOf 6 s, sizeOf s, s.dp.old, pixelAt 0 s)) (exec (.existing 1) (loopState dict6 0 (opened 2 1) [])) =
      some ((some 0, some 1, some 2), (some 7, some 3), some 1, [0xFF, 0xFF, 0xFF, 0xFF]) := rfl

/-- The dictionary after P3's first LOOP code (DI-2). -/
def dict7 : Dict :=
  addedDict 2 6 0 1 1 dict6

/-- P3's second LOOP code, 6 after 1: the add finds 7 = maxCode, widens to 4 and stores 7 = (1, 0, 2). -/
theorem test_existing_widens :
    nextField (fun s => (entryOf 7 s, sizeOf s, s.dict.maxCode)) (exec (.existing 6) (loopState dict7 1 (opened 2 1) [])) =
      some ((some 1, some 0, some 2), (some 8, some 4), some 15) := by decide

/-- P6's first LOOP code, 6 after 0: adds 6 = (0, 0, 2) and paints it, here two black pixels. -/
theorem test_kwkwk :
    nextField (fun s => (entryOf 6 s, sizeOf s, pixelAt 0 s, pixelAt 4 s))
        (exec (.kwkwk 6) (loopState dict6 0 (opened 2 1) [])) =
      some ((some 0, some 0, some 2), (some 7, some 3), [0, 0, 0, 0xFF], [0, 0, 0, 0xFF]) := rfl

/-- P3's code 8 at currentIndex 8 (DI-4): 8 = (6, 0, 3), whose string is 0 1 0; the third byte is below the bottom here. -/
theorem test_kwkwk_last_byte :
    nextField (fun s => (entryOf 8 s, (List.range 3).map (storeGet s.pb), pixelAt 0 s, pixelAt 4 s, s.dp.px, s.dp.py))
        (exec (.kwkwk 8) (loopState (addedDict 2 7 1 0 1 dict7) 6 (opened 2 1) [])) =
      some ((some 6, some 0, some 3), [some 0, some 1, some 0], [0, 0, 0, 0xFF], [0xFF, 0xFF, 0xFF, 0xFF], some 0,
        some 1) := rfl

/-- EX-8: code 7 above currentIndex 6. -/
theorem test_invalid :
    nextField outcomeOf (step (loopState dict6 0 (reader 3 1 0x03 2) [0x02, 0x02, 0xC4, 0x01, 0x00])) =
      some (.error, 3, 4) := by decide

/-- BR-1. -/
theorem test_firstLen :
    nextField (fun s => s.br) (exec (.firstLen 0x02) (stateAt .opening dict6 (reader 1 9 9 9) [])) =
      some (opened 1 2) := by decide

/-- BR-5's refill: length 1 at 3, then ff at 4. -/
theorem test_subblockLen :
    nextField (fun s => s.br)
        (exec (.subblockLen 0x01) (stateAt .loop dict6 (reader 4 0 0 0) [0x02, 0xA5, 0x3C, 0x01, 0xFF, 0x00])) =
      some (reader 5 0 0xFF 8) := by decide

/-- EX-16: no data byte after the length. -/
theorem test_subblockLen_eof :
    nextField outcomeOf (exec (.subblockLen 0x3B) (stateAt .first dict6 (reader 3 0 0 0) [0x02, 0x00, 0x3B])) =
      some (.error, 2, 0) := by decide

/-- EX-9: the third code's refill meets 00 (04 holds codes 4, 0). -/
theorem test_midstreamTerminator :
    nextField outcomeOf (step (loopState dict6 0 (reader 3 0 0x00 2) [0x02, 0x01, 0x04, 0x00])) =
      some (.error, 3, 5) := by decide

/-- BR-2's refill of a5. -/
theorem test_data :
    nextField (fun s => s.br) (exec (.data 0xA5) (stateAt .loop dict6 (opened 2 2) [])) = some (reader 2 1 0xA5 8) := by
  decide

/-- S1's step 5: DONE OK, end 34 (here the file is cut to its image data, so end 5); everything released. -/
theorem test_terminator :
    nextField (fun s => (outcomeOf s, s.endPos, decide (s.dict = Dict.released), decide (s.br = BitReader.released)))
        (step (stateAt .term dict6 (reader 4 0 0 7) [0x02, 0x02, 0x4C, 0x01, 0x00])) =
      some ((.done, 1, 0), some 5, true, true) := by decide

/-- EX-11: the rest of the sub-block, aa, is skipped. -/
theorem test_terminator_skips :
    nextField (fun s => s.endPos) (step (stateAt .term dict6 (reader 4 1 0 1) [0x02, 0x03, 0x04, 0x53, 0xAA, 0x00])) =
      some (some 6) := by decide

/-- EX-10: 01 at the terminator check. -/
theorem test_badTerminator :
    nextField outcomeOf (step (stateAt .term dict6 (reader 4 0 0 1) [0x02, 0x02, 0x04, 0x53, 0x01, 0xFF, 0x00])) =
      some (.error, 3, 6) := by decide

/-- EX-17: too few bytes to skip. -/
theorem test_term_eof :
    nextField outcomeOf (step (stateAt .term dict6 (reader 4 1 0 1) [0x02, 0x03, 0x04, 0x53])) = some (.error, 2, 0) := by
  decide

/-! ### The bit reader, the dictionary and the rasterizer -/

/-- The IN of section 2.1. -/
def brIn : List Byte := [0x02, 0xA5, 0x3C, 0x01, 0xFF, 0x00]

/-- A value and BR from a read. -/
def readOf : Res Code → Option (Code × BitReader)
  | .ok v s => some (v, s.br)
  | .raised _ _ => none
  | .fault _ => none
  | .refused _ => none

/-- BR-2. -/
theorem test_readBits_refill :
    readOf (readBits 3 (stateAt .loop dict6 (opened 1 2) brIn)) = some (5, reader 2 1 0x14 5) := by decide

/-- BR-5: a code across two sub-blocks. -/
theorem test_readBits_across :
    readOf (readBits 12 (stateAt .loop dict6 (reader 3 0 0x03 4) brIn)) = some (0xFF3, reader 5 0 0x00 0) := by decide

/-- BR-17: the length of the first sub-block is 0. -/
theorem test_readBits_empty_block :
    readOf (readBits 8 (stateAt .loop dict6 (opened 1 0) [0x00, 0x02, 0xA5, 0x3C, 0x00])) =
      some (0xA5, reader 3 1 0x00 0) := by decide

/-- BR-10 and BR-11. -/
theorem test_readBits_refused (s : State) :
    readBits 13 s = .refused .readBitsWidth ∧ readBits 0 s = .refused .readBitsWidth := ⟨rfl, rfl⟩

/-- DI-5 and DI-6: the first bytes of entries 8 and 7. -/
theorem test_firstByte :
    let s := stateAt .loop (addedDict 2 8 6 0 2 (addedDict 2 7 1 0 1 dict7)) (opened 2 1) []
    firstByte 8 s = .ok 0 s ∧ firstByte 7 s = .ok 1 s ∧ lengthAt 8 s = .ok 3 s := by
  refine ⟨rfl, rfl, rfl⟩

/-- RA-1: a transparent byte only moves the pen; RA-2: with the flag 0 it is painted. -/
theorem test_transparent :
    let c : Cfg := { cfg1 with gcePresent := true, transparentFlag := true, transparentIndex := 1 }
    (transparent c 1, transparent { c with transparentFlag := false } 1, transparent { c with gcePresent := false } 1,
      transparent c 0) = (true, false, false, false) := by decide

/-- RA-7: a pixel outside the canvas is dropped, and the pen moves on to the next row. -/
theorem test_off_canvas :
    (resState (paint 1
        { stateAt .loop dict6 (opened 2 1) [] with
          cfg := some { cfg2 with left := 1 }
          dp := { openDatapath { cfg2 with left := 1 } Datapath.released with px := some 2 } })).map
      (fun s => (s.fb, s.dp.px, s.dp.py)) = some ([], some 1, some 1) := by decide

/-- P8's first pixel: (1,1) of a canvas of 3×3 lies at offset 16. -/
theorem test_pixelOffset : pixelOffset 3 1 1 = 16 ∧ pixelOffset 65535 65534 65534 = 17179344896 := by decide

/-- HO-1 and HO-2: after reset RESULT is ⊥, and reading it is a model fault. -/
theorem test_reset :
    hostReadPhase State.reset = 0 ∧ hostReadStatus State.reset = 0 ∧
      hostReadEndPos State.reset = .fault (.unwritten .endPos) := by decide

/-- HO-8: with no move of the host the state never changes. -/
theorem test_idle (s : State) (h : s.phase = .done) (k : s.host = []) : step s = .next s := by
  rw [step_quiescent (by rw [h]; rfl)]
  unfold hostStep
  rw [k]

/-- EX-12's STATUS as the host reads it: kind 3 in bits 2:0, reason 7 in bits 5:3 (R11, R144). -/
theorem test_status_word : (Exc.malformed .colorIndexOutOfRange).status.word = 0b111011#6 := by decide

/-! ### The host's side -/

/-- S1's header and P5's; a wrong one is InvalidSignature. -/
theorem test_checkHeader :
    checkHeader [0x47, 0x49, 0x46, 0x38, 0x37, 0x61] = .ok () ∧
      checkHeader [0x47, 0x49, 0x46, 0x38, 0x39, 0x61, 0x02] = .ok () ∧
      checkHeader [0x47, 0x49, 0x46, 0x38, 0x38, 0x61] = .error .invalidSignature := ⟨rfl, rfl, rfl⟩

/-- S7's 16-bit reads: `2c 01` is 300. -/
theorem test_u16le : (u16le 0x2C 0x01, u16le 0x01 0x00, u16le 0xFF 0xFF) = (300, 1, 65535) := by decide

/-- P5's positions 6..12: canvas 2×1, a global table of four entries. -/
theorem test_parseLsd :
    parseLsd [0x02, 0x00, 0x01, 0x00, 0x81, 0x00, 0x00] =
      .ok { width := 2, height := 1, gctFlag := true, colorResolution := 0, sorted := false, gctSize := 1,
            bgIndex := 0, aspect := 0 } := by decide

/-- R64's fields at their bits: an odd value in each. -/
theorem test_parse_flag_bits :
    (parseLsd [0, 0, 0, 0, 0b1_101_0_110, 7, 9]).toOption.map
          (fun l => (l.gctFlag, l.colorResolution, l.sorted, l.gctSize, l.bgIndex, l.aspect)) =
        some (true, 5, false, 6, 7, 9) ∧
      (parseImageDescriptor [0x2C, 1, 0, 2, 0, 3, 0, 4, 0, 0b0_1_0_10_011]).toOption.map
          (fun d => (d.lctFlag, d.interlaced, d.sorted, d.reserved, d.lctSize)) = some (false, true, false, 2, 3) ∧
      (parseGce [0x21, 0xF9, 4, 0b101_011_1_0, 0, 0, 5, 0]).toOption.map
          (fun g => (g.reserved, g.disposalMethod, g.userInput, g.transparentFlag)) = some (5, 3, true, false) := ⟨rfl, rfl, rfl⟩

/-- P5's positions 40..47: transparent flag 1, index 0. -/
theorem test_parseGce :
    parseGce [0x21, 0xF9, 0x04, 0x01, 0x00, 0x00, 0x00, 0x00] =
      .ok { reserved := 0, disposalMethod := 0, userInput := false, transparentFlag := true, delay := 0,
            transparentIndex := 0 } := by decide

/-- P5's CT4: red is entry 2, with R in the low byte (R18). -/
theorem test_parseColorTable :
    parseColorTable 4 [0, 0, 0, 0xFF, 0xFF, 0xFF, 0xFF, 0, 0, 0, 0, 0xFF] =
      .ok [0x000000, 0xFFFFFF, 0x0000FF, 0xFF0000] := by decide

/-- P5's frame 2: the configuration record from the descriptor at 48..57 and the pending graphic control extension. -/
theorem test_configOf :
    (parseLsd [0x02, 0x00, 0x01, 0x00, 0x81, 0x00, 0x00]).bind (fun l =>
        (parseImageDescriptor [0x2C, 0x00, 0x00, 0x00, 0x00, 0x02, 0x00, 0x01, 0x00, 0x00]).bind fun d =>
          (parseGce [0x21, 0xF9, 0x04, 0x01, 0x00, 0x00, 0x00, 0x00]).bind fun g => configOf l d (some g) 58) =
      .ok { startPos := 58, left := 0, top := 0, width := 2, height := 1, canvasW := 2, canvasH := 1, ctLen := 4,
            gcePresent := true, transparentFlag := true, transparentIndex := 0 } := rfl

/-! ### Witnesses: states and operands that meet the hypotheses of each statement -/

/-- DICT_INIT(2)'s dictionary is in form. -/
theorem test_dict6 : dictOk 2 6 dict6 := by
  obtain ⟨d, h1, h2⟩ := dictInit_ok (m := 2) (s := State.reset) (by decide) (by decide) rfl
  have h3 : dictInit (BitVec.ofNat 4 2) State.reset = .ok () (State.reset.setDict dict6) := rfl
  rw [h3] at h1
  have h4 := congrArg State.dict (Res.ok.inj h1).2
  simp only [State.setDict_dict] at h4
  rw [h4]
  exact h2

/-- The dictionary after `k` adds of prefix 0 and byte 0 (DI-10). -/
def grown : Nat → Dict
  | 0 => dict6
  | k + 1 => addedDict 2 (6 + k) 0 0 1 (grown k)

/-- DI-10: each of the 4090 adds keeps the dictionary in form, so it comes to be frozen. -/
theorem test_grown (k : Nat) (h : k ≤ 4090) : dictOk 2 (6 + k) (grown k) ∧ storeGet (grown k).lens 0 = some 1 := by
  induction k with
  | zero => exact ⟨test_dict6, rfl⟩
  | succ k ih =>
    obtain ⟨h1, h2⟩ := ih (by omega)
    have h3 : 6 + k < 4096 := by omega
    have h4 : 1 + 1 ≤ 6 + k - 2 ^ 2 := by omega
    refine ⟨addedDict_ok (p := 0) (b := 0) h1 h3 (.inl (by decide)) h2 (by decide) h4 (by decide), ?_⟩
    simp only [grown, addedDict, writeEntry]
    rw [storeGet_storeSet_ne _ _ (by omega)]
    exact h2

theorem test_dict7 : dictOk 2 7 dict7 :=
  addedDict_ok test_dict6 (by decide) (.inl (by decide)) rfl (by decide) (by decide) (by decide)

theorem test_frozen_dictionary : dictOk 2 4096 (grown 4090) := (test_grown 4090 (by decide)).1

/-- A state of `cfg2` with a dictionary in form and a reader in form is one of a decode under way. -/
theorem test_running {m ci : Nat} {p : Phase} {d : Dict} {b : BitReader} {bytes : List Byte} (hd : dictOk m ci d)
    (hb : readerOk (stateAt p d b bytes)) : running cfg2 m ci (stateAt p d b bytes) :=
  ⟨⟨rfl, by decide, show cfg2.ctLen.toNat ≤ bw.length by decide⟩, hb, hd, openDatapath_ok cfg2 Datapath.released⟩

theorem test_reader_open {q : Phase} {d : Dict} {p : Nat} {n : Byte} {bytes : List Byte} (ha : bytes.length < 2 ^ 32)
    (h : p ≤ bytes.length) : readerOk (stateAt q d (opened p n) bytes) :=
  ⟨ha, p, n, 0, rfl, rfl, rfl, h, by decide, fun h => absurd rfl h⟩

theorem test_reader {q : Phase} {d : Dict} {p : Nat} {n buf : Byte} {k : BitVec 4} {bytes : List Byte}
    (ha : bytes.length < 2 ^ 32) (h : p ≤ bytes.length) (h1 : k.toNat ≤ 8) (h2 : buf.toNat < 2 ^ k.toNat) :
    readerOk (stateAt q d (reader p n buf k) bytes) :=
  ⟨ha, p, n, k, rfl, rfl, rfl, h, h1, fun _ => ⟨buf, rfl, h2⟩⟩

/-- ADDR_W is 32 in these states, and holds every position of short data. -/
theorem test_positions {q : Phase} {d : Dict} {b : BitReader} {bytes : List Byte} {p : Nat} (h : b.pos = some p)
    (hp : p < 2 ^ 32) : positionsFit (stateAt q d b bytes) :=
  ⟨fun p' h' => by
      rw [show (stateAt q d b bytes).br.pos = some p from h] at h'
      cases h'
      exact hp,
    nofun, fun c hc => by
      cases hc
      exact Nat.two_pow_pos 32⟩

theorem test_running_loopState {ci : Nat} {d : Dict} {o : Code} {b : BitReader} {bytes : List Byte} (hd : dictOk 2 ci d)
    (hb : readerOk (stateAt .loop d b bytes)) : running cfg2 2 ci (loopState d o b bytes) :=
  test_running (p := .loop) (d := d) (b := b) (bytes := bytes) hd hb

/-- P1's image data. -/
def p1 : List Byte := [0x02, 0x02, 0x4C, 0x01, 0x00]

theorem test_addressable_p1 : p1.length < 2 ^ 32 := by decide

/-- FIRST of P1's data, before any data byte is loaded. -/
def firstOfP1 : State := stateAt .first dict6 (opened 2 2) p1

theorem test_reader_first : readerOk firstOfP1 := test_reader_open (by decide) (by decide)

/-- A LOOP state on P1's data, with OLD = 0. -/
def loopOf (d : Dict) : State := loopState d 0 (opened 2 2) p1

theorem test_running_loop {ci : Nat} {d : Dict} (hd : dictOk 2 ci d) : running cfg2 2 ci (loopOf d) :=
  test_running_loopState hd (test_reader_open (by decide) (by decide))

theorem test_oldLive_loop (d : Dict) (ci : Nat) : oldLive 2 ci (loopOf d) := ⟨0, rfl, .inl (by decide)⟩

theorem test_stores6 (p : Phase) (b : BitReader) (bytes : List Byte) : storesOk (stateAt p dict6 b bytes) := by
  refine ⟨⟨?_, ?_⟩, ?_⟩
  · simp [stateAt, State.reset]
  · simp [stateAt, State.reset]
  · show (Store.wf dict6.links ∧ ∀ x ∈ dict6.links, x.1 < Config.dictCap) ∧
      (Store.wf dict6.bytes ∧ ∀ x ∈ dict6.bytes, x.1 < Config.dictCap) ∧
      (Store.wf dict6.lens ∧ ∀ x ∈ dict6.lens, x.1 < Config.dictCap) ∧
      (Store.wf ([] : List (Nat × Byte)) ∧ ∀ x ∈ ([] : List (Nat × Byte)), x.1 < Config.pbCap)
    decide

/-- OPEN right after START, on P1's data. -/
def openOfP1 : State := { State.reset with phase := .opening, cfg := some cfg2, ct := bw, input := p1 }

theorem test_inv_open : Inv openOfP1 :=
  ⟨⟨⟨by simp [openOfP1, State.reset], by simp [openOfP1, State.reset]⟩, by simp [openOfP1, State.reset, Dict.released]⟩,
    ⟨rfl, rfl⟩, ⟨⟨rfl, rfl, rfl, rfl⟩, cfg2, rfl, by decide, by decide⟩, test_addressable_p1, nofun, nofun, fun c hc => by
      cases hc
      exact Nat.two_pow_pos 32⟩

theorem test_inv_first : Inv firstOfP1 :=
  ⟨test_stores6 _ _ _, ⟨rfl, rfl⟩, ⟨cfg2, 2, test_running test_dict6 test_reader_first⟩, test_addressable_p1,
    test_positions rfl (by decide)⟩

theorem test_inv_loop : Inv (loopOf dict6) :=
  ⟨test_stores6 .loop (opened 2 2) p1, ⟨rfl, rfl⟩, ⟨cfg2, 2, 6, test_running_loop test_dict6, test_oldLive_loop dict6 6⟩,
    test_addressable_p1, test_positions (q := .loop) (d := dict6) (b := opened 2 2) (bytes := p1) rfl (by decide)⟩

theorem test_witness_EncodedTokensDecodeBack :
    (Instr.existing 3).wellFormed (.code .loop view6) = true ∧ (Instr.kwkwk 6).wellFormed (.code .loop view6) = true ∧
      (Instr.invalid 7).wellFormed (.code .loop view6) = true ∧
      (Instr.existing 4095).wellFormed (.code .loop viewFrozen) = true ∧
      (Instr.firstClear).wellFormed (.code .first view6) = true ∧ (Instr.firstBad 7).wellFormed (.code .first view6) = true ∧
      (Instr.startLiteral 3).wellFormed (.code .start view6) = true ∧
      (Instr.startBad 7).wellFormed (.code .start view6) = true ∧ (Instr.eoi).wellFormed (.code .loop view6) = true ∧
      (Instr.clear).wellFormed (.code .loop view6) = true := by decide

theorem test_witness_EncodedTokensDecodeBack_bytes :
    (Instr.minCodeSize 8).wellFormed (.byte .openByte) = true ∧
      (Instr.minCodeSizeBad 9).wellFormed (.byte .openByte) = true ∧
      (Instr.firstLen 0xFF).wellFormed (.byte .firstLen) = true ∧
      (Instr.subblockLen 0xFF).wellFormed (.byte .refillLen) = true ∧
      (Instr.midstreamTerminator).wellFormed (.byte .refillLen) = true ∧
      (Instr.data 0xFF).wellFormed (.byte .refillData) = true ∧
      (Instr.terminator).wellFormed (.byte .terminator) = true ∧
      (Instr.badTerminator 0xFF).wellFormed (.byte .terminator) = true := by decide

theorem test_witness_DecodedTokensEncodeBack :
    (Context.code .loop view6).wf = true ∧
      decode (.code .loop view6) [true, true, false, true] = .ok (.existing 3, [true]) ∧
      decode (.byte .refillData) (valueBits 8 0xFF) = .ok (.data 0xFF, []) := by decide

/-- Every clause, at the values where two clauses meet: 3, 4, 5, 6, 7 about currentIndex 6. -/
theorem test_witness_CodeClassConditions :
    view6.wf = true ∧ (7#12).toNat < 2 ^ view6.width ∧ (4#12).toNat = view6.clearCode ∧
      (5#12).toNat = view6.eoiCode ∧ (3#12).toNat < view6.clearCode ∧ (6#12).toNat = view6.currentIndex ∧
      view6.currentIndex < (7#12).toNat ∧ viewFrozen.wf = true ∧ viewFrozen.currentIndex = 4096 ∧
      (4095#12).toNat < 2 ^ viewFrozen.width := by decide

/-- Twelve bits of the sixteen to come; and one bit more than a stream has: of 01 a5 after its data. -/
theorem test_witness_ReadBitsTakesTheNextBits :
    readerOk firstOfP1 ∧ 12 ≤ (streamBits firstOfP1).length ∧
      readerOk (stateAt .loop dict6 (reader 2 0 0 1) [0x01, 0xA5]) ∧
      (streamBits (stateAt .loop dict6 (reader 2 0 0 1) [0x01, 0xA5])).length = 1 :=
  ⟨test_reader_first, by decide,
    test_reader (by decide) (by decide) (by decide) (by decide), by decide⟩

theorem test_witness_ReadBitsWidths : dictOk 2 6 (loopOf dict6).dict ∧ dictOk 2 4096 (loopOf (grown 4090)).dict :=
  ⟨test_dict6, test_frozen_dictionary⟩

theorem test_witness_RefillRunsItsTokens :
    (stateAt .loop dict6 (opened 2 0) p1).br.pos = some 2 ∧ (stateAt .loop dict6 (opened 2 0) p1).br.bytesInBlock = some 0 ∧
      (stateAt .loop dict6 (opened 2 0) p1).input[2]? = some 0x4C ∧
      (stateAt .loop dict6 (opened 2 1) p1).br.bytesInBlock = some 1 ∧
      (stateAt .loop dict6 (opened 5 1) p1).input[5]? = none ∧ addressable (stateAt .loop dict6 (opened 2 0) p1) :=
  ⟨rfl, rfl, rfl, rfl, rfl, test_addressable_p1⟩

theorem test_witness_InReadReadsOneByte :
    (stateAt .loop dict6 (opened 4 0) p1).br.pos = some 4 ∧ (stateAt .loop dict6 (opened 4 0) p1).input[4]? = some 0 ∧
      (stateAt .loop dict6 (opened 5 0) p1).input.length ≤ 5 ∧ addressable (stateAt .loop dict6 (opened 5 0) p1) :=
  ⟨rfl, rfl, by decide, test_addressable_p1⟩

theorem test_witness_InAdvanceSkips :
    (stateAt .loop dict6 (opened 3 0) p1).br.pos = some 3 ∧
      (stateAt .loop dict6 (opened 3 0) p1).input.length - 3 < 3 ∧
      2 ≤ (stateAt .loop dict6 (opened 3 0) p1).input.length - 3 ∧ addressable (stateAt .loop dict6 (opened 3 0) p1) ∧
      3 < 2 ^ (stateAt .loop dict6 (opened 3 0) p1).addrW :=
  ⟨rfl, by decide, by decide, test_addressable_p1, by decide⟩

theorem test_witness_StepRunsTheDecodedCode :
    running cfg2 2 6 firstOfP1 ∧ codePlaceOf firstOfP1.phase = some .first ∧
      (decode (.code .first (viewOf 2 6)) (streamBits firstOfP1)).toOption.map Prod.fst = some .firstClear ∧
      running cfg2 2 6 (loopOf dict6) ∧ codePlaceOf (loopOf dict6).phase = some .loop ∧
      (decode (.code .loop (viewOf 2 6)) (streamBits (loopOf dict6))).toOption.map Prod.fst = some .clear :=
  ⟨test_running test_dict6 test_reader_first, rfl, by decide, test_running_loop test_dict6, rfl, by decide⟩

/-- EX-9's third code, whose chain ends with 00, and EX-16's, whose IN ends. -/
theorem test_witness_StepAtTheStreamEnd :
    let s := stateAt .loop dict6 (reader 3 0 0 2) [0x02, 0x01, 0x04, 0x00]
    let t := stateAt .first dict6 (opened 2 0) [0x02, 0x00, 0x3B]
    running cfg2 2 6 s ∧ codePlaceOf s.phase = some .loop ∧
      decode (.code .loop (viewOf 2 6)) (streamBits s) = .error .shortCode ∧
      streamEnd s = .malformed .terminatorMidStream ∧ running cfg2 2 6 t ∧ codePlaceOf t.phase = some .first ∧
      decode (.code .first (viewOf 2 6)) (streamBits t) = .error .shortCode ∧ streamEnd t = .eof :=
  ⟨test_running test_dict6 (test_reader (by decide) (by decide) (by decide) (by decide)), rfl,
    by decide, by decide, test_running test_dict6 (test_reader_open (by decide) (by decide)), rfl,
    by decide, by decide⟩

theorem test_witness_StepRunsTheOpenByte :
    openOfP1.phase = .opening ∧ openOfP1.cfg = some cfg2 ∧ openOfP1.input[cfg2.startPos]? = some 0x02 ∧
      decode (.byte .openByte) (valueBits 8 (0x02#8).toNat) = .ok (.minCodeSize 0x02, []) ∧
      { openOfP1 with input := [] }.input[cfg2.startPos]? = none ∧ addressable openOfP1 ∧
      addressable { openOfP1 with input := [] } :=
  ⟨rfl, rfl, rfl, by decide, rfl, test_addressable_p1, Nat.two_pow_pos 32⟩

theorem test_witness_StepRunsTheTerminatorByte :
    let s := stateAt .term dict6 (reader 3 1 0 7) p1
    s.phase = .term ∧ s.br.pos = some 3 ∧ s.br.bytesInBlock = some 1 ∧ s.input[3 + (1#8).toNat]? = some 0 ∧
      decode (.byte .terminator) (valueBits 8 (0#8).toNat) = .ok (.terminator, []) ∧
      (stateAt .term dict6 (reader 3 2 0 7) p1).input[3 + (2#8).toNat]? = none ∧ addressable s ∧ 3 < 2 ^ s.addrW :=
  ⟨rfl, rfl, rfl, rfl, by decide, rfl, test_addressable_p1, by decide⟩

theorem test_witness_StepTakesTheHostsMove :
    State.reset.phase.quiescent = true ∧ State.reset.host = [] ∧
      { State.reset with host := [.writeIn [1], .start cfg2] }.host = .writeIn [1] :: [.start cfg2] ∧
      { State.reset with phase := .error, host := [.writeFb 3 4, .reset] }.phase.quiescent = true := by decide

theorem test_witness_PhaseTransitions : (∃ t, step openOfP1 = .next t ∧ t.phase = .first) ∧ step State.reset = .next State.reset :=
  ⟨⟨_, rfl, rfl⟩, rfl⟩

theorem test_witness_BusyStepsKeepTheHostsMemories :
    openOfP1.phase.quiescent = false ∧ ∃ t, step openOfP1 = .next t := ⟨rfl, _, rfl⟩

/-- The step that ends a decode changes STATUS and RESULT. -/
theorem test_witness_StatusValuesTheBlockWrites :
    let s := stateAt .term dict6 (reader 4 0 0 7) p1
    ∃ t, step s = .next t ∧ t.status ≠ s.status ∧ t.endPos = some 5 ∧ t.endPos ≠ s.endPos :=
  ⟨_, rfl, by decide, rfl, by decide⟩

theorem test_witness_EndPosComesFromTerm :
    let s := stateAt .term dict6 (reader 4 0 0 7) p1
    addressable s ∧ positionsFit s ∧ ∃ t, step s = .next t ∧ t.endPos = some 5 ∧ t.endPos ≠ s.endPos :=
  ⟨test_addressable_p1, test_positions rfl (by decide), _, rfl, rfl, by decide⟩

theorem test_witness_ClearResetsTheDictionary :
    (loopOf dict7).dict.minCodeSize = some 2 ∧ 2 ≤ (2#4).toNat ∧
      { dict7 with minCodeSize := some 8 }.minCodeSize = some 8 ∧ (8#4).toNat ≤ 8 := by decide

theorem test_witness_StartLiteralPaints :
    running cfg2 2 6 (loopOf dict6) ∧ (1#12).toNat < 2 ^ 2 ∧
      colorsInRange cfg2 ([BitVec.ofNat 8 (1#12).toNat].take (room cfg2 (loopOf dict6).dp)) := by
  refine ⟨test_running_loop test_dict6, by decide, ?_⟩
  intro b hb
  obtain rfl : b = 1 := by simpa using List.mem_of_mem_take hb
  exact .inr (by decide)

/-- The string of an atomic entry of a dictionary of m = 2. -/
theorem test_string_atomic {ci : Nat} {d : Dict} (hd : dictOk 2 ci d) : entryString 4096 d 1 = some [1] :=
  atomic_string (i := 1) hd (by decide)

theorem test_colors_atomic (n : Nat) : colorsInRange cfg2 (([1] : List Byte).take n) := by
  intro b hb
  obtain rfl : b = 1 := by simpa using List.mem_of_mem_take hb
  exact .inr (by decide)

/-- With room in the dictionary, and frozen. -/
theorem test_witness_ExistingPaintsThenAdds :
    (running cfg2 2 6 (loopOf dict6) ∧ (loopOf dict6).dp.old = some 0 ∧ live 2 6 (0#12).toNat ∧ live 2 6 (1#12).toNat ∧
        entryString 4096 (loopOf dict6).dict (1#12).toNat = some [1] ∧
        colorsInRange cfg2 (([1] : List Byte).take (room cfg2 (loopOf dict6).dp))) ∧
      running cfg2 2 4096 (loopOf (grown 4090)) ∧ live 2 4096 (0#12).toNat ∧ live 2 4096 (1#12).toNat ∧
        entryString 4096 (loopOf (grown 4090)).dict (1#12).toNat = some [1] ∧
        colorsInRange cfg2 (([1] : List Byte).take (room cfg2 (loopOf (grown 4090)).dp)) :=
  ⟨⟨test_running_loop test_dict6, rfl, .inl (by decide), .inl (by decide), test_string_atomic test_dict6,
      test_colors_atomic _⟩,
    test_running_loop test_frozen_dictionary, .inl (by decide), .inl (by decide),
    test_string_atomic test_frozen_dictionary, test_colors_atomic _⟩

theorem test_witness_KwkwkAddsThenPaints :
    running cfg2 2 6 (loopOf dict6) ∧ (loopOf dict6).dp.old = some 0 ∧ live 2 6 (0#12).toNat ∧ (6#12).toNat = 6 ∧
      entryString 4096 (loopOf dict6).dict (0#12).toNat = some [0] ∧
      colorsInRange cfg2 (([0, 0] : List Byte).take (room cfg2 (loopOf dict6).dp)) := by
  refine ⟨test_running_loop test_dict6, rfl, .inl (by decide), rfl, atomic_string (i := 0) test_dict6 (by decide), ?_⟩
  intro b hb
  obtain rfl : b = 0 := by simpa using List.mem_of_mem_take hb
  exact .inr (by decide)

/-- Index 2 with two colours, by each of the three painting codes. -/
theorem test_witness_ColourFaultsAbort :
    running cfg2 2 6 (loopOf dict6) ∧ (loopOf dict6).dp.old = some 0 ∧ (2#12).toNat < 2 ^ 2 ∧ live 2 6 (2#12).toNat ∧
      entryString 4096 (loopOf dict6).dict (2#12).toNat = some [2] ∧
      ¬ colorsInRange cfg2 (([2] : List Byte).take (room cfg2 (loopOf dict6).dp)) ∧
      ¬ colorsInRange cfg2 (([2, 2] : List Byte).take (room cfg2 (loopOf dict6).dp)) := by
  have hr : room cfg2 (loopOf dict6).dp = 2 := by decide
  have h2 : ¬ (transparent cfg2 2 = true ∨ (2#8).toNat < cfg2.ctLen.toNat) := by decide
  refine ⟨test_running_loop test_dict6, rfl, by decide, .inl (by decide), atomic_string (i := 2) test_dict6 (by decide),
    fun h => h2 (h 2 ?_), fun h => h2 (h 2 ?_)⟩
  · rw [hr]
    decide
  · rw [hr]
    decide

/-- RA-4's start code: PHASE START with OLD = ⊥, code 2, two colours. -/
theorem test_witness_ColourFaultsAbort_start :
    let s := stateAt .start dict6 (opened 2 2) p1
    s.phase = .start ∧ s.dp.old = none ∧ running cfg2 2 6 s ∧ (2#12).toNat < 2 ^ 2 ∧
      ¬ colorsInRange cfg2 ([BitVec.ofNat 8 (2#12).toNat].take (room cfg2 s.dp)) := by
  have h2 : ¬ (transparent cfg2 2 = true ∨ (2#8).toNat < cfg2.ctLen.toNat) := by decide
  refine ⟨rfl, rfl, test_running test_dict6 (test_reader_open (by decide) (by decide)), by decide,
    fun h => h2 (h 2 ?_)⟩
  rw [show room cfg2 (stateAt .start dict6 (opened 2 2) p1).dp = 2 by decide]
  decide

/-- KWKWK's colour fault: OLD = 2 with two colours. -/
theorem test_witness_ColourFaultsAbort_kwkwk :
    let s := loopState dict6 2 (opened 2 2) p1
    running cfg2 2 6 s ∧ s.dp.old = some 2 ∧ live 2 6 (2#12).toNat ∧ (6#12).toNat = 6 ∧
      entryString 4096 s.dict (2#12).toNat = some [2] :=
  ⟨test_running_loopState test_dict6 (test_reader_open (by decide) (by decide)), rfl, .inl (by decide), rfl,
    atomic_string (i := 2) test_dict6 (by decide)⟩

theorem test_witness_MinCodeSizeFinishesOpen :
    let s := { openOfP1 with br := { BitReader.released with pos := some 1 } }
    2 ≤ (2#8).toNat ∧ (8#8).toNat ≤ 8 ∧ s.cfg = some cfg2 ∧ s.br.pos = some 1 ∧ s.input[1]? = some 0x02 ∧
      { s with input := [0x02] }.input[1]? = none ∧ addressable s ∧ addressable { s with input := [0x02] } :=
  ⟨by decide, by decide, rfl, rfl, rfl, rfl, test_addressable_p1, show 1 < 2 ^ 32 by decide⟩

theorem test_witness_ByteTokensLoad :
    firstOfP1.br.bytesInBlock = some 2 ∧ firstOfP1.br.pos = some 2 ∧ firstOfP1.input[2]? = some 0x4C ∧
      { firstOfP1 with input := [0x02, 0x02] }.input.length ≤ 2 ∧ addressable firstOfP1 ∧
      addressable { firstOfP1 with input := [0x02, 0x02] } :=
  ⟨rfl, rfl, rfl, by decide, test_addressable_p1, show 2 < 2 ^ 32 by decide⟩

theorem test_witness_TerminatorEndsTheDecode : (stateAt .term dict6 (reader 5 0 0 7) p1).br.pos = some 5 := by decide

theorem test_witness_StartLatchesTheConfiguration :
    State.reset.phase.quiescent = true ∧ { cfg2 with ctLen := 256 }.ctLen.toNat ≤ 256 ∧
      firstOfP1.phase.quiescent = false ∧ 256 < { cfg2 with ctLen := 257 }.ctLen.toNat ∧
      cfg2.startPos < 2 ^ State.reset.addrW := by decide

theorem test_witness_ResetTable :
    (loopOf dict7).dict.minCodeSize = some (BitVec.ofNat 4 2) ∧
      { loopOf dict7 with dict := { dict7 with minCodeSize := some 8 } }.dict.minCodeSize = some (BitVec.ofNat 4 8) := by
  decide

/-- An add that does not widen (6), one that widens (7 = maxCode), a frozen one, and a negative prefix. -/
theorem test_witness_DictAddGrowsThenStores :
    (dict6.currentIndex = some 6 ∧ dict6.maxCode = some 7 ∧ dict6.codeLength = some 3 ∧ (0#13).msb = false ∧
        storeGet dict6.lens (0#13).toNat = some 1) ∧
      (dict7.currentIndex = some 7 ∧ dict7.maxCode = some 7 ∧ storeGet dict7.lens (1#13).toNat = some 1) ∧
      (-1#13).msb = true ∧ { dict6 with currentIndex := some 4096, maxCode := some 4095 }.currentIndex = some 4096 := by
  decide

theorem test_witness_FrozenAddsDoNothing : dictOk 2 4096 (loopOf (grown 4090)).dict := test_frozen_dictionary

/-- DI-2 (no growth), DI-3 (7 widens to 4) and the add that finds 4095. -/
theorem test_witness_GrowthPoints :
    (dictOk 2 6 (loopOf dict6).dict ∧ live 2 6 (0#12).toNat ∧ ∃ t, dictAdd ((0#12).zeroExtend 13) 1 (loopOf dict6) = .ok (some 6) t) ∧
      (dictOk 2 7 (loopOf dict7).dict ∧ live 2 7 (1#12).toNat ∧
        ∃ t, dictAdd ((1#12).zeroExtend 13) 0 (loopOf dict7) = .ok (some 7) t) ∧
      dictOk 2 4095 (loopOf (grown 4089)).dict ∧ live 2 4095 (0#12).toNat ∧
        ∃ t, dictAdd ((0#12).zeroExtend 13) 0 (loopOf (grown 4089)) = .ok (some 4095) t := by
  refine ⟨⟨test_dict6, .inl (by decide), _, rfl⟩, ⟨test_dict7, .inl (by decide), _, rfl⟩,
    (test_grown 4089 (by decide)).1, .inl (by decide), ?_⟩
  have hd : dictOk 2 4095 (loopOf (grown 4089)).dict := (test_grown 4089 (by decide)).1
  rcases dictAdd_cases (o := 0) (b := 0) hd (.inl (by decide)) (by decide) with ⟨h, -⟩ | ⟨-, n, -, -, -, h, -⟩
  · cases h
  · exact ⟨_, h⟩

/-- An atomic entry, and the added entry 6. -/
theorem test_witness_EntryLengths : dictOk 2 7 dict7 ∧ live 2 7 3 ∧ live 2 7 6 ∧ 2 ^ 2 + 1 < 6 :=
  ⟨test_dict7, .inl (by decide), .inr ⟨by decide, by decide⟩, by decide⟩

/-- The string of dict7's entry 6 is 0 1. -/
theorem test_string_added : entryString 4096 dict7 6 = some [0, 1] :=
  added_string (m := 2) (ci := 6) (n := 1) (d := dict6) (o := 0) (b := 1) test_dict6 (by decide) (.inl (by decide))
    (atomic_string (i := 0) test_dict6 (by decide))

theorem test_witness_FirstByteOfAString :
    dictOk 2 7 (loopOf dict7).dict ∧ live 2 7 6 ∧ entryString 4096 (loopOf dict7).dict 6 = some [0, 1] ∧
      live 2 7 1 ∧ entryString 4096 (loopOf dict7).dict 1 = some [1] ∧ 1 < 2 ^ 2 :=
  ⟨test_dict7, .inr ⟨by decide, by decide⟩, test_string_added, .inl (by decide), test_string_atomic test_dict7,
    by decide⟩

/-- A LOOP step that adds: code 1, after OLD 0. -/
theorem test_witness_CurrentIndexNeverFalls :
    let s := loopState dict6 0 (reader 2 2 0x01 3) p1
    Inv s ∧ s.phase = .loop ∧ s.dict.currentIndex = some 6 ∧
      ∃ t, step s = .next t ∧ t.phase ≠ .error ∧ ¬ (s.phase = .loop ∧ t.phase = .start) :=
  ⟨⟨test_stores6 .loop (reader 2 2 0x01 3) p1, ⟨rfl, rfl⟩,
      ⟨cfg2, 2, 6, test_running_loopState test_dict6 (test_reader (by decide) (by decide) (by decide) (by decide)),
        0, rfl, .inl (by decide)⟩,
      test_addressable_p1,
      test_positions (q := .loop) (d := dict6) (b := reader 2 2 0x01 3) (bytes := p1) rfl (by decide)⟩,
    rfl, rfl, _, rfl, by decide, by decide⟩

theorem test_witness_PaintIsTheString :
    dictOk 2 7 (loopOf dict7).dict ∧ live 2 7 6 ∧ entryString 4096 (loopOf dict7).dict 6 = some [0, 1] :=
  ⟨test_dict7, .inr ⟨by decide, by decide⟩, test_string_added⟩

theorem test_witness_PaintChangesThePenPbAndFb : ∃ t, paint 1 (loopOf dict6) = .ok () t := ⟨_, rfl⟩

/-- `cfg2` with index 1 transparent. -/
def cfgT : Cfg := { cfg2 with gcePresent := true, transparentFlag := true, transparentIndex := 1 }

/-- Transparent, without a colour, and with one, at the last column of the rectangle and at the first. -/
theorem test_witness_PaintByteOrder :
    let s := { loopOf dict6 with cfg := some cfgT }
    configured cfgT s ∧ penOk cfgT s.dp ∧ s.dp.px = some 0 ∧ s.dp.py = some 0 ∧
      (cfgT.gcePresent = true ∧ cfgT.transparentFlag = true ∧ (1#8) = cfgT.transparentIndex) ∧
      cfgT.ctLen.toNat ≤ (2#8).toNat ∧ (2#8) ≠ cfgT.transparentIndex ∧ (0#8).toNat < cfgT.ctLen.toNat ∧
      cfgT.left.toNat + cfgT.width.toNat ≤ (1#17).toNat + 1 ∧ ¬ cfgT.left.toNat + cfgT.width.toNat ≤ (0#17).toNat + 1 :=
  ⟨⟨rfl, by decide, by decide⟩, openDatapath_ok cfgT Datapath.released, rfl, rfl, by decide, by decide, by decide, by decide, by decide,
    by decide⟩

/-- `cfg2`'s pen at the bottom. -/
def atBottom : State := { loopOf dict6 with dp := { (loopOf dict6).dp with py := some 1 } }

theorem test_witness_BottomStopDropsTheRest :
    running cfg2 2 6 atBottom ∧ live 2 6 3 ∧ atBottom.dp.py = some 1 ∧
      cfg2.top.toNat + cfg2.height.toNat ≤ (1#17).toNat :=
  ⟨⟨⟨rfl, by decide, by decide⟩, (test_running_loop test_dict6).2.1, test_dict6, rfl, rfl, rfl, rfl,
      0, 1, rfl, rfl, by decide, by decide, by decide, by decide, by decide⟩,
    .inl (by decide), rfl, by decide⟩

/-- A configuration with another rectangle, at OPEN's pen. -/
def withRectangle (c : Cfg) : State := { loopOf dict6 with cfg := some c, dp := openDatapath c (loopOf dict6).dp }

theorem test_running_rectangle (c : Cfg) (h : c.ctLen.toNat ≤ 2) : running c 2 6 (withRectangle c) :=
  ⟨⟨rfl, by omega, h⟩, (test_running_loop test_dict6).2.1, test_dict6, openDatapath_ok c (loopOf dict6).dp⟩

/-- RA-10's rectangle. -/
theorem test_witness_HeightZeroPaintsNothing :
    running { cfg2 with height := 0, ctLen := 0 } 2 6 (withRectangle { cfg2 with height := 0, ctLen := 0 }) ∧
      { cfg2 with height := 0, ctLen := 0 }.height = 0 ∧ live 2 6 3 :=
  ⟨test_running_rectangle _ (by decide), rfl, .inl (by decide)⟩

/-- RA-8's rectangle of width 0, and RA-9's with no colours. -/
theorem test_witness_WidthZeroPaintsNothing :
    let c : Cfg := { cfg2 with width := 0, height := 2 }
    let e : Cfg := { c with ctLen := 0 }
    running c 2 6 (withRectangle c) ∧ c.width = 0 ∧ live 2 6 1 ∧ (withRectangle c).dp.py = some 0 ∧
      entryString 4096 (withRectangle c).dict 1 = some [1] ∧ colorsInRange c (([1] : List Byte).take 2) ∧
      running e 2 6 (withRectangle e) ∧ ¬ colorsInRange e (([1] : List Byte).take 2) := by
  refine ⟨test_running_rectangle _ (by decide), rfl, .inl (by decide), rfl, test_string_atomic test_dict6, fun b hb => ?_,
    test_running_rectangle _ (by decide), fun h => ?_⟩
  · obtain rfl : b = 1 := by simpa using hb
    exact .inr (by decide)
  · rcases h 1 (by decide) with h | h
    · cases h
    · exact absurd h (by decide)

/-- Three bytes at position 0 of a rectangle of two: the third is dropped. The second colour is transparent in `cfgT`. -/
theorem test_witness_StringLandsInRasterOrder :
    let s := { loopOf dict6 with cfg := some cfgT }
    configured cfgT s ∧ penOk cfgT s.dp ∧ penAt cfgT 0 s.dp ∧ cfgT.width ≠ 0 ∧
      0 ≤ cfgT.width.toNat * cfgT.height.toNat ∧
      colorsInRange cfgT (([0, 1, 2] : List Byte).take (cfgT.width.toNat * cfgT.height.toNat - 0)) ∧
      transparent cfgT 0 = false ∧ cfgT.left.toNat + 0 % cfgT.width.toNat < cfgT.canvasW.toNat ∧
      cfgT.top.toNat + 0 / cfgT.width.toNat < cfgT.canvasH.toNat := by
  refine ⟨⟨rfl, by decide, by decide⟩, openDatapath_ok cfgT Datapath.released, ⟨rfl, rfl⟩, by decide, by decide, fun b hb => ?_, by decide,
    by decide, by decide⟩
  have hb : b ∈ ([0, 1] : List Byte) := hb
  rcases List.mem_cons.1 hb with rfl | hb
  · exact .inr (by decide)
  · obtain rfl : b = 1 := by simpa using hb
    exact .inl (by decide)

theorem test_witness_PixelWrite : (1 : Nat) < cfg2.canvasW.toNat ∧ (0 : Nat) < cfg2.canvasH.toNat := by decide

theorem test_witness_PixelsAreDisjoint :
    (1 : Nat) < cfg2.canvasW.toNat ∧ (0 : Nat) < cfg2.canvasH.toNat ∧ inPixel cfg2.canvasW 1 0 7 := by
  refine ⟨by decide, by decide, ?_⟩
  unfold inPixel
  decide

/-- Offset 8 lies behind the two pixels of `cfg2`. -/
theorem test_witness_OutsideTheRectanglePersists :
    Inv firstOfP1 ∧ firstOfP1.phase.quiescent = false ∧ firstOfP1.cfg = some cfg2 ∧
      (∃ t, step firstOfP1 = .next t) ∧ outsideRectangle cfg2 8 := by
  refine ⟨test_inv_first, rfl, rfl, ⟨_, rfl⟩, fun px py hin hp => ?_⟩
  have h1 : px < 2 := hin.2.2.1
  have h2 : py < 1 := hin.2.2.2.2.2
  obtain rfl : py = 0 := by omega
  simp only [inPixel, pixelOffset] at hp
  omega

theorem test_witness_AlphaIsOpaque :
    firstOfP1.phase.quiescent = false ∧ ∃ t, step firstOfP1 = .next t ∧ t.phase ≠ .error := ⟨rfl, _, rfl, by decide⟩

/-- Without a configuration, and with one whose pixel (1, 0) is drawn. -/
theorem test_witness_AbortTakesAnException :
    State.reset.cfg = none ∧ firstOfP1.cfg = some cfg2 ∧ inRectangle cfg2 1 0 := by
  refine ⟨rfl, rfl, ?_⟩
  unfold inRectangle
  decide

/-- DONE, ERROR by Eof, and ERROR by a reason. -/
theorem test_witness_HostObservesTheOutcome :
    (∃ s, Inv s ∧ s.phase = .done) ∧ (∃ s, Inv s ∧ s.phase = .error ∧ s.status = Exc.eof.status) ∧
      ∃ s, Inv s ∧ s.phase = .error ∧ s.status = (Exc.malformed .codeBeyondNext).status := by
  refine ⟨⟨{ State.reset with phase := .done, status := Status.success, endPos := some 5 },
      ⟨?_, ⟨rfl, rfl⟩, ?_, Nat.two_pow_pos 32, nofun, ?_, nofun⟩, rfl⟩,
    ⟨abort .eof State.reset, abort_inv ?_ (Nat.two_pow_pos 32) nofun (by decide), by rw [abort_eq], by rw [abort_eq]⟩,
    ⟨abort (.malformed .codeBeyondNext) State.reset, abort_inv ?_ (Nat.two_pow_pos 32) nofun (by decide), by rw [abort_eq], by rw [abort_eq]⟩⟩
  · exact ⟨⟨by simp [State.reset], by simp [State.reset]⟩, by simp [State.reset, Dict.released]⟩
  · exact ⟨rfl, rfl, rfl, rfl⟩
  · intro p hp
    cases hp
    decide
  · exact ⟨by simp [State.reset], by simp [State.reset]⟩
  · exact ⟨by simp [State.reset], by simp [State.reset]⟩

theorem test_witness_HostFrameReads :
    firstOfP1.cfg = some cfg2 ∧ firstOfP1.phase.quiescent = false ∧
      { firstOfP1 with phase := .done }.phase.quiescent = true ∧ 7 < 4 * (cfg2.canvasW.toNat * cfg2.canvasH.toNat) ∧
      4 * (cfg2.canvasW.toNat * cfg2.canvasH.toNat) ≤ 8 := by decide

theorem test_witness_HostStructures :
    let d : ImageDescriptor := { left := 0, top := 0, width := 2, height := 1, lctFlag := false, interlaced := false,
                                 sorted := false, reserved := 0, lctSize := 0 }
    d.interlaced = false ∧ { d with interlaced := true }.interlaced = true ∧ (0x2D#8) ≠ 0x2C ∧
      ¬ ((0x21#8) = 0x21 ∧ (0xF9#8) = 0xF9 ∧ (0x05#8) = 0x04 ∧ (0x00#8) = 0x00) ∧ ([] : List Byte).length < 7 ∧
      ([1, 2, 3, 4, 5] : List Byte).length < 3 * 2 ∧ 3 * 1 ≤ ([1, 2, 3, 4, 5] : List Byte).length := by decide

/-- The block after hardware reset with no move left. -/
theorem test_witness_HardwareReset : (hardwareReset firstOfP1).host = [] := rfl

theorem test_witness_StepKeepsInvariant :
    Inv (loopOf dict6) ∧ launchPremise (loopOf dict6) ∧ ∃ t, step (loopOf dict6) = .next t := by
  exact ⟨test_inv_loop, ⟨nofun, nofun⟩, _, rfl⟩

theorem test_inv_idle (es : List Rgb) (ms : List HostMove) : Inv { State.reset with ct := es, host := ms } :=
  ⟨⟨⟨by simp [State.reset], by simp [State.reset]⟩, by simp [State.reset, Dict.released]⟩, ⟨rfl, rfl⟩,
    ⟨rfl, rfl, rfl, rfl⟩, Nat.two_pow_pos 32, nofun, nofun, nofun⟩

/-- A START and a stream put into IN that meet the launch premises, from IDLE. -/
theorem test_witness_StepNeverStops :
    let s := { State.reset with ct := bw, host := [.start cfg2] }
    let t := { State.reset with ct := [], host := [.writeIn p1] }
    Inv s ∧ launchPremise s ∧ Inv t ∧ launchPremise t := by
  refine ⟨test_inv_idle bw _, ⟨fun cfg rest h => ?_, nofun⟩, test_inv_idle [] _, nofun, fun bytes rest h => ?_⟩
  · cases h
    exact ⟨by decide, by decide⟩
  · cases h
    exact test_addressable_p1

theorem test_witness_StoresStayCanonical : storesOk firstOfP1 ∧ ∃ t, step firstOfP1 = .next t :=
  ⟨test_stores6 _ _ _, _, rfl⟩

/-- The step that reads P1's first code, and the START of a stream. -/
theorem test_witness_PositionsStayInWidth :
    positionsFit firstOfP1 ∧ (∃ t, step firstOfP1 = .next t ∧ t.br.pos = some 3) ∧
      positionsFit { State.reset with host := [.start cfg2] } ∧
      ∃ t, step { State.reset with host := [.start cfg2] } = .next t ∧ t.cfg = some cfg2 :=
  ⟨test_positions rfl (by decide), ⟨_, rfl, rfl⟩, ⟨nofun, nofun, nofun⟩, _, rfl, rfl⟩

theorem test_witness_DecodeEndsWithinTheBound : Inv openOfP1 ∧ openOfP1.phase = .opening := ⟨test_inv_open, rfl⟩

end Sys2Proof.Tests
end

section
/-! PROOF. 20_memory.md: the input port (R52, R53) and one pixel's write of the frame (R55). -/

namespace Sys2Proof.Machine

/-- InAdvance with fewer than `n` bytes left raises Eof (R53). -/
theorem inAdvance_eof {s : State} {p n : Nat} (hp : s.br.pos = some p) (h : s.input.length - p < n) :
    inAdvance n s = .raised .eof s := by
  simp [inAdvance, hp, h]

/-- InAdvance adds `n` to BR.pos where `n` bytes remain (R53). -/
theorem inAdvance_ok {s : State} {p n : Nat} (ha : addressable s) (hw : p < 2 ^ s.addrW) (hp : s.br.pos = some p)
    (h : n ≤ s.input.length - p) : inAdvance n s = .ok () (s.setBr { s.br with pos := some (p + n) }) := by
  rcases inAdvance_cases n ha hw hp with ⟨-, hok⟩ | ⟨hlt, -⟩
  · exact hok
  · omega

/-- To write BR.pos with the position it holds changes nothing. -/
theorem setBr_pos_self {s : State} {p : Nat} (hp : s.br.pos = some p) : s.setBr { s.br with pos := some p } = s := by
  rw [← hp]
  rfl

/-- InAdvance(0) never raises and BR.pos stays, past N too (R53). -/
theorem inAdvance_zero {s : State} {p : Nat} (ha : addressable s) (hw : p < 2 ^ s.addrW) (hp : s.br.pos = some p) :
    inAdvance 0 s = .ok () s := by
  rw [inAdvance_ok ha hw hp (Nat.zero_le _), Nat.add_zero, setBr_pos_self hp]

/-- Settles O8: below N by `inRead_ok`, at or past N by `inRead_eof`. -/
theorem inReadReadsOneByte : Obligations.InReadReadsOneByte :=
  fun _ _ ha hp => ⟨inRead_eof hp, fun _ hv => inRead_ok ha hp hv⟩

/-- Settles O9: the two outcomes by the bytes that remain, and the case `n = 0`. -/
theorem inAdvanceSkips : Obligations.InAdvanceSkips :=
  fun _ _ _ ha hw hp => ⟨inAdvance_eof hp, inAdvance_ok ha hw hp, inAdvance_zero ha hw hp⟩

/-- Settles O44: the pixel's own bytes, its place in the frame, and the frame clauses of a pixel write. -/
theorem pixelWrite : Obligations.PixelWrite := by
  intro c s px py r g b a hx hy o t
  obtain ⟨hr, hg, hb, ha⟩ := fbWritePixel_bytes c.canvasW px py r g b a s
  have hframe : o + 3 < 4 * (c.canvasW.toNat * c.canvasH.toNat) := (pixelOffset_lt hx hy).1
  have hothers : ∀ x, x < o ∨ o + 3 < x → t.fbRead x = s.fbRead x := by
    intro x hout
    refine fbWritePixel_other r g b a s fun ⟨hlow, hhigh⟩ => ?_
    change o ≤ x at hlow
    change x < o + 4 at hhigh
    omega
  exact ⟨hr, hg, hb, ha, hframe, rfl, hothers⟩

end Sys2Proof.Machine
end

section
/-! PROOF. 30_encoding.md: the dictionary's registers after a reset (R70). -/

namespace Sys2Proof.Machine

/-- DICT_RESET answers from every state whose minimum code size is written (R88). -/
theorem dictReset_of_minCodeSize {m : BitVec 4} {s : State} (hm : s.dict.minCodeSize = some m) :
    dictReset s = .ok () (s.setDict (resetRegisters m s.dict)) := by
  rw [dictReset, hm, need_some]

/-- Settles O30: DICT_RESET answers by `dictReset_of_minCodeSize`; the values it writes depend on `m` alone, and are R70's
in each of the seven rows. -/
theorem resetTable : Obligations.ResetTable := by
  intro x hx
  have hrow : 2 ^ (BitVec.ofNat 4 x.1).toNat = x.2.1 ∧ x.2.1 + 1 = x.2.2.1 ∧ x.2.1 + 2 = x.2.2.2.1 ∧
      (BitVec.ofNat 4 x.1).toNat + 1 = x.2.2.2.2.1 ∧ thresholdOf x.2.2.2.2.1 = BitVec.ofNat 12 x.2.2.2.2.2 := by
    revert x
    decide
  obtain ⟨hclear, heoi, hnext, hlength, hmax⟩ := hrow
  intro s hm
  rw [dictReset_of_minCodeSize hm, resetRegisters, hclear, heoi, hnext, hlength, hmax]
  rfl

end Sys2Proof.Machine
end

section
/-! PROOF. 40_bitreader.md: the widths BR_READBITS takes, and the widths the decoder asks for (R82). -/

namespace Sys2Proof.Machine

/-- BR_READBITS refuses a width outside 1..12, whatever the state (R82). -/
theorem readBits_refused {n : Nat} (hn : n = 0 ∨ 12 < n) (s : State) : readBits n s = .refused .readBitsWidth :=
  if_pos hn

/-- A dictionary in form holds the code width of R23's closed form. -/
theorem dictOk_codeLength {m ci : Nat} {d : Dict} (h : dictOk m ci d) :
    ∃ w, d.codeLength = some w ∧ w.toNat = widthFor m ci := by
  obtain ⟨h2, h8, -, -, ⟨-, hlength, -⟩, -⟩ := h
  have hle : widthFor m ci ≤ 12 := (widthFor_bounds ci h2 h8).2
  exact ⟨_, hlength, ofNat_toNat_of_lt (by omega)⟩

/-- Settles O6: a width outside 1..12 takes the refusing branch, and the width a dictionary in form holds is
`widthFor m ci`, which `widthFor_bounds` keeps within 3..12. -/
theorem readBitsWidths : Obligations.ReadBitsWidths := by
  refine ⟨fun n s hn => readBits_refused hn s, fun m ci s h => ?_⟩
  obtain ⟨w, hlength, hw⟩ := dictOk_codeLength h
  obtain ⟨h2, h8, -⟩ := h
  exact ⟨w, hlength, hw ▸ widthFor_bounds ci h2 h8⟩

end Sys2Proof.Machine
end

section
/-! PROOF. 41_dictionary.md: the add (R89, R90), the length of an entry's string (R96), and the next free slot between two
resets (R95). -/

namespace Sys2Proof.Machine

/-- The growth test is due at the threshold, below 12 bits (R89). -/
theorem growthDue_iff (ci : BitVec 13) (mx : BitVec 12) (w : BitVec 4) :
    growthDue ci mx w = true ↔ ci.toNat = mx.toNat ∧ w.toNat < 12 := by
  rw [growthDue, Bool.and_eq_true, decide_eq_true_iff, decide_eq_true_iff, Config.maxCodeWidth]

/-- The growth sets the width and its threshold and nothing else, in every state (R89, R93). -/
theorem grow_of_registers {ci : BitVec 13} {mx : BitVec 12} {w : BitVec 4} {d : Dict} (hmx : d.maxCode = some mx)
    (hw : d.codeLength = some w) :
    grow ci mx w d =
      { d with
        codeLength := some (if ci.toNat = mx.toNat ∧ w.toNat < 12 then w + 1 else w)
        maxCode := some (if ci.toNat = mx.toNat ∧ w.toNat < 12 then thresholdOf (w.toNat + 1) else mx) } := by
  unfold grow
  by_cases hdue : ci.toNat = mx.toNat ∧ w.toNat < 12
  · rw [if_pos ((growthDue_iff ci mx w).2 hdue), if_pos hdue, if_pos hdue]
  · rw [if_neg (mt (growthDue_iff ci mx w).1 hdue), if_neg hdue, if_neg hdue, ← hmx, ← hw]

/-- The growth leaves the lengths. -/
theorem grow_lens (ci : BitVec 13) (mx : BitVec 12) (w : BitVec 4) (d : Dict) : (grow ci mx w d).lens = d.lens := by
  unfold grow
  split <;> rfl

/-- A prefix's length is 0 for a negative one and LEN's otherwise (R89). -/
theorem prefixLength_eq {p : Link} {n : Nat} {s : State} (hneg : p.msb = true → n = 0)
    (hlen : p.msb = false → ∃ l, storeGet s.dict.lens p.toNat = some l ∧ n = l.toNat) :
    prefixLength p s = .ok n s := by
  unfold prefixLength linkIndex
  cases hp : p.msb with
  | true => rw [hneg hp]; rfl
  | false =>
    obtain ⟨l, hl, rfl⟩ := hlen hp
    simp [lengthAt, hl]

/-- DICT_ADD below 4096, in every state: growth, then the entry at currentIndex (R89). -/
theorem dictAdd_below {s : State} {p : Link} {ci : BitVec 13} {mx : BitVec 12} {w : BitVec 4} {n : Nat} (b : Byte)
    (hci : s.dict.currentIndex = some ci) (hmx : s.dict.maxCode = some mx) (hw : s.dict.codeLength = some w)
    (hlt : ci.toNat < 4096) (hneg : p.msb = true → n = 0)
    (hlen : p.msb = false → ∃ l, storeGet s.dict.lens p.toNat = some l ∧ n = l.toNat) :
    dictAdd p b s =
      .ok (some ci.toNat)
        (s.setDict
          { writeEntry ci.toNat p b (BitVec.ofNat 13 (n + 1)) (grow ci mx w s.dict) with
            currentIndex := some (ci + 1) }) := by
  have hprefix : prefixLength p (s.setDict (grow ci mx w s.dict)) = .ok n (s.setDict (grow ci mx w s.dict)) :=
    prefixLength_eq hneg (by simpa [grow_lens] using hlen)
  simp only [dictAdd, hci, hmx, hw, need_some, Config.dictCap, hlt, if_true, hprefix, Res.bind_ok, State.setDict_dict,
    State.setDict_setDict]

/-- DICT_ADD at 4096 and above, in every state: the growth alone, and no result (R89). -/
theorem dictAdd_full {s : State} {ci : BitVec 13} {mx : BitVec 12} {w : BitVec 4} (p : Link) (b : Byte)
    (hci : s.dict.currentIndex = some ci) (hmx : s.dict.maxCode = some mx) (hw : s.dict.codeLength = some w)
    (hge : ¬ ci.toNat < 4096) : dictAdd p b s = .ok none (s.setDict (grow ci mx w s.dict)) := by
  simp only [dictAdd, hci, hmx, hw, need_some, Config.dictCap, hge, if_false]

/-- Settles O31: below 4096 by `dictAdd_below`, above by `dictAdd_full`, with the registers of `grow_of_registers`. -/
theorem dictAddGrowsThenStores : Obligations.DictAddGrowsThenStores := by
  intro s p b ci mx w n hci hmx hw hneg hlen
  have hgrow := grow_of_registers (ci := ci) hmx hw
  by_cases hlt : ci.toNat < 4096
  · rw [if_pos hlt, if_pos hlt, dictAdd_below b hci hmx hw hlt hneg (hlen hlt), hgrow]
    refine ⟨_, rfl, rfl, rfl, rfl, rfl, rfl, rfl, rfl, fun j => ?_⟩
    by_cases hj : j = ci.toNat
    · subst hj
      simp [writeEntry, hlt]
    · simp [writeEntry, storeGet_storeSet_ne, hj]
  · rw [if_neg hlt, if_neg hlt, dictAdd_full p b hci hmx hw hlt, hgrow]
    refine ⟨_, rfl, rfl, rfl, rfl, hci, rfl, rfl, rfl, fun j => ?_⟩
    rw [if_neg fun ⟨hj, hj4⟩ => hlt (hj ▸ hj4)]
    exact ⟨rfl, rfl, rfl⟩

/-- The currentIndex of a dictionary in form is its size. -/
theorem dictOk_currentIndex_eq {m ci : Nat} {d : Dict} (hd : dictOk m ci d) :
    d.currentIndex = some (BitVec.ofNat 13 ci) := by
  obtain ⟨-, -, -, -, ⟨-, -, -, -, hi, -⟩, -⟩ := hd
  exact hi

/-- The size of a dictionary in form is at most 4096 (R95). -/
theorem dictOk_size_le {m ci : Nat} {d : Dict} (hd : dictOk m ci d) : ci ≤ 4096 := by
  obtain ⟨-, -, -, hle, -⟩ := hd
  exact hle

/-- Settles O34: the walk ends in a string of LEN's length by `entryString_ok`, and LEN has its bounds by `live_length`. -/
theorem entryLengths : Obligations.EntryLengths := by
  intro m ci i d hd hi
  have hi4 : i < 4096 := (live_lt hd hi).trans_le (dictOk_size_le hd)
  obtain ⟨bs, b, n, hstr, hlen, hn, rfl, -⟩ := entryString_ok hd i hi 4096 hi4
  obtain ⟨n', hlen', hpos, hn', -, hadded⟩ := live_length hd hi
  have hsame : n' = (b :: bs).length := by
    have h := congrArg BitVec.toNat (Option.some.inj (hlen'.symm.trans hlen))
    rwa [ofNat_toNat_of_lt (by omega), ofNat_toNat_of_lt (by omega)] at h
  exact ⟨b :: bs, hstr, hlen, hsame ▸ hpos, hn, fun h => hsame ▸ hadded h⟩

/-- A 12-bit code lies below a currentIndex of 4096, so it is no KWKWK (R90). -/
theorem decodeCode_frozen_ne_kwkwk (m : Nat) (c d : Code) : decodeCode .loop (viewOf m 4096) c ≠ .kwkwk d := by
  have hbelow : c.toNat < (viewOf m 4096).currentIndex := c.isLt
  simp only [decodeCode, if_pos hbelow]
  split
  · nofun
  · split <;> nofun

/-- Settles O32: the add by `dictAdd_frozen`, the codes by `decodeCode_frozen_ne_kwkwk`. -/
theorem frozenAddsDoNothing : Obligations.FrozenAddsDoNothing :=
  fun m _ hd => ⟨fun p b => dictAdd_frozen p b hd, decodeCode_frozen_ne_kwkwk m⟩

/-- A step that takes an exception ends in ERROR (R148). -/
theorem phase_of_stepAborts {s t : State} (h : stepAborts s) (ht : step s = .next t) : t.phase = .error := by
  obtain ⟨e, u, hu, -⟩ := h
  cases hu.symm.trans ht
  rfl

/-- A decode under way has a dictionary in form. -/
theorem running_dictOk {c : Cfg} {m ci : Nat} {s : State} (hr : running c m ci s) : dictOk m ci s.dict := by
  obtain ⟨-, -, hd, -⟩ := hr
  exact hd

/-- What a code step without an exception and without a CLEAR leaves of the dictionary's size: it stays, but for a step
that stays in LOOP, which adds one unless the dictionary is frozen (R95). -/
theorem codeStep_size {s t : State} (hinv : Inv s) (hp : s.phase = .first ∨ s.phase = .start ∨ s.phase = .loop)
    (hs : step s = .next t) (he : t.phase ≠ .error) (hc : ¬ (s.phase = .loop ∧ t.phase = .start)) :
    ∃ m ci, dictOk m ci s.dict ∧
      dictOk m (if s.phase = .loop ∧ t.phase = .loop then min (ci + 1) 4096 else ci) t.dict := by
  obtain ⟨-, -, hph, -, -⟩ := hinv
  have hab : ¬ stepAborts s := fun h => he (phase_of_stepAborts h hs)
  rcases hp with hp | hp | hp
  all_goals
    rw [phaseOk, hp] at hph
    rw [hp] at hc
    rw [hp]
  · obtain ⟨c, m, hr⟩ := hph
    obtain ⟨t', ht, -, hr', -⟩ := (step_first hp hr).resolve_right hab
    cases ht.symm.trans hs
    exact ⟨m, _, running_dictOk hr, running_dictOk hr'⟩
  · obtain ⟨c, m, hr⟩ := hph
    obtain ⟨t', ht, -, hr', -⟩ := (step_start hp hr).resolve_right hab
    cases ht.symm.trans hs
    exact ⟨m, _, running_dictOk hr, running_dictOk hr'⟩
  · obtain ⟨c, m, ci, hr, ho⟩ := hph
    obtain ⟨t', ht, -, -, hcases⟩ := (step_loop hp hr ho).resolve_right hab
    cases ht.symm.trans hs
    refine ⟨m, ci, running_dictOk hr, ?_⟩
    rcases hcases with ⟨hloop, hr', -⟩ | ⟨hstart, -⟩ | ⟨hterm, hr'⟩
    · rw [if_pos ⟨rfl, hloop⟩]
      exact running_dictOk hr'
    · exact absurd ⟨rfl, hstart⟩ hc
    · rw [hterm]
      exact running_dictOk hr'

/-- Settles O36: `codeStep_size` gives the size before and after the step, which currentIndex holds. -/
theorem currentIndexNeverFalls : Obligations.CurrentIndexNeverFalls := by
  intro s t ci hinv hp hci hs he hc
  obtain ⟨m, k, hd, hd'⟩ := codeStep_size hinv hp hs he hc
  have hk : k ≤ 4096 := dictOk_size_le hd
  obtain rfl : BitVec.ofNat 13 k = ci := Option.some.inj ((dictOk_currentIndex_eq hd).symm.trans hci)
  rw [dictOk_currentIndex hd, dictOk_currentIndex_eq hd']
  refine ⟨hk, congrArg some ?_⟩
  by_cases hloop : s.phase = .loop ∧ t.phase = .loop
  · obtain ⟨hsl, htl⟩ := hloop
    simp only [hsl, htl, true_and, and_self, if_true]
    split
    · rw [Nat.min_eq_left (by omega)]
      exact BitVec.ofNat_add k 1
    · rw [Nat.min_eq_right (by omega), show k = 4096 by omega]
  · rw [if_neg hloop, if_neg fun ⟨hsl, htl, _⟩ => hloop ⟨hsl, htl⟩]

end Sys2Proof.Machine
end

section
/-! PROOF. 43_rasterizer.md: what one byte does (R124, R127 to R130), and a rectangle of width 0 (R136). -/

namespace Sys2Proof.Machine

/-! ### One byte -/

/-- A transparent byte is not looked up and not drawn: the pen advances (R127, R129). -/
theorem paintByte_transparent {c : Cfg} {s : State} {b : Byte} {px py : Coord} (hc : configured c s) (hp : penOk c s.dp)
    (hx : s.dp.px = some px) (hy : s.dp.py = some py) (ht : transparent c b = true) :
    paintByte b s = .ok () (s.setDp (nextPen c px py s.dp)) := by
  obtain ⟨hcfg, -⟩ := hc
  rw [paintByte, hcfg, need_some, if_pos ht, Res.bind_ok, advancePen_ok hp hx hy]

/-- A visible byte without a colour-table entry raises, with nothing changed (R128). -/
theorem paintByte_without_colour {c : Cfg} {s : State} {b : Byte} (hc : configured c s) (ht : ¬ transparent c b = true)
    (hb : c.ctLen.toNat ≤ b.toNat) : paintByte b s = .raised (.malformed .colorIndexOutOfRange) s := by
  obtain ⟨hcfg, -⟩ := hc
  rw [paintByte, hcfg, need_some, if_neg ht, drawByte, if_pos hb, Res.bind_raised]

/-- A visible byte with a colour: the clipped pixel write, then the pen advance (R128 to R130). -/
theorem paintByte_visible {c : Cfg} {s : State} {b : Byte} {e : Rgb} {px py : Coord} (hc : configured c s)
    (hp : penOk c s.dp) (hx : s.dp.px = some px) (hy : s.dp.py = some py) (ht : ¬ transparent c b = true)
    (hb : b.toNat < c.ctLen.toNat) (he : s.ct[b.toNat]? = some e) :
    paintByte b s =
      .ok ()
        ((if px.toNat < c.left.toNat + c.width.toNat ∧ px.toNat < c.canvasW.toNat ∧ py.toNat < c.canvasH.toNat then
            fbWritePixel c.canvasW px.toNat py.toNat (e.extractLsb' 0 8) (e.extractLsb' 8 8) (e.extractLsb' 16 8)
              0xFF#8 s
          else s).setDp (nextPen c px py s.dp)) := by
  obtain ⟨hcfg, -⟩ := hc
  rw [paintByte, hcfg, need_some, if_neg ht, drawByte_ok hp hx hy he hb, Res.bind_ok]
  split
  · exact advancePen_ok (s := fbWritePixel _ _ _ _ _ _ _ s) hp hx hy
  · exact advancePen_ok hp hx hy

/-- In a decode every index below CFG.ctLen has a colour-table entry. -/
theorem configured_colour {c : Cfg} {s : State} {b : Byte} (hc : configured c s) (hb : b.toNat < c.ctLen.toNat) :
    ∃ e, s.ct[b.toNat]? = some e := by
  obtain ⟨-, -, hct⟩ := hc
  exact ⟨_, List.getElem?_eq_getElem (Nat.lt_of_lt_of_le hb hct)⟩

/-- Settles O39: the byte is transparent (`paintByte_transparent`), visible without a colour
(`paintByte_without_colour`), or visible with one (`paintByte_visible`). -/
theorem paintByteOrder : Obligations.PaintByteOrder := by
  intro c s b px py hc hp hx hy moved seeThrough
  have hpen : nextPen c px py s.dp = moved := nextPen_eq c px py s.dp
  have hsee : transparent c b = true ↔ seeThrough := transparent_iff
  refine ⟨fun ht => ?_, fun ht => paintByte_without_colour hc (mt hsee.1 ht), fun ht hb => ?_⟩
  · rw [paintByte_transparent hc hp hx hy (hsee.2 ht), hpen]
    rfl
  · obtain ⟨e, he⟩ := configured_colour hc hb
    refine ⟨e, he, ?_⟩
    rw [paintByte_visible hc hp hx hy (mt hsee.1 ht) hb he, hpen]
    rfl

/-! ### Width 0 -/

/-- In a rectangle of width 0 the pen stands at the left edge, so it advances straight down (R133, R136). -/
theorem nextPen_width_zero {c : Cfg} {d : Datapath} {px py : Coord} (hp : penOk c d) (hw : c.width = 0)
    (hx : d.px = some px) : nextPen c px py d = { d with py := some (py + 1) } := by
  obtain ⟨-, -, -, -, px', -, hx', -, hleft, hright, -⟩ := hp
  obtain rfl : px = px' := Option.some.inj (hx.symm.trans hx')
  have hw0 : c.width.toNat = 0 := congrArg BitVec.toNat hw
  have hedge : px = c.left.zeroExtend 17 := BitVec.eq_of_toNat_eq (by rw [coord_toNat]; omega)
  rw [nextPen, if_pos (by omega), ← hedge, ← hx]

/-- In a rectangle of width 0 a byte that is transparent or has a colour writes no pixel: the pen lies on CLIP.R (R130,
R136). -/
theorem paintByte_width_zero {c : Cfg} {s : State} {b : Byte} {py : Coord} (hc : configured c s) (hp : penOk c s.dp)
    (hw : c.width = 0) (hy : s.dp.py = some py) (hcol : transparent c b = true ∨ b.toNat < c.ctLen.toNat) :
    paintByte b s = .ok () (s.setDp { s.dp with py := some (py + 1) }) := by
  obtain ⟨-, -, -, -, px, -, hx, -, hleft, -⟩ := id hp
  have hw0 : c.width.toNat = 0 := congrArg BitVec.toNat hw
  rw [← nextPen_width_zero hp hw hx]
  by_cases ht : transparent c b = true
  · exact paintByte_transparent hc hp hx hy ht
  · have hb := hcol.resolve_left ht
    obtain ⟨e, he⟩ := configured_colour hc hb
    rw [paintByte_visible hc hp hx hy ht hb he, if_neg (by omega)]

/-- The pen one row down is in form where the bottom stop has let the byte through (R133, R136). -/
theorem penOk_width_zero_next {c : Cfg} {d : Datapath} {py : Coord} (hp : penOk c d) (hw : c.width = 0)
    (hy : d.py = some py) (hbot : py.toNat < c.top.toNat + c.height.toNat) :
    penOk c { d with py := some (py + 1) } := by
  obtain ⟨-, -, -, -, px, -, hx, -⟩ := id hp
  rw [← nextPen_width_zero hp hw hx]
  exact nextPen_ok hp hx hy hbot

/-- One byte of a string: the bottom stop, then the byte and the rest (R124, R126). -/
theorem paintList_cons {c : Cfg} {s : State} {py : Coord} (b : Byte) (str : List Byte) (hp : penOk c s.dp)
    (hy : s.dp.py = some py) :
    paintList (b :: str) s =
      if c.top.toNat + c.height.toNat ≤ py.toNat then .ok () s
      else (paintByte b s).bind fun _ s => paintList str s := by
  obtain ⟨-, -, -, hbot, -⟩ := hp
  rw [paintList, hy, hbot, need_some, need_some, coord_add_toNat]

/-- The empty string asks for no colour. -/
@[simp] theorem colorsInRange_nil (c : Cfg) : colorsInRange c [] := nofun

/-- A string has its colours when its first byte and the rest have theirs. -/
theorem colorsInRange_cons {c : Cfg} {b : Byte} {str : List Byte} :
    colorsInRange c (b :: str) ↔ (transparent c b = true ∨ b.toNat < c.ctLen.toNat) ∧ colorsInRange c str :=
  List.forall_mem_cons

/-- A pen in form is never below the bottom (R133). -/
theorem penOk_py_le {c : Cfg} {d : Datapath} {py : Coord} (hp : penOk c d) (hy : d.py = some py) :
    py.toNat ≤ c.top.toNat + c.height.toNat := by
  obtain ⟨-, -, -, -, -, py', -, hy', -, -, -, -, hle⟩ := hp
  obtain rfl : py = py' := Option.some.inj (hy.symm.trans hy')
  exact hle

/-- To write PY with the row it holds changes nothing. -/
theorem setDp_py_self {s : State} {py : Coord} (hy : s.dp.py = some py) :
    s.setDp { s.dp with py := some (BitVec.ofNat 17 py.toNat) } = s := by
  rw [BitVec.ofNat_toNat, BitVec.setWidth_eq, ← hy]
  rfl

/-- What painting a string does in a rectangle of width 0, by the colours of the bytes above the bottom: the pen moves
one row down a byte, to the bottom at most, or a byte raises; FB stays in both cases (R126, R136). -/
theorem paintList_width_zero {c : Cfg} {s : State} {py : Coord} (str : List Byte) (hc : configured c s)
    (hp : penOk c s.dp) (hw : c.width = 0) (hy : s.dp.py = some py) :
    (colorsInRange c (str.take (c.top.toNat + c.height.toNat - py.toNat)) →
        paintList str s =
          .ok ()
            (s.setDp
              { s.dp with
                py := some (BitVec.ofNat 17 (min (py.toNat + str.length) (c.top.toNat + c.height.toNat))) })) ∧
      (¬ colorsInRange c (str.take (c.top.toNat + c.height.toNat - py.toNat)) →
        ∃ t, paintList str s = .raised (.malformed .colorIndexOutOfRange) t ∧ t.fb = s.fb) := by
  induction str generalizing s py with
  | nil =>
    refine ⟨fun _ => ?_, fun hcol => absurd (by simp) hcol⟩
    rw [List.length_nil, Nat.add_zero, Nat.min_eq_left (penOk_py_le hp hy), setDp_py_self hy, paintList]
  | cons b str ih =>
    rw [paintList_cons b str hp hy]
    by_cases hstop : c.top.toNat + c.height.toNat ≤ py.toNat
    · rw [if_pos hstop, Nat.sub_eq_zero_of_le hstop, List.take_zero]
      refine ⟨fun _ => ?_, fun hcol => absurd (colorsInRange_nil c) hcol⟩
      rw [Nat.min_eq_right (by omega), Nat.le_antisymm hstop (penOk_py_le hp hy), setDp_py_self hy]
    · have htop := c.top.isLt
      have hheight := c.height.isLt
      have hdown : (py + 1).toNat = py.toNat + 1 := coord_succ (by omega)
      have hrows : c.top.toNat + c.height.toNat - py.toNat = c.top.toNat + c.height.toNat - (py.toNat + 1) + 1 := by
        omega
      rw [if_neg hstop, hrows, List.take_succ_cons, colorsInRange_cons]
      by_cases hb : transparent c b = true ∨ b.toNat < c.ctLen.toNat
      · rw [paintByte_width_zero hc hp hw hy hb, Res.bind_ok, and_iff_right hb, List.length_cons, ← Nat.add_assoc,
          Nat.add_right_comm, ← hdown]
        exact ih (s := s.setDp { s.dp with py := some (py + 1) }) hc (penOk_width_zero_next hp hw hy (by omega)) rfl
      · obtain ⟨ht, hlt⟩ := not_or.1 hb
        rw [paintByte_without_colour hc ht (Nat.le_of_not_lt hlt), Res.bind_raised]
        exact ⟨fun ⟨hcol, _⟩ => absurd hcol hb, fun _ => ⟨s, rfl, rfl⟩⟩

/-- Settles O42: PAINT is the painting of the entry's string with PB filled, and `paintList_width_zero` says what that
does. -/
theorem widthZeroPaintsNothing : Obligations.WidthZeroPaintsNothing := by
  intro c m ci i s py str hr hw hlive hy hstr
  obtain ⟨hc, -, hd, hp⟩ := hr
  obtain ⟨pb, hpaint, -⟩ := paint_eq_paintList hd hlive hstr
  obtain ⟨hpainted, hraised⟩ := paintList_width_zero (s := s.setPb pb) str hc hp hw hy
  rw [hpaint]
  exact ⟨fun hcol => ⟨pb, hpainted hcol⟩, hraised⟩

end Sys2Proof.Machine
end

section
/-! PROOF. 30_encoding.md: the decoder and the encoder agree (R63, R66, R71, R72), and the class map (R71). -/

namespace Sys2Proof

/-- A class's value is the code that was classified, whatever the registers (R71). -/
@[simp] theorem decodeCode_value (p : CodePlace) (d : CodeView) (c : Code) :
    (decodeCode p d c).value (.code p d) = some c.toNat := by
  cases p with
  | first => by_cases h : c.toNat = d.clearCode <;> simp [decodeCode, Instr.value, h]
  | start => by_cases h : c.toNat < d.clearCode <;> simp [decodeCode, Instr.value, h]
  | loop =>
    simp only [decodeCode]
    split
    · rename_i heoi
      rw [Instr.value, heoi]
    · split
      · rename_i hclear
        rw [Instr.value, hclear]
      · split
        · rfl
        · split <;> rfl

/-- A byte token's value is the byte (R72). -/
@[simp] theorem decodeByte_value (p : BytePlace) (b : Byte) : (decodeByte p b).value (.byte p) = some b.toNat := by
  cases p with
  | openByte => rw [decodeByte]; split <;> rfl
  | firstLen => rfl
  | refillLen =>
    rw [decodeByte]
    split
    · rename_i h0
      rw [h0]
      rfl
    · rfl
  | refillData => rfl
  | terminator =>
    rw [decodeByte]
    split
    · rename_i h0
      rw [h0]
      rfl
    · rfl

/-- A class is encoded by its code's bits (R63). -/
theorem encode_decodeCode (p : CodePlace) (d : CodeView) (c : Code) :
    encode (.code p d) (decodeCode p d c) = valueBits d.width c.toNat := by
  rw [encode, decodeCode_value]
  rfl

/-- A byte token is encoded by its byte's bits (R62). -/
theorem encode_decodeByte (p : BytePlace) (b : Byte) : encode (.byte p) (decodeByte p b) = valueBits 8 b.toNat := by
  rw [encode, decodeByte_value]
  rfl

/-- The class of a code may stand at its place (R71). -/
theorem decodeCode_wellFormed {p : CodePlace} {d : CodeView} {c : Code} (hd : d.wf = true)
    (hc : c.toNat < 2 ^ d.width) : (decodeCode p d c).wellFormed (.code p d) = true := by
  simp only [Instr.wellFormed, hd, Bool.true_and]
  cases p with
  | first => by_cases h : c.toNat = d.clearCode <;> simp [decodeCode, Instr.wfAtCode, fitsWidth, h, hc]
  | start =>
    by_cases h : c.toNat < d.clearCode
    · simp [decodeCode, Instr.wfAtCode, h]
    · simp [decodeCode, Instr.wfAtCode, fitsWidth, h, hc, Nat.le_of_not_lt h]
  | loop =>
    simp only [decodeCode]
    split
    · rfl
    · rename_i heoi
      split
      · rfl
      · rename_i hclear
        split
        · rename_i hlt
          simp [Instr.wfAtCode, fitsWidth, hc, hlt, hclear, heoi]
        · split
          · rename_i hnext
            simp [Instr.wfAtCode, fitsWidth, hnext, hnext ▸ hc]
          · have : d.currentIndex < c.toNat := by omega
            simp [Instr.wfAtCode, fitsWidth, hc, this]

/-- The token of a byte may stand at its place (R72). -/
theorem decodeByte_wellFormed (p : BytePlace) (b : Byte) : (decodeByte p b).wellFormed (.byte p) = true := by
  cases p with
  | openByte => by_cases h : legalMinCodeSize b = true <;> simp [decodeByte, Instr.wellFormed, Instr.wfAtByte, h]
  | firstLen => rfl
  | refillLen =>
    rw [decodeByte]
    split
    · rfl
    · rename_i hne
      exact decide_eq_true hne
  | refillData => rfl
  | terminator =>
    rw [decodeByte]
    split
    · rfl
    · rename_i hne
      exact decide_eq_true hne

/-- Both reserved codes and every code of a place's width are 12-bit values (R63, R66). -/
theorem code_of_fits {d : CodeView} (hd : d.wf = true) {v : Nat} (hv : v < 2 ^ d.width) :
    (BitVec.ofNat 12 v).toNat = v := by
  obtain ⟨-, h12, -⟩ := (CodeView.wf_iff d).1 hd
  exact Machine.ofNat_toNat_of_lt (hv.trans_le (Nat.pow_le_pow_right (by decide) h12))

/-- What may stand at a code place is the class of a code of its width (R71). -/
theorem exists_decodeCode {p : CodePlace} {d : CodeView} {i : Instr} (h : i.wellFormed (.code p d) = true) :
    ∃ c : Code, c.toNat < 2 ^ d.width ∧ decodeCode p d c = i := by
  obtain ⟨hd, hi⟩ := (Bool.and_eq_true _ _).mp h
  obtain ⟨-, -, heoi, hnext, -, hfit⟩ := (CodeView.wf_iff d).1 hd
  have hclear : (BitVec.ofNat 12 d.clearCode).toNat = d.clearCode := code_of_fits hd (by omega)
  have heoi' : (BitVec.ofNat 12 d.eoiCode).toNat = d.eoiCode := code_of_fits hd hfit
  cases i <;>
    simp only [Instr.wfAtCode, fitsWidth, Bool.and_eq_true, decide_eq_true_eq, Bool.false_eq_true] at hi
  case firstClear =>
    subst hi
    exact ⟨BitVec.ofNat 12 d.clearCode, by omega, by rw [decodeCode, if_pos hclear]⟩
  case firstBad c =>
    obtain ⟨⟨rfl, hc⟩, hne⟩ := hi
    exact ⟨c, hc, by rw [decodeCode, if_neg hne]⟩
  case startLiteral c =>
    obtain ⟨rfl, hlt⟩ := hi
    exact ⟨c, by omega, by rw [decodeCode, if_pos hlt]⟩
  case startBad c =>
    obtain ⟨⟨rfl, hc⟩, hle⟩ := hi
    exact ⟨c, hc, by rw [decodeCode, if_neg (by omega)]⟩
  case eoi =>
    subst hi
    exact ⟨BitVec.ofNat 12 d.eoiCode, by omega, by rw [decodeCode, if_pos heoi']⟩
  case clear =>
    subst hi
    exact ⟨BitVec.ofNat 12 d.clearCode, by omega, by rw [decodeCode, if_neg (by omega), if_pos hclear]⟩
  case existing c =>
    obtain ⟨⟨⟨⟨rfl, hc⟩, hlt⟩, hne⟩, hne'⟩ := hi
    exact ⟨c, hc, by rw [decodeCode, if_neg hne', if_neg hne, if_pos hlt]⟩
  case kwkwk c =>
    obtain ⟨⟨rfl, hc⟩, heq⟩ := hi
    exact ⟨c, hc, by rw [decodeCode, if_neg (by omega), if_neg (by omega), if_neg (by omega), if_pos heq]⟩
  case invalid c =>
    obtain ⟨⟨rfl, hc⟩, hlt⟩ := hi
    exact ⟨c, hc, by rw [decodeCode, if_neg (by omega), if_neg (by omega), if_neg (by omega), if_neg (by omega)]⟩

/-- What may stand at a byte place is the token of a byte (R72). -/
theorem exists_decodeByte {p : BytePlace} {i : Instr} (h : i.wellFormed (.byte p) = true) :
    ∃ b : Byte, decodeByte p b = i := by
  cases i <;>
    simp only [Instr.wellFormed, Instr.wfAtByte, Bool.and_eq_true, decide_eq_true_eq, Bool.false_eq_true,
      Bool.not_eq_true'] at h
  case minCodeSize b =>
    obtain ⟨rfl, hb⟩ := h
    exact ⟨b, by rw [decodeByte, if_pos hb]⟩
  case minCodeSizeBad b =>
    obtain ⟨rfl, hb⟩ := h
    exact ⟨b, by rw [decodeByte, hb, if_neg Bool.false_ne_true]⟩
  case firstLen b => exact ⟨b, by rw [h, decodeByte]⟩
  case subblockLen b =>
    obtain ⟨rfl, hb⟩ := h
    exact ⟨b, by rw [decodeByte, if_neg hb]⟩
  case midstreamTerminator => exact ⟨0, by rw [h, decodeByte, if_pos rfl]⟩
  case data b => exact ⟨b, by rw [h, decodeByte]⟩
  case terminator => exact ⟨0, by rw [h, decodeByte, if_pos rfl]⟩
  case badTerminator b =>
    obtain ⟨rfl, hb⟩ := h
    exact ⟨b, by rw [decodeByte, if_neg hb]⟩

/-- The decoder takes eight bits as the token of their byte and leaves the rest (R62, R72). -/
theorem decode_byte_append (p : BytePlace) (b : Byte) (rest : List Bool) :
    decode (.byte p) (valueBits 8 b.toNat ++ rest) = .ok (decodeByte p b, rest) := by
  have hlen : (valueBits 8 b.toNat).length = 8 := Machine.valueBits_length 8 b.toNat
  have hbits : (valueBits 8 b.toNat ++ rest).take 8 = valueBits 8 b.toNat := List.take_left' hlen
  have hrest : (valueBits 8 b.toNat ++ rest).drop 8 = rest := List.drop_left' hlen
  have hb : BitVec.ofNat 8 (bitsValue (valueBits 8 b.toNat)) = b := by
    rw [bitsValue_valueBits, Nat.mod_eq_of_lt b.isLt, BitVec.ofNat_toNat, BitVec.setWidth_eq]
  rw [decode, if_neg (by rw [List.length_append, hlen]; omega), hbits, hrest, hb]

/-- The decoder takes a code of the place's width as its class and leaves the rest (R62, R71). -/
theorem decode_code_append {p : CodePlace} {d : CodeView} {c : Code} (hd : d.wf = true) (hc : c.toNat < 2 ^ d.width)
    (rest : List Bool) :
    decode (.code p d) (valueBits d.width c.toNat ++ rest) = .ok (decodeCode p d c, rest) := by
  obtain ⟨h3, h12, -⟩ := (CodeView.wf_iff d).1 hd
  have hlen : (valueBits d.width c.toNat).length = d.width := Machine.valueBits_length _ _
  have hbits : (valueBits d.width c.toNat ++ rest).take d.width = valueBits d.width c.toNat := List.take_left' hlen
  have hrest : (valueBits d.width c.toNat ++ rest).drop d.width = rest := List.drop_left' hlen
  have hwidth : ¬ (d.width = 0 ∨ Config.maxCodeWidth < d.width) := by
    rw [Config.maxCodeWidth]
    omega
  have hcode : BitVec.ofNat 12 (bitsValue (valueBits d.width c.toNat)) = c := by
    rw [bitsValue_valueBits, Nat.mod_eq_of_lt hc, BitVec.ofNat_toNat, BitVec.setWidth_eq]
  rw [decode, if_neg hwidth, if_neg (by rw [List.length_append, hlen]; omega), hbits, hrest, hcode]

/-- Settles O1: what may stand at a place is the class of a code or the token of a byte, whose bits decode to it. -/
theorem encodedTokensDecodeBack : Obligations.EncodedTokensDecodeBack := by
  intro x i rest h
  cases x with
  | byte p =>
    obtain ⟨b, rfl⟩ := exists_decodeByte h
    rw [encode_decodeByte, decode_byte_append]
  | code p d =>
    obtain ⟨c, hc, rfl⟩ := exists_decodeCode h
    obtain ⟨hd, -⟩ := (Bool.and_eq_true _ _).mp h
    rw [encode_decodeCode, decode_code_append hd hc]

/-- The bits of a value of the first `n` bits are these bits (R63). -/
theorem valueBits_bitsValue_take {n : Nat} {bits : List Bool} (h : n ≤ bits.length) :
    valueBits n (bitsValue (bits.take n)) = bits.take n := by
  simpa [List.length_take, Nat.min_eq_left h] using valueBits_bitsValue (bits.take n)

/-- The value of the first `n` bits has `n` bits. -/
theorem bitsValue_take_lt {n : Nat} {bits : List Bool} (h : n ≤ bits.length) : bitsValue (bits.take n) < 2 ^ n := by
  simpa [List.length_take, Nat.min_eq_left h] using bitsValue_lt (bits.take n)

/-- Settles O2: the decoder answers the class of the next code or the token of the next byte, with the bits after it. -/
theorem decodedTokensEncodeBack : Obligations.DecodedTokensEncodeBack := by
  intro x bits rest i hx h
  cases x with
  | byte p =>
    rw [decode] at h
    split at h
    · cases h
    · rename_i hlen
      have hle : 8 ≤ bits.length := Nat.le_of_not_lt hlen
      cases h
      refine ⟨decodeByte_wellFormed p _, ?_⟩
      rw [encode_decodeByte, Machine.ofNat_toNat_of_lt (bitsValue_take_lt hle), valueBits_bitsValue_take hle,
        List.take_append_drop]
  | code p d =>
    rw [decode] at h
    split at h
    · cases h
    · split at h
      · cases h
      · rename_i hlen
        have hle : d.width ≤ bits.length := Nat.le_of_not_lt hlen
        have hlt := bitsValue_take_lt hle
        have hcode := code_of_fits hx hlt
        cases h
        refine ⟨decodeCode_wellFormed hx (hcode.symm ▸ hlt), ?_⟩
        rw [encode_decodeCode, hcode, valueBits_bitsValue_take hle, List.take_append_drop]

/-- Settles O3: each clause takes one branch of the class map, since the reserved codes lie below currentIndex. -/
theorem codeClassConditions : Obligations.CodeClassConditions := by
  intro d c hd hc
  obtain ⟨-, -, heoi, hnext, -, -⟩ := (CodeView.wf_iff d).1 hd
  have hcode := c.isLt
  simp only [decodeCode]
  refine ⟨fun h => if_pos h, fun h => if_neg h, fun h => if_pos h, fun h => if_neg (by omega), fun h => if_pos h,
    fun h => ?_, fun h hclear hne => ?_, fun h => ?_, fun h => ?_, fun h => by omega⟩
  · rw [if_neg (by omega), if_pos h]
  · rw [if_neg hne, if_neg hclear, if_pos h]
  · rw [if_neg (by omega), if_neg (by omega), if_neg (by omega), if_pos h]
  · rw [if_neg (by omega), if_neg (by omega), if_neg (by omega), if_neg (by omega)]

/-- Settles O4: the decoder evaluates on each written-out word, code rows first, byte rows after them. -/
theorem specWordsDecode : Obligations.SpecWordsDecode :=
  ⟨rfl, rfl, rfl, rfl, rfl, rfl, rfl, rfl, rfl, rfl, rfl, rfl, rfl, rfl, rfl, rfl, rfl⟩

end Sys2Proof
end

section
/-! PROOF. What every step keeps: the stores' canonical form (R24, R28, R135), the width of a position (R34), and the
invariant. A busy step is one of `step_busy`'s outcomes, a quiescent step is the host's next move. -/

namespace Sys2Proof.Machine

/-! ### The phases -/

/-- The five busy phases (R10). -/
theorem busy_cases {p : Phase} (h : p.quiescent = false) :
    p = .opening ∨ p = .first ∨ p = .start ∨ p = .loop ∨ p = .term := by
  revert h
  cases p <;> decide

/-- The three quiescent phases (R10). -/
theorem quiescent_cases {p : Phase} (h : p.quiescent = true) : p = .idle ∨ p = .done ∨ p = .error := by
  revert h
  cases p <;> decide

/-! ### The host's moves -/

/-- Everything a step of a quiescent phase can do: it waits, it takes START, or it makes another move of the host (R107,
R139). -/
theorem quiescentStep_cases {s t : State} (hq : s.phase.quiescent = true) (h : step s = .next t) :
    (s.host = [] ∧ t = s) ∨
      (∃ cfg rest, s.host = .start cfg :: rest ∧ execStart cfg { s with host := rest } = .next t) ∨
      (∃ move rest, s.host = move :: rest ∧ (∀ cfg, move ≠ .start cfg) ∧
        t = hostMove move { s with host := rest }) := by
  rw [step_quiescent hq, hostStep] at h
  split at h
  · rename_i hh
    cases h
    exact .inl ⟨hh, rfl⟩
  · rename_i cfg rest hh
    exact .inr (.inl ⟨cfg, rest, hh, h⟩)
  all_goals
    rename_i hh
    cases h
    exact .inr (.inr ⟨_, _, hh, nofun, rfl⟩)

/-- START that answers latches the configuration and enters OPEN (R139). -/
theorem execStart_next {cfg : Cfg} {s t : State} (h : execStart cfg s = .next t) :
    t = { s with cfg := some { cfg with startPos := s.position cfg.startPos }, status := Status.idle, endPos := none,
                 phase := .opening } := by
  unfold execStart at h
  split at h
  · cases h
  · split at h
    · cases h
    · cases h
      rfl

/-- A step of a quiescent phase keeps whatever waiting, START and every other move of the host keep. -/
theorem quiescentStep_keeps {P : State → State → Prop} {s t : State} (hq : s.phase.quiescent = true)
    (h : step s = .next t) (hwait : P s s)
    (hstart : ∀ cfg rest, s.host = .start cfg :: rest → execStart cfg { s with host := rest } = .next t → P s t)
    (hmove : ∀ move rest, s.host = move :: rest → P s (hostMove move { s with host := rest })) : P s t := by
  rcases quiescentStep_cases hq h with ⟨-, rfl⟩ | ⟨cfg, rest, hh, hs⟩ | ⟨move, rest, hh, -, rfl⟩
  · exact hwait
  · exact hstart cfg rest hh hs
  · exact hmove move rest hh

/-! ### The stores -/

/-- An abort keeps the stores' canonical form: it draws inside the frame and empties the others (R135, R148). -/
theorem abort_storesOk (e : Exc) {s : State} (h : storesOk s) : storesOk (abort e s) := by
  rw [abort_eq]
  exact ⟨drawFrame_wf h.1, by simp [Dict.released]⟩

/-- A move of the host keeps the stores' canonical form: it writes FB below 2^34 (R135, R158). -/
theorem hostMove_storesOk (move : HostMove) {s : State} (h : storesOk s) : storesOk (hostMove move s) := by
  cases move with
  | writeIn bytes => exact h
  | writeCt entries => exact h
  | writeFb a b => exact ⟨memorySet_wf h.1 a.isLt b, h.2⟩
  | reset => exact ⟨h.1, by simp [hostMove, State.reset, Dict.released]⟩
  | start cfg => exact h

/-- Settles O58: a busy step ends in an abort, in a rule that keeps the stores, or in the release of all but FB. -/
theorem storesStayCanonical : Obligations.StoresStayCanonical := by
  intro s t hs h
  by_cases hq : s.phase.quiescent = true
  · refine quiescentStep_keeps (P := fun _ t => storesOk t) hq h hs (fun cfg rest _ hst => ?_)
      fun move rest _ => hostMove_storesOk move hs
    rw [execStart_next hst]
    exact hs
  · rcases step_busy (Bool.eq_false_iff.2 hq) h with
      ⟨u, e, hk, -, rfl⟩ | ⟨u, p, hk, -, rfl⟩ | ⟨-, u, pos, hk, -, rfl⟩
    all_goals
      obtain ⟨-, hkeep, -⟩ := hk
      have hu := hkeep hs
    · exact abort_storesOk e hu
    · exact hu
    · exact ⟨hu.1, by simp [Dict.released]⟩

/-! ### The positions -/

/-- Settles O59: START latches a position, BR.pos goes into RESULT as it is, and every other write keeps the width. -/
theorem positionsStayInWidth : Obligations.PositionsStayInWidth := by
  intro s t hs h
  by_cases hq : s.phase.quiescent = true
  · refine quiescentStep_keeps (P := fun s t => positionsFit t ∧ t.addrW = s.addrW) hq h ⟨hs, rfl⟩
      (fun cfg rest _ hst => ?_) fun move rest _ => ?_
    · obtain ⟨hpos, -, -⟩ := hs
      rw [execStart_next hst]
      refine ⟨⟨hpos, nofun, fun c hc => ?_⟩, rfl⟩
      cases hc
      exact position_lt _ _
    · cases move with
      | reset => exact ⟨⟨nofun, nofun, nofun⟩, rfl⟩
      | writeIn bytes => exact ⟨hs, rfl⟩
      | writeCt entries => exact ⟨hs, rfl⟩
      | writeFb a b => exact ⟨hs, rfl⟩
      | start cfg => exact ⟨hs, rfl⟩
  · rcases step_busy (Bool.eq_false_iff.2 hq) h with
      ⟨u, e, hk, -, rfl⟩ | ⟨u, p, hk, -, rfl⟩ | ⟨-, u, pos, hk, hpos, rfl⟩
    all_goals
      obtain ⟨⟨-, -, -, -, -, -, -, -, haddr⟩, -, hfit, -⟩ := hk
      obtain ⟨hbr, hend, hcfg⟩ := hfit hs
    · rw [abort_eq]
      exact ⟨⟨nofun, nofun, hcfg⟩, haddr⟩
    · exact ⟨⟨hbr, hend, hcfg⟩, haddr⟩
    · refine ⟨⟨nofun, fun q hq => ?_, hcfg⟩, haddr⟩
      cases hq
      exact hbr _ hpos

/-! ### The invariant -/

/-- ADDR_W stays wide enough for IN: only the host changes IN, within the launch premise (R6, R34). -/
theorem step_addressable {s t : State} (ha : addressable s) (hl : launchPremise s) (h : step s = .next t) :
    addressable t := by
  by_cases hq : s.phase.quiescent = true
  · refine quiescentStep_keeps (P := fun _ t => addressable t) hq h ha (fun cfg rest _ hst => ?_)
      fun move rest hh => ?_
    · rw [execStart_next hst]
      exact ha
    · cases move with
      | writeIn bytes => exact hl.2 bytes rest hh
      | writeCt entries => exact ha
      | writeFb a b => exact ha
      | reset => exact ha
      | start cfg => exact ha
  · rcases step_busy (Bool.eq_false_iff.2 hq) h with
      ⟨u, e, hk, -, rfl⟩ | ⟨u, p, hk, -, rfl⟩ | ⟨-, u, pos, hk, -, rfl⟩
    all_goals obtain ⟨⟨-, -, -, -, -, hin, -, -, haddr⟩, -⟩ := hk
    · rw [abort_eq]
      simpa only [addressable, hin, haddr] using ha
    · simpa only [addressable, State.setPhase_input, State.setPhase_addrW, hin, haddr] using ha
    · simpa only [addressable, release_input, release_addrW, hin, haddr] using ha

/-- PHASE, STATUS and RESULT agree after an exception (R140, R148). -/
theorem abort_outcomeOk {e : Exc} (s : State) (he : e ≠ .malformed .none) : outcomeOk (abort e s) := by
  rw [abort_eq]
  refine ⟨rfl, ?_⟩
  cases e with
  | eof => exact .inl rfl
  | malformed r => exact .inr ⟨r, fun hr => he (hr ▸ rfl), rfl⟩

/-- In a busy phase STATUS is NONE and RESULT has no value (R11, R12). -/
theorem outcomeOk_busy {s : State} (hq : s.phase.quiescent = false) :
    outcomeOk s ↔ s.status = Status.idle ∧ s.endPos = none := by
  rcases busy_cases hq with hp | hp | hp | hp | hp <;> rw [outcomeOk, hp]

/-- The phases a busy phase moves on to are busy (R107). -/
theorem nextPhases_busy {p q : Phase} (h : q ∈ nextPhases p) : q.quiescent = false := by
  revert h
  cases p <;> cases q <;> decide

/-- PHASE, STATUS and RESULT stay in agreement (R140). -/
theorem step_outcomeOk {s t : State} (ho : outcomeOk s) (h : step s = .next t) : outcomeOk t := by
  by_cases hq : s.phase.quiescent = true
  · rcases hostStep_cases hq h with ⟨hp, hst, he⟩ | ⟨cfg, rest, -, -, rfl⟩ | ⟨rest, -, rfl⟩
    · simpa only [outcomeOk, hp, hst, he] using ho
    · exact ⟨rfl, rfl⟩
    · exact ⟨rfl, rfl⟩
  · have hq' := Bool.eq_false_iff.2 hq
    obtain ⟨hst, he⟩ := (outcomeOk_busy hq').1 ho
    rcases step_busy hq' h with ⟨u, e, -, hne, rfl⟩ | ⟨u, p, hk, hp, rfl⟩ | ⟨-, u, pos, -, -, rfl⟩
    · exact abort_outcomeOk u hne
    · obtain ⟨⟨-, hst', he', -⟩, -⟩ := hk
      exact (outcomeOk_busy (nextPhases_busy hp)).2 ⟨hst'.trans hst, he'.trans he⟩
    · exact ⟨rfl, rfl⟩

/-- An abort leaves what ERROR needs: everything is released (R30, R148). -/
theorem abort_phaseOk (e : Exc) (s : State) : phaseOk (abort e s) := by
  rw [abort_eq]
  exact ⟨rfl, rfl, rfl, rfl⟩

/-- A decode under way has a bit reader in form. -/
theorem running_readerOk {c : Cfg} {m ci : Nat} {s : State} (hr : running c m ci s) : readerOk s := by
  obtain ⟨-, hreader, -⟩ := hr
  exact hreader

/-- A step of a decode answers a state with what its phase needs, or takes an exception (R155). -/
theorem busyStep_phaseOk {s : State} (hq : s.phase.quiescent = false) (ha : addressable s) (hph : phaseOk s) :
    (∃ t, step s = .next t ∧ phaseOk t) ∨ stepAborts s := by
  unfold phaseOk at hph
  rcases busy_cases hq with hp | hp | hp | hp | hp <;> rw [hp] at hph
  · obtain ⟨hr, c, hc⟩ := hph
    refine (step_open hp ha hc hr).imp_left fun ⟨t, m, ht, hpt, hrun, _⟩ => ⟨t, ht, ?_⟩
    rw [phaseOk, hpt]
    exact ⟨c, m, hrun⟩
  · obtain ⟨c, m, hr⟩ := hph
    refine (step_first hp hr).imp_left fun ⟨t, ht, hpt, hrun, _⟩ => ⟨t, ht, ?_⟩
    rw [phaseOk, hpt]
    exact ⟨c, m, hrun⟩
  · obtain ⟨c, m, hr⟩ := hph
    refine (step_start hp hr).imp_left fun ⟨t, ht, hpt, hrun, hold, _⟩ => ⟨t, ht, ?_⟩
    rw [phaseOk, hpt]
    exact ⟨c, m, _, hrun, hold⟩
  · obtain ⟨c, m, ci, hr, ho⟩ := hph
    refine (step_loop hp hr ho).imp_left fun ⟨t, ht, _, _, hcases⟩ => ⟨t, ht, ?_⟩
    rw [phaseOk]
    rcases hcases with ⟨hpt, hrun, hold⟩ | ⟨hpt, hrun⟩ | ⟨hpt, hrun⟩ <;> rw [hpt]
    · exact ⟨c, m, _, hrun, hold⟩
    · exact ⟨c, m, hrun⟩
    · exact ⟨c, m, ci, hrun⟩
  · obtain ⟨c, m, ci, hr⟩ := hph
    refine (step_term_cases hp (running_readerOk hr)).imp_left fun ⟨e, ht⟩ => ⟨_, ht, ?_⟩
    exact ⟨rfl, rfl, rfl, rfl⟩

/-- A quiescent phase is one whose working registers are released (R30). -/
theorem phaseOk_quiescent {s : State} (hq : s.phase.quiescent = true) : phaseOk s ↔ released s := by
  rcases quiescent_cases hq with hp | hp | hp <;> rw [phaseOk, hp]

/-- A step of a quiescent phase leaves what its next phase needs: released registers, and a configuration that the
launch premise covers in OPEN (R139, R161). -/
theorem quiescentStep_phaseOk {s t : State} (hq : s.phase.quiescent = true) (hl : launchPremise s) (hph : phaseOk s)
    (h : step s = .next t) : phaseOk t := by
  have hr := (phaseOk_quiescent hq).1 hph
  refine quiescentStep_keeps (P := fun _ t => phaseOk t) hq h hph (fun cfg rest hh hst => ?_) fun move rest _ => ?_
  · rw [execStart_next hst]
    exact ⟨hr, _, rfl, hl.1 cfg rest hh⟩
  · have hstay : ∀ u, u.phase = s.phase → released u → phaseOk u := fun u hp => (phaseOk_quiescent (hp ▸ hq)).2
    cases move with
    | reset => exact ⟨rfl, rfl, rfl, rfl⟩
    | writeIn bytes => exact hstay _ rfl hr
    | writeCt entries => exact hstay _ rfl hr
    | writeFb a b => exact hstay _ rfl hr
    | start cfg => exact hstay _ rfl hr

/-- Every step leaves what its next phase needs of the working registers. -/
theorem step_phaseOk {s t : State} (ha : addressable s) (hl : launchPremise s) (hph : phaseOk s)
    (h : step s = .next t) : phaseOk t := by
  by_cases hq : s.phase.quiescent = true
  · exact quiescentStep_phaseOk hq hl hph h
  · rcases busyStep_phaseOk (Bool.eq_false_iff.2 hq) ha hph with ⟨u, hu, hok⟩ | ⟨e, u, hu, -⟩
    · cases hu.symm.trans h
      exact hok
    · cases hu.symm.trans h
      exact abort_phaseOk e u

/-- Settles O56: each of the invariant's five parts is kept. -/
theorem stepKeepsInvariant : Obligations.StepKeepsInvariant :=
  fun s t ⟨hstores, hout, hph, ha, hfit⟩ hl h =>
    ⟨storesStayCanonical s t hstores h, step_outcomeOk hout h, step_phaseOk ha hl hph h, step_addressable ha hl h,
      (positionsStayInWidth s t hfit h).1⟩

/-- Settles O55: at reset every store is empty, every register is released, and the host has no move. -/
theorem resetMeetsInvariant : Obligations.ResetMeetsInvariant := by
  have hstores : storesOk State.reset := by simp [storesOk, Memory.wf, State.reset, Dict.released]
  have ha : addressable State.reset := Nat.two_pow_pos 32
  exact ⟨⟨hstores, ⟨rfl, rfl⟩, ⟨rfl, rfl, rfl, rfl⟩, ha, nofun, nofun, nofun⟩, nofun, nofun⟩

/-! ### No step stops -/

/-- A step of a quiescent phase answers under the launch premise: START has at most 256 colours (R139, R161). -/
theorem quiescentStep_answers {s : State} (hq : s.phase.quiescent = true) (hl : launchPremise s) :
    ∃ t, step s = .next t := by
  rw [step_quiescent hq, hostStep]
  split
  case h_2 cfg rest hh =>
    have hct : ¬ Config.ctMax < cfg.ctLen.toNat := Nat.not_lt.2 (hl.1 cfg rest hh).1
    simp only [exec, execStart, hq, Bool.true_eq_false, if_false, if_neg hct]
    exact ⟨_, rfl⟩
  all_goals exact ⟨_, rfl⟩

/-- Settles O57: a quiescent step answers by `quiescentStep_answers`, a busy one goes on or takes an exception. -/
theorem stepNeverStops : Obligations.StepNeverStops := by
  intro s ⟨_, _, hph, ha, _⟩ hl
  by_cases hq : s.phase.quiescent = true
  · exact quiescentStep_answers hq hl
  · rcases busyStep_phaseOk (Bool.eq_false_iff.2 hq) ha hph with ⟨t, ht, -⟩ | ⟨e, u, hu, -⟩
    · exact ⟨t, ht⟩
    · exact ⟨_, hu⟩

/-! ### The end of a decode -/

/-- The decode reaches DONE or ERROR within `k` steps. -/
def endsWithin (k : Nat) (s : State) : Prop :=
  ∃ (j : Nat) (t : State), j ≤ k ∧ core.run j s = .next t ∧ (t.phase = .done ∨ t.phase = .error)

/-- A run goes on from what its first step answers. -/
theorem run_succ_of_next {M : Host.Core} {s u : M.State} (h : M.step s = .next u) (k : Nat) :
    M.run (k + 1) s = M.run k u := by
  rw [Host.Core.run, h]

/-- One step more where a step answers. -/
theorem endsWithin_succ {k : Nat} {s u : State} (h : step s = .next u) (hu : endsWithin k u) : endsWithin (k + 1) s := by
  obtain ⟨j, t, hj, hrun, hend⟩ := hu
  exact ⟨j + 1, t, Nat.succ_le_succ hj, (run_succ_of_next (M := core) h j).trans hrun, hend⟩

theorem endsWithin_mono {k l : Nat} {s : State} (hkl : k ≤ l) (h : endsWithin k s) : endsWithin l s := by
  obtain ⟨j, t, hj, ht⟩ := h
  exact ⟨j, t, hj.trans hkl, ht⟩

/-- DONE and ERROR are the ends. -/
theorem endsWithin_zero {s : State} (h : s.phase = .done ∨ s.phase = .error) : endsWithin 0 s := ⟨0, s, le_rfl, rfl, h⟩

/-- A step that takes an exception ends the decode (R148). -/
theorem endsWithin_of_stepAborts {s : State} (h : stepAborts s) : endsWithin 1 s := by
  obtain ⟨e, u, hu, -⟩ := h
  exact endsWithin_succ hu (endsWithin_zero (.inr rfl))

/-- TERM ends the decode in one step (R115). -/
theorem endsWithin_term {s : State} (hp : s.phase = .term) (hr : readerOk s) : endsWithin 1 s := by
  rcases step_term_cases hp hr with ⟨e, ht⟩ | hab
  · exact endsWithin_succ ht (endsWithin_zero (.inl rfl))
  · exact endsWithin_of_stepAborts hab

/-- A decode that reads codes, with `b` bits ahead, ends within `b / 3 + 1` steps: each code takes three bits at least
(R68, R106). -/
theorem endsWithin_codes (b : Nat) {s : State} (hph : phaseOk s)
    (hp : s.phase = .first ∨ s.phase = .start ∨ s.phase = .loop) (hb : bitsAhead s ≤ b) :
    endsWithin (b / 3 + 1) s := by
  induction b using Nat.strong_induction_on generalizing s with
  | _ b ih =>
    have hstop : stepAborts s → endsWithin (b / 3 + 1) s :=
      fun h => endsWithin_mono (by omega) (endsWithin_of_stepAborts h)
    -- a step to another code phase has three bits fewer ahead
    have hgo : ∀ {t}, step s = .next t → bitsAhead t + 3 ≤ bitsAhead s → phaseOk t →
        t.phase = .first ∨ t.phase = .start ∨ t.phase = .loop → endsWithin (b / 3 + 1) s := by
      intro t ht hbits hpt hcode
      refine endsWithin_mono ?_ (endsWithin_succ ht (ih (b - 3) (by omega) hpt hcode (by omega)))
      omega
    unfold phaseOk at hph
    rcases hp with hp | hp | hp <;> rw [hp] at hph
    · obtain ⟨c, m, hr⟩ := hph
      rcases step_first hp hr with ⟨t, ht, hpt, hrun, -, hbits⟩ | hab
      · exact hgo ht hbits (by rw [phaseOk, hpt]; exact ⟨c, m, hrun⟩) (.inr (.inl hpt))
      · exact hstop hab
    · obtain ⟨c, m, hr⟩ := hph
      rcases step_start hp hr with ⟨t, ht, hpt, hrun, hold, -, hbits⟩ | hab
      · exact hgo ht hbits (by rw [phaseOk, hpt]; exact ⟨c, m, _, hrun, hold⟩) (.inr (.inr hpt))
      · exact hstop hab
    · obtain ⟨c, m, ci, hr, ho⟩ := hph
      rcases step_loop hp hr ho with ⟨t, ht, -, hbits, ⟨hpt, hrun, hold⟩ | ⟨hpt, hrun⟩ | ⟨hpt, hrun⟩⟩ | hab
      · exact hgo ht hbits (by rw [phaseOk, hpt]; exact ⟨c, m, _, hrun, hold⟩) (.inr (.inr hpt))
      · exact hgo ht hbits (by rw [phaseOk, hpt]; exact ⟨c, m, hrun⟩) (.inr (.inl hpt))
      · refine endsWithin_mono ?_ (endsWithin_succ ht (endsWithin_term hpt (running_readerOk hrun)))
        omega
      · exact hstop hab

/-- Settles O60: one step of OPEN, then `endsWithin_codes` with at most 8·N bits ahead. -/
theorem decodeEndsWithinTheBound : Obligations.DecodeEndsWithinTheBound := by
  intro s ⟨_, _, hph, ha, _⟩ hp
  rw [phaseOk, hp] at hph
  obtain ⟨hr, c, hc⟩ := hph
  rcases step_open hp ha hc hr with ⟨t, m, ht, hpt, hrun, -, hbits⟩ | hab
  · have hend := endsWithin_codes _ (by rw [phaseOk, hpt]; exact ⟨c, m, hrun⟩) (.inl hpt) hbits
    exact endsWithin_mono (by omega) (endsWithin_succ ht hend)
  · exact endsWithin_mono (by omega) (endsWithin_of_stepAborts hab)

end Sys2Proof.Machine
end

section
/-! PROOF. 42_decoder.md: what a step runs in each phase (R102 to R104, R107, R115), and what no step touches. -/

namespace Sys2Proof.Machine

/-! ### What a step runs -/

/-- Settles O10: `fetchCode_cases` reads the code that the decoder reads, and leaves a decode under way. -/
theorem stepRunsTheDecodedCode : Obligations.StepRunsTheDecodedCode := by
  intro c m ci s p i rest hr hp hdec
  obtain ⟨-, -, ⟨h2, h8, -⟩, -⟩ := id hr
  rw [decode_code h2 h8] at hdec
  split at hdec
  · cases hdec
  · rename_i hlen
    cases hdec
    rcases fetchCode_cases p hr with ⟨v, br, hfetch, hrun, -, hbits, hv, -⟩ | ⟨br, -, hshort⟩
    · have hcode : BitVec.ofNat 12 (bitsValue ((streamBits s).take (widthFor m ci))) = v := by
        rw [← hv, BitVec.ofNat_toNat, BitVec.setWidth_eq]
      rw [hcode]
      refine ⟨_, ?_, ⟨br, some v, rfl⟩, hrun, hbits, rfl⟩
      rw [step_code hp, hfetch, Res.thenRun_ok]
      rfl
    · exact absurd hshort hlen

/-- Settles O11: with fewer bits left than the code is wide, `fetchCode_cases` leaves only the raised read. -/
theorem stepAtTheStreamEnd : Obligations.StepAtTheStreamEnd := by
  intro c m ci s p hr hp hdec
  obtain ⟨-, -, ⟨h2, h8, -⟩, -⟩ := id hr
  rw [decode_code h2 h8] at hdec
  split at hdec
  · rename_i hlen
    rcases fetchCode_cases p hr with ⟨v, br, -, -, hle, -⟩ | ⟨br, hfetch, -⟩
    · omega
    · refine ⟨?_, streamEnd_cases s⟩
      rw [step_code hp, hfetch, Res.thenRun_raised, abort_setBr]
  · cases hdec

/-- Settles O12: `fetchOpen_cases` reads the byte at CFG.startPos, or there is none. -/
theorem stepRunsTheOpenByte : Obligations.StepRunsTheOpenByte := by
  intro s c ha hp hc
  rw [step_opening hp]
  rcases fetchOpen_cases ha hc with ⟨b, hb, hfetch⟩ | ⟨hb, br, hfetch⟩ <;> rw [hb, hfetch]
  · intro i hi
    cases (decode_byte .openByte b).symm.trans hi
    rfl
  · rw [Res.thenRun_raised, abort_setBr]

/-- Settles O13: `fetchTerm_cases` reads the byte behind the rest of the sub-block, or there is none. -/
theorem stepRunsTheTerminatorByte : Obligations.StepRunsTheTerminatorByte := by
  intro s p n ha hw hp hpos hn
  rw [step_term hp]
  rcases fetchTerm_cases ha hw hpos hn with ⟨b, hb, hfetch⟩ | ⟨hb, br, hfetch⟩ <;> rw [hb, hfetch]
  · intro i hi
    cases (decode_byte .terminator b).symm.trans hi
    rfl
  · rw [Res.thenRun_raised, abort_setBr]

/-- Settles O14: a quiescent step is `hostStep`, which the head of the queue decides. -/
theorem stepTakesTheHostsMove : Obligations.StepTakesTheHostsMove := by
  intro s hq
  rw [step_quiescent hq]
  refine ⟨fun h => ?_, fun cfg rest h => ?_, fun bytes rest h => ?_, fun es rest h => ?_, fun a b rest h => ?_,
    fun rest h => ?_⟩ <;> rw [hostStep, h]
  · rfl
  · rfl
  · exact ⟨_, rfl, rfl, fun x => fbRead_fbWriteByte _ a.toNat x b⟩
  · rfl

/-! ### What no step touches -/

/-- The phases a busy phase may move on to are those of the transition table (R107). -/
theorem nextPhases_listed {p q : Phase} (h : q ∈ nextPhases p) :
    (p, q) ∈
      [(Phase.opening, Phase.first), (.first, .start), (.start, .loop), (.loop, .loop), (.loop, .start), (.loop, .term),
        (.term, .done)] := by
  revert h
  cases p <;> cases q <;> decide

/-- Settles O15: a busy step aborts, moves on along `nextPhases`, or ends in DONE; a quiescent one is a host's move. -/
theorem phaseTransitions : Obligations.PhaseTransitions := by
  intro s t h
  by_cases hq : s.phase.quiescent = true
  · refine .inr (.inr ⟨hq, ?_⟩)
    rcases hostStep_cases hq h with ⟨hp, -⟩ | ⟨cfg, rest, hh, -, rfl⟩ | ⟨rest, hh, rfl⟩
    · exact .inl hp
    · exact .inr (.inl ⟨rfl, cfg, rest, hh⟩)
    · exact .inr (.inr ⟨rfl, rest, hh⟩)
  · have hq' := Bool.eq_false_iff.2 hq
    rcases step_busy hq' h with ⟨u, e, -, -, rfl⟩ | ⟨u, p, -, hp, rfl⟩ | ⟨hterm, u, pos, -, -, rfl⟩
    · exact .inr (.inl ⟨hq', rfl⟩)
    · exact .inl (nextPhases_listed hp)
    · left
      rw [hterm]
      simp

/-- Settles O16: every outcome of a busy step keeps the host's memories and the queue of moves. -/
theorem busyStepsKeepTheHostsMemories : Obligations.BusyStepsKeepTheHostsMemories := by
  intro s t hq h
  rcases step_busy hq h with ⟨u, e, hk, -, rfl⟩ | ⟨u, p, hk, -, rfl⟩ | ⟨-, u, pos, hk, -, rfl⟩
  all_goals obtain ⟨⟨-, -, -, hcfg, hct, hin, -, hhost, -⟩, -⟩ := hk
  · rw [abort_eq]
    exact ⟨hcfg, hct, hin, hhost⟩
  · exact ⟨hcfg, hct, hin, hhost⟩
  · exact ⟨hcfg, hct, hin, hhost⟩

/-- A STATUS that the block writes: kind NONE, OK, Eof or Malformed, and a reason exactly for Malformed (R11, R142). -/
def blockStatus (st : Status) : Prop :=
  st.kind ≠ .unsupported ∧ st.kind ≠ .invalidSignature ∧ (st.kind = .malformed ↔ st.reason ≠ .none)

theorem blockStatus_idle : blockStatus Status.idle := by simp [blockStatus, Status.idle]

theorem blockStatus_success : blockStatus Status.success := by simp [blockStatus, Status.success]

/-- An exception's STATUS is one the block writes, if its Malformed has a reason (R144). -/
theorem blockStatus_exc {e : Exc} (he : e ≠ .malformed .none) : blockStatus e.status := by
  cases e with
  | eof => simp [blockStatus, Exc.status]
  | malformed r =>
    have hr : r ≠ .none := fun h => he (h ▸ rfl)
    simp [blockStatus, Exc.status, hr]

/-- Settles O17: STATUS is written by an abort, by the end in DONE, by START and by hardware reset. -/
theorem statusValuesTheBlockWrites : Obligations.StatusValuesTheBlockWrites := by
  intro s t h hne
  show blockStatus t.status
  by_cases hq : s.phase.quiescent = true
  · rcases hostStep_cases hq h with ⟨-, hst, -⟩ | ⟨cfg, rest, -, -, rfl⟩ | ⟨rest, -, rfl⟩
    · exact absurd hst hne
    · exact blockStatus_idle
    · exact blockStatus_idle
  · rcases step_busy (Bool.eq_false_iff.2 hq) h with
      ⟨u, e, -, he, rfl⟩ | ⟨u, p, hk, -, rfl⟩ | ⟨-, u, pos, -, -, rfl⟩
    · exact blockStatus_exc he
    · obtain ⟨⟨-, hst, -⟩, -⟩ := hk
      exact absurd hst hne
    · exact blockStatus_success

/-- A step that gives RESULT a new value is TERM's (R12, R115). -/
theorem endPos_new {s t : State} {e : Nat} (h : step s = .next t) (he : t.endPos = some e) (hne : t.endPos ≠ s.endPos) :
    s.phase = .term ∧ t.phase = .done ∧ t.status = Status.success := by
  by_cases hq : s.phase.quiescent = true
  · rcases hostStep_cases hq h with ⟨-, -, hend⟩ | ⟨cfg, rest, -, -, rfl⟩ | ⟨rest, -, rfl⟩
    · exact absurd hend hne
    · cases he
    · cases he
  · rcases step_busy (Bool.eq_false_iff.2 hq) h with
      ⟨u, e', -, -, rfl⟩ | ⟨u, p, hk, -, rfl⟩ | ⟨hterm, u, pos, -, -, rfl⟩
    · cases he
    · obtain ⟨⟨-, -, hend, -⟩, -⟩ := hk
      exact absurd hend hne
    · exact ⟨hterm, rfl, rfl⟩

/-- A TERM step that answers found its bit reader's registers written (R80). -/
theorem term_registers {s t : State} (hp : s.phase = .term) (h : step s = .next t) :
    ∃ p n, s.br.pos = some p ∧ s.br.bytesInBlock = some n := by
  rw [step_term hp, fetchTerm, readTerminator] at h
  cases hn : s.br.bytesInBlock with
  | none =>
    rw [hn] at h
    cases h
  | some n =>
    cases hpos : s.br.pos with
    | none =>
      rw [hn, need_some, inAdvance, hpos] at h
      cases h
    | some p => exact ⟨p, n, rfl, rfl⟩

/-- Settles O18: the step is TERM's by `endPos_new`, and TERM's step runs the byte behind the rest of the sub-block: a
terminator 0 gives RESULT its position, anything else an abort. -/
theorem endPosComesFromTerm : Obligations.EndPosComesFromTerm := by
  intro s t e ha hfit h he hne
  obtain ⟨hp, hdone, hst⟩ := endPos_new h he hne
  obtain ⟨p, n, hpos, hn⟩ := term_registers hp h
  refine ⟨hp, hdone, hst, p, n, hpos, hn, ?_⟩
  have hw : p < 2 ^ s.addrW := hfit.1 p hpos
  have hrun := stepRunsTheTerminatorByte s p n ha hw hp hpos hn
  cases hb : s.input[p + n.toNat]? with
  | none =>
    rw [hb] at hrun
    cases hrun.symm.trans h
    cases he
  | some b =>
    rw [hb] at hrun
    have hexec := (hrun _ (decode_byte .terminator b)).symm.trans h
    by_cases hzero : b = 0
    · subst hzero
      cases hexec
      cases he
      exact ⟨rfl, rfl⟩
    · rw [decodeByte, if_neg hzero] at hexec
      cases hexec
      cases he

/-- Settles O47: without an exception a busy step writes alpha bytes through `fbWritePixel` with 0xFF only. -/
theorem alphaIsOpaque : Obligations.AlphaIsOpaque := by
  intro s t hq h hne
  rcases step_busy hq h with ⟨u, e, -, -, rfl⟩ | ⟨u, p, hk, -, rfl⟩ | ⟨-, u, pos, hk, -, rfl⟩
  · exact absurd rfl hne
  all_goals
    obtain ⟨-, -, -, halpha⟩ := hk
    exact halpha

end Sys2Proof.Machine
end

section
/-! PROOF. 40_bitreader.md: a code is the next bits of the stream (R78), a refill runs the token it reads (R77, R79), and
what the byte tokens load. -/

namespace Sys2Proof.Machine

/-- Settles O5: `readBits_cases` gives the value of the next `n` bits, and bit k of a value of bits is its k-th bit. -/
theorem readBitsTakesTheNextBits : Obligations.ReadBitsTakesTheNextBits := by
  intro n s hr h1 h12
  rcases readBits_cases hr h1 h12 with ⟨v, br, hok, hreader, hlen, hrest, hv, -⟩ | ⟨br, hraise, hlen⟩
  · rw [if_pos hlen]
    refine ⟨v, br, hok, hreader, fun k => ?_, hrest⟩
    rw [BitVec.getLsbD, hv, testBit_bitsValue, List.getD_eq_getElem?_getD, List.getD_eq_getElem?_getD,
      List.getElem?_take]
    by_cases hk : k < n <;> simp [hk]
  · rw [if_neg (Nat.not_le.2 hlen)]
    exact ⟨br, hraise⟩

/-- A data byte's token does what the refill does with it (R79). -/
theorem loadData_finish (b : Byte) (s : State) : (loadData b s).finish = exec (.data b) s := rfl

/-- A length byte's token does what the refill does with it (R79). -/
theorem loadLength_finish (b : Byte) (s : State) : (loadLength b s).finish = exec (decodeByte .refillLen b) s := by
  rw [loadLength, decodeByte]
  split <;> rfl

/-- Settles O7: both read one byte, and hand it to the token's own load; with no byte both raise Eof. -/
theorem refillRunsItsTokens : Obligations.RefillRunsItsTokens := by
  intro s p n ha hp hn
  rw [brRefill, hn, need_some, brOpen]
  cases hb : s.input[p]? with
  | none =>
    rw [inRead_eof hp (List.getElem?_eq_none_iff.1 hb)]
    exact ⟨by split <;> rfl, rfl⟩
  | some b =>
    rw [inRead_ok ha hp hb]
    refine ⟨?_, rfl⟩
    by_cases h0 : n = 0
    · rw [if_pos h0, if_pos h0, Res.bind_ok, loadLength_finish]
      rfl
    · rw [if_neg h0, if_neg h0, Res.bind_ok, loadData_finish]
      rfl

/-- Settles O27: the three loads, SUBBLOCK_LEN's with the byte that InRead answers. -/
theorem byteTokensLoad : Obligations.ByteTokensLoad := by
  intro s b n
  refine ⟨rfl, fun hn => ?_, fun p ha hp => ⟨fun hle => ?_, fun v hv => ?_⟩⟩
  · rw [exec, execData, loadData, hn, need_some]
    rfl
  · rw [exec, execSubblockLen, loadSubblock,
      inRead_eof (s := s.setBr { s.br with bytesInBlock := some b }) hp hle, Res.bind_raised, Res.finish_raised,
      abort_setBr]
  · rw [exec, execSubblockLen, loadSubblock,
      inRead_ok (s := s.setBr { s.br with bytesInBlock := some b }) ha hp hv]
    rfl

end Sys2Proof.Machine
end

section
/-! PROOF. 42_decoder.md: OPEN's rest (R103), CLEAR (R110), the end of a decode (R115) and START's latch (60_exceptions.md
R139). -/

namespace Sys2Proof.Machine

/-- Settles O19: neither meaning reads a register. -/
theorem firstClearAndEoi : Obligations.FirstClearAndEoi := fun _ => ⟨rfl, rfl⟩

/-- Settles O20: DICT_RESET writes the five registers by `dictReset_of_minCodeSize`, each within its width. -/
theorem clearResetsTheDictionary : Obligations.ClearResetsTheDictionary := by
  intro s m hm h2 h8
  have hp := two_pow_le_256 h8
  refine ⟨_, _, _, _, _, ?_, ofNat_toNat_of_lt (by omega), ofNat_toNat_of_lt (by omega), ofNat_toNat_of_lt (by omega),
    ofNat_toNat_of_lt (by omega), thresholdOf_toNat (by omega)⟩
  rw [exec, execClear, dictReset_of_minCodeSize hm]
  rfl

/-- The clip registers and the pen that OPEN sets, as numbers (R103). -/
theorem openDatapath_eq (c : Cfg) (d : Datapath) :
    openDatapath c d =
      { d with
        px := some (BitVec.ofNat 17 c.left.toNat)
        py := some (BitVec.ofNat 17 c.top.toNat)
        clipL := some (BitVec.ofNat 17 c.left.toNat)
        clipR := some (BitVec.ofNat 17 (c.left.toNat + c.width.toNat))
        clipT := some (BitVec.ofNat 17 c.top.toNat)
        clipB := some (BitVec.ofNat 17 (c.top.toNat + c.height.toNat)) } := by
  rw [openDatapath, coord_add_eq, coord_add_eq, coord_eq, coord_eq]

/-- Settles O26: DICT_INIT by `dictInit_entries`, the pen by `openDatapath_eq`, and the length byte by InRead. -/
theorem minCodeSizeFinishesOpen : Obligations.MinCodeSizeFinishesOpen := by
  intro s b c p ha h2 h8 hc hp
  obtain ⟨d, hinit, hregs, hatomic, hothers⟩ := dictInit_entries h2 h8 s
  have hb : BitVec.truncate 4 b = BitVec.ofNat 4 b.toNat := BitVec.eq_of_toNat_eq (by simp)
  have hcfg : (s.setDict d).cfg = some c := hc
  rw [exec, execMinCodeSize, hb, hinit, Res.bind_ok, hcfg, need_some, brOpen, openDatapath_eq]
  cases hl : s.input[p]? with
  | none =>
    rw [inRead_eof (s := (s.setDict d).setDp _) hp (List.getElem?_eq_none_iff.1 hl)]
    exact congrArg Host.Outcome.next (abort_congr .eof rfl rfl rfl rfl rfl rfl rfl)
  | some l =>
    rw [inRead_ok (s := (s.setDict d).setDp _) ha hp hl]
    exact ⟨d, rfl, hregs, hatomic, hothers⟩

/-- A STATUS of OK reads as 1: kind 1, reason 0 (R11). -/
theorem status_word_success : Status.success.word = 1#6 := by decide

/-- Settles O28: BR.pos goes into RESULT and the working registers are released. -/
theorem terminatorEndsTheDecode : Obligations.TerminatorEndsTheDecode := by
  intro s p hp
  have hexec : exec .terminator s =
      .next { release s with endPos := some p, status := Status.success, phase := .done } := by
    rw [exec, execTerminator, hp]
    rfl
  exact ⟨_, hexec, rfl, status_word_success, ⟨rfl, rfl, rfl, rfl⟩, rfl, rfl, rfl, rfl, rfl, rfl, rfl, rfl⟩

/-- Settles O29: START's two refusals are tested in turn, and the latch keeps ADDR_W bits of the position. -/
theorem startLatchesTheConfiguration : Obligations.StartLatchesTheConfiguration := by
  intro s cfg
  refine ⟨fun hq hct => ?_, fun hpos => by rw [Nat.mod_eq_of_lt hpos], fun hq => ?_, fun hq hct => ?_⟩
  · rw [exec, execStart, if_neg (by simp [hq]), Config.ctMax, if_neg (Nat.not_lt.2 hct)]
    rfl
  · rw [exec, execStart, if_pos hq]
  · rw [exec, execStart, if_neg (by simp [hq]), Config.ctMax, if_pos hct]

end Sys2Proof.Machine
end

section
/-! PROOF. 60_exceptions.md and 20_memory.md: what an exception leaves (R148), and that canvas pixels share no byte (R41,
R44). -/

namespace Sys2Proof.Machine

/-- A pixel's place in row-major order tells its row and column (R41). -/
theorem pixel_index_inj {w px py qx qy : Nat} (hp : px < w) (hq : qx < w) (h : py * w + px = qy * w + qx) :
    px = qx ∧ py = qy := by
  have hrow : ∀ x y, x < w → (y * w + x) / w = y ∧ (y * w + x) % w = x := fun x y hx => by
    rw [Nat.mul_comm, Nat.mul_add_div (by omega), Nat.mul_add_mod, Nat.div_eq_of_lt hx, Nat.mod_eq_of_lt hx]
    exact ⟨rfl, rfl⟩
  obtain ⟨hpy, hpx⟩ := hrow px py hp
  obtain ⟨hqy, hqx⟩ := hrow qx qy hq
  rw [h] at hpy hpx
  exact ⟨hpx.symm.trans hqx, hpy.symm.trans hqy⟩

/-- Settles O45: a byte's offset divided by four is its pixel's place, which tells the pixel. -/
theorem pixelsAreDisjoint : Obligations.PixelsAreDisjoint := by
  intro c px py qx qy a hpx hpy hqx hqy ⟨hp, hp'⟩ ⟨hq, hq'⟩
  have hbound := (pixelOffset_lt hpx hpy).2
  unfold pixelOffset at *
  obtain ⟨hx, hy⟩ := pixel_index_inj (py := py) (qy := qy) hpx hqx (by omega)
  exact ⟨hx, hy, by omega⟩

/-- The four bytes that one pixel of an abort takes (R148, U1). -/
theorem drawPixel_byte (w : BitVec 16) (s : State) (px py : Nat) {j : Nat} (hj : j < 4) :
    (drawPixel w s (px, py)).fbRead (pixelOffset w px py + j) =
      (Config.errorPixel s.draws px py).extractLsb' (8 * j) 8 := by
  obtain ⟨h0, h1, h2, h3⟩ := fbWritePixel_bytes w px py
    ((Config.errorPixel s.draws px py).extractLsb' 0 8) ((Config.errorPixel s.draws px py).extractLsb' 8 8)
    ((Config.errorPixel s.draws px py).extractLsb' 16 8) ((Config.errorPixel s.draws px py).extractLsb' 24 8) s
  interval_cases j
  · exact h0
  · exact h1
  · exact h2
  · exact h3

/-- Among canvas pixels, the bytes of a drawn pixel stay as its draw left them (R44, R148). -/
theorem foldl_drawPixel_byte {c : Cfg} {px py j : Nat} (l : List (Nat × Nat)) (s : State)
    (hcanvas : ∀ p ∈ l, p.1 < c.canvasW.toNat ∧ p.2 < c.canvasH.toNat) (hmem : (px, py) ∈ l) (hj : j < 4) :
    (l.foldl (drawPixel c.canvasW) s).fbRead (pixelOffset c.canvasW px py + j) =
      (Config.errorPixel s.draws px py).extractLsb' (8 * j) 8 := by
  induction l generalizing s with
  | nil => cases hmem
  | cons p l ih =>
    rw [List.foldl_cons]
    by_cases htail : (px, py) ∈ l
    · exact ih (drawPixel c.canvasW s p) (fun q hq => hcanvas q (List.mem_cons_of_mem _ hq)) htail
    · obtain rfl : (px, py) = p := (List.mem_cons.1 hmem).resolve_right htail
      obtain ⟨hx, hy⟩ := hcanvas _ List.mem_cons_self
      rw [foldl_drawPixel_other l _ fun q hq hin => ?_, drawPixel_byte c.canvasW s px py hj]
      obtain ⟨hqx, hqy⟩ := hcanvas q (List.mem_cons_of_mem _ hq)
      have hp : inPixel c.canvasW px py (pixelOffset c.canvasW px py + j) := ⟨by omega, by omega⟩
      obtain ⟨h1, h2, -⟩ := pixelsAreDisjoint c px py q.1 q.2 _ hx hy hqx hqy hp hin
      exact htail (by rw [h1, h2]; exact hq)

/-- An abort's FB is the drawn frame (R148). -/
theorem abort_fbRead (e : Exc) (s : State) (a : Nat) : (abort e s).fbRead a = (drawFrame s).fbRead a := by
  rw [abort_eq]
  rfl

/-- With no configuration latched an abort leaves FB alone (R148). -/
theorem abort_fbRead_unconfigured {e : Exc} {s : State} (hc : s.cfg = none) (a : Nat) :
    (abort e s).fbRead a = s.fbRead a := by
  rw [abort_fbRead, drawFrame, hc]

/-- Settles O48: the registers by `abort_eq`, the drawn bytes by `foldl_drawPixel_byte`, the others by `abort_other`. -/
theorem abortTakesAnException : Obligations.AbortTakesAnException := by
  intro e s t
  have ht : t = abort e s := rfl
  refine ⟨rfl, rfl, rfl, ⟨rfl, rfl, rfl, rfl⟩, ?_, ?_, ?_, ?_, ?_, rfl, abort_fbRead_unconfigured,
    fun c hc => ⟨fun px py j hin hj => ?_, fun a => abort_other hc⟩⟩
  iterate 5 rw [ht, abort_eq]
  rw [ht, abort_fbRead, drawFrame, hc]
  refine foldl_drawPixel_byte _ s (fun p hp => ?_) (mem_framePixels.2 hin) hj
  obtain ⟨-, -, hx, -, -, hy⟩ := (mem_framePixels (px := p.1) (py := p.2)).1 hp
  exact ⟨hx, hy⟩

/-- An abort leaves every byte outside the latched rectangle and canvas alone, also with nothing latched (R148). -/
theorem abort_outside {e : Exc} {s : State} {a : Nat} (h : ∀ cfg, s.cfg = some cfg → outsideRectangle cfg a) :
    (abort e s).fbRead a = s.fbRead a := by
  cases hc : s.cfg with
  | none => exact abort_fbRead_unconfigured hc a
  | some c => exact abort_other hc (h c hc)

/-- A Malformed's STATUS word is its reason above kind 3 (R11, R144). -/
theorem malformed_word (r : Reason) : (Exc.malformed r).status.word.toNat = 8 * r.code.toNat + 3 := by
  cases r <;> decide

/-- Settles O25: each of the six tokens is an abort with its own reason. -/
theorem raisingTokensAbort : Obligations.RaisingTokensAbort := by
  intro s c b x hx
  have hexc : ∃ e : Exc, exec x.1 s = .next (abort e s) ∧ e.status.word.toNat = 8 * x.2 + 3 := by
    simp only [List.mem_cons, List.not_mem_nil, or_false] at hx
    rcases hx with rfl | rfl | rfl | rfl | rfl | rfl <;> exact ⟨_, rfl, malformed_word _⟩
  obtain ⟨e, hexec, hword⟩ := hexc
  obtain ⟨hp, hst, hend, hrel, hcfg, hct, hin, haddr, hhost, -⟩ := abortTakesAnException e s
  exact ⟨_, hexec, hp, hst ▸ hword, hend, hrel, hcfg, hct, hin, haddr, hhost, fun a => abort_outside⟩

/-- A step of OPEN draws only where it aborts (R103, R148). -/
theorem openStep_out {s t : State} {c : Cfg} (ha : addressable s) (hp : s.phase = .opening) (hc : s.cfg = some c)
    (h : step s = .next t) : keepsOut c s t := by
  have hrun := stepRunsTheOpenByte s c ha hp hc
  cases hb : s.input[c.startPos]? with
  | none =>
    rw [hb] at hrun
    cases hrun.symm.trans h
    exact abort_out hc fun _ _ => rfl
  | some b =>
    rw [hb] at hrun
    have hexec := (hrun _ (decode_byte .openByte b)).symm.trans h
    rw [decodeByte] at hexec
    split at hexec
    · rename_i hlegal
      obtain ⟨h2, h8⟩ := (legalMinCodeSize_iff b).1 hlegal
      have hopen := minCodeSizeFinishesOpen (s.setBr { s.br with pos := some (c.startPos + 1) }) b c (c.startPos + 1)
        ha h2 h8 hc rfl
      split at hopen
      · cases hopen.symm.trans hexec
        exact abort_out (u := s.setBr _) hc fun _ _ => rfl
      · obtain ⟨d, hnext, -⟩ := hopen
        cases hnext.symm.trans hexec
        exact fun _ _ => rfl
    · cases hexec
      exact abort_out (u := s.setBr _) hc fun _ _ => rfl

/-- A step of TERM draws only where it aborts (R115, R148). -/
theorem termStep_out {s t : State} {c : Cfg} (ha : addressable s) (hr : readerOk s) (hp : s.phase = .term)
    (hc : s.cfg = some c) (h : step s = .next t) : keepsOut c s t := by
  obtain ⟨-, p, n, k, hpos, hn, -, hle, -⟩ := hr
  have hrun := stepRunsTheTerminatorByte s p n ha (Nat.lt_of_le_of_lt hle ha) hp hpos hn
  cases hb : s.input[p + n.toNat]? with
  | none =>
    rw [hb] at hrun
    cases hrun.symm.trans h
    exact abort_out hc fun _ _ => rfl
  | some b =>
    rw [hb] at hrun
    have hexec := (hrun _ (decode_byte .terminator b)).symm.trans h
    rw [decodeByte] at hexec
    split at hexec
    · cases hexec
      exact fun _ _ => rfl
    · cases hexec
      exact abort_out (u := s.setBr _) hc fun _ _ => rfl

/-- A decode under way has its configuration latched. -/
theorem running_cfg {c : Cfg} {m ci : Nat} {s : State} (hr : running c m ci s) : s.cfg = some c := by
  obtain ⟨⟨hc, -⟩, -⟩ := hr
  exact hc

/-- Settles O46: the code phases by `codeStep_out`, OPEN and TERM by their own frame lemmas. -/
theorem outsideTheRectanglePersists : Obligations.OutsideTheRectanglePersists := by
  intro s t c ⟨_, _, hph, ha, _⟩ hq hc h
  show keepsOut c s t
  have hcode : ∀ {c' m ci p}, codePlaceOf s.phase = some p → running c' m ci s → (p = .loop → oldLive m ci s) →
      keepsOut c s t := by
    intro c' m ci p hp hr ho
    cases (running_cfg hr).symm.trans hc
    exact codeStep_out hp hr ho h
  unfold phaseOk at hph
  rcases busy_cases hq with hp | hp | hp | hp | hp <;> rw [hp] at hph
  · exact openStep_out ha hp hc h
  · obtain ⟨c', m, hr⟩ := hph
    exact hcode (p := .first) (by rw [hp]; rfl) hr nofun
  · obtain ⟨c', m, hr⟩ := hph
    exact hcode (p := .start) (by rw [hp]; rfl) hr nofun
  · obtain ⟨c', m, ci, hr, ho⟩ := hph
    exact hcode (p := .loop) (by rw [hp]; rfl) hr fun _ => ho
  · obtain ⟨c', m, ci, hr⟩ := hph
    exact termStep_out ha (running_readerOk hr) hp hc h

end Sys2Proof.Machine
end

section
/-! PROOF. The host's side: what it reads (60_exceptions.md R140, R159), its structures (30_encoding.md R64), the record of
one image (70_reset_and_hazards.md R156), hardware reset (R154) and the codes of PHASE and STATUS (10_state.md R10, R11). -/

namespace Sys2Proof.Machine

/-! ### Reads -/

/-- A Malformed with a reason reads as kind 3 and that reason, 1 to 7 (R144). -/
theorem reason_code_bounds {r : Reason} (h : r ≠ .none) : 1 ≤ r.code.toNat ∧ r.code.toNat ≤ 7 := by
  revert h
  cases r <;> decide

/-- Settles O49: `outcomeOk` in DONE and in ERROR, with the words of the STATUS values. -/
theorem hostObservesTheOutcome : Obligations.HostObservesTheOutcome := by
  intro s ⟨_, hout, _⟩
  unfold outcomeOk at hout
  refine ⟨fun hp => ?_, fun hp => ?_⟩ <;> rw [hp] at hout
  · obtain ⟨hst, hend⟩ := hout
    obtain ⟨e, he⟩ := Option.isSome_iff_exists.1 hend
    exact ⟨by rw [hostReadStatus, hst, status_word_success], e, by rw [hostReadEndPos, he, need_some]⟩
  · obtain ⟨hend, hst⟩ := hout
    refine ⟨by rw [hostReadEndPos, hend, need_none], ?_⟩
    rcases hst with hst | ⟨r, hr, hst⟩ <;> rw [hostReadStatus, hst]
    · left
      decide
    · obtain ⟨h1, h7⟩ := reason_code_bounds hr
      exact .inr ⟨r.code.toNat, h1, h7, malformed_word r⟩

/-- Settles O50: the phase is tested first, then the frame's bound. -/
theorem hostFrameReads : Obligations.HostFrameReads := by
  intro s c a hc
  refine ⟨fun hq => if_pos hq, fun hq ha => ?_, fun hq ha => ?_⟩ <;> rw [hostReadFb, if_neg (by simp [hq]), hc]
  · exact if_neg (Nat.not_le.2 ha)
  · exact if_pos ha

/-! ### Structures -/

/-- A 16-bit field's value (R39). -/
theorem u16le_toNat (lo hi : Byte) : (u16le lo hi).toNat = lo.toNat + 256 * hi.toNat := by
  rw [u16le, BitVec.toNat_append, ← Nat.shiftLeft_add_eq_or_of_lt lo.isLt, Nat.shiftLeft_eq]
  omega

/-- A one-bit field of a flag byte. -/
theorem flag_toNat (b : Byte) (i : Nat) : (b.getLsbD i).toNat = b.toNat / 2 ^ i % 2 := by
  rw [BitVec.getLsbD, Nat.toNat_testBit]

/-- A field of several bits of a flag byte. -/
theorem field_toNat (b : Byte) (i n : Nat) : (b.extractLsb' i n).toNat = b.toNat / 2 ^ i % 2 ^ n := by
  rw [BitVec.extractLsb'_toNat, Nat.shiftRight_eq_div_pow]

/-- The header is one of the two magics, and no other is accepted (R147). -/
theorem checkHeader_iff (bytes : List Byte) :
    checkHeader bytes = .ok () ↔
      ∃ v rest, (v = 0x37 ∨ v = 0x39) ∧ bytes = 0x47 :: 0x49 :: 0x46 :: 0x38 :: v :: 0x61 :: rest := by
  unfold checkHeader
  constructor
  · intro h
    split at h
    · rename_i hmagic
      have hsplit := List.take_append_drop 6 bytes
      rcases hmagic with hmagic | hmagic <;> rw [hmagic] at hsplit
      · exact ⟨0x37, _, .inl rfl, hsplit.symm⟩
      · exact ⟨0x39, _, .inr rfl, hsplit.symm⟩
    · cases h
  · rintro ⟨v, rest, rfl | rfl, rfl⟩ <;> rfl

/-- Every other header is refused by name (R147). -/
theorem checkHeader_cases (bytes : List Byte) :
    checkHeader bytes = .ok () ∨ checkHeader bytes = .error .invalidSignature := by
  unfold checkHeader
  split
  · exact .inl rfl
  · exact .inr rfl

/-- A short LSD is Eof (log entry 18). -/
theorem parseLsd_short {bytes : List Byte} (h : bytes.length < 7) : parseLsd bytes = .error .eof := by
  unfold parseLsd
  split
  · simp only [List.length_cons] at h
    omega
  · rfl

/-- A short image descriptor is Eof (log entry 18). -/
theorem parseImageDescriptor_short {bytes : List Byte} (h : bytes.length < 10) :
    parseImageDescriptor bytes = .error .eof := by
  unfold parseImageDescriptor
  split
  · simp only [List.length_cons] at h
    omega
  · rfl

/-- A short graphic control extension is Eof (log entry 18). -/
theorem parseGce_short {bytes : List Byte} (h : bytes.length < 8) : parseGce bytes = .error .eof := by
  unfold parseGce
  split
  · simp only [List.length_cons] at h
    omega
  · rfl

/-- The LSD's bytes in their order (R64). -/
theorem parseLsd_fields (w0 w1 h0 h1 packed bg aspect : Byte) (rest : List Byte) :
    ∃ l, parseLsd (w0 :: w1 :: h0 :: h1 :: packed :: bg :: aspect :: rest) = .ok l ∧
      l.width.toNat = w0.toNat + 256 * w1.toNat ∧ l.height.toNat = h0.toNat + 256 * h1.toNat ∧ l.bgIndex = bg ∧
      l.aspect = aspect ∧
      packed.toNat = 128 * l.gctFlag.toNat + 16 * l.colorResolution.toNat + 8 * l.sorted.toNat + l.gctSize.toNat := by
  refine ⟨_, rfl, u16le_toNat _ _, u16le_toNat _ _, rfl, rfl, ?_⟩
  have := packed.isLt
  simp only [flag_toNat, field_toNat]
  omega

/-- The image descriptor's bytes in their order, behind the separator (R64). -/
theorem parseImageDescriptor_fields (sep l0 l1 t0 t1 w0 w1 h0 h1 packed : Byte) (rest : List Byte) (hsep : sep = 0x2C) :
    ∃ d, parseImageDescriptor (sep :: l0 :: l1 :: t0 :: t1 :: w0 :: w1 :: h0 :: h1 :: packed :: rest) = .ok d ∧
      d.left.toNat = l0.toNat + 256 * l1.toNat ∧ d.top.toNat = t0.toNat + 256 * t1.toNat ∧
      d.width.toNat = w0.toNat + 256 * w1.toNat ∧ d.height.toNat = h0.toNat + 256 * h1.toNat ∧
      packed.toNat = 128 * d.lctFlag.toNat + 64 * d.interlaced.toNat + 32 * d.sorted.toNat + 8 * d.reserved.toNat +
        d.lctSize.toNat := by
  refine ⟨_, if_neg (not_not.2 hsep), u16le_toNat _ _, u16le_toNat _ _, u16le_toNat _ _, u16le_toNat _ _, ?_⟩
  have := packed.isLt
  simp only [flag_toNat, field_toNat]
  omega

/-- The graphic control extension's bytes in their order, between its fixed bytes (R64, D24). -/
theorem parseGce_fields (intro label size packed d0 d1 ix fin : Byte) (rest : List Byte)
    (hfixed : intro = 0x21 ∧ label = 0xF9 ∧ size = 0x04 ∧ fin = 0x00) :
    ∃ g, parseGce (intro :: label :: size :: packed :: d0 :: d1 :: ix :: fin :: rest) = .ok g ∧
      g.delay.toNat = d0.toNat + 256 * d1.toNat ∧ g.transparentIndex = ix ∧
      packed.toNat =
        32 * g.reserved.toNat + 4 * g.disposalMethod.toNat + 2 * g.userInput.toNat + g.transparentFlag.toNat := by
  obtain ⟨rfl, rfl, rfl, rfl⟩ := hfixed
  refine ⟨_, rfl, u16le_toNat _ _, rfl, ?_⟩
  have := packed.isLt
  simp only [flag_toNat, field_toNat]
  omega

/-- The three bytes of a colour-table entry (R18). -/
theorem rgb_bytes (r g b : Byte) :
    (b ++ g ++ r).extractLsb' 0 8 = r ∧ (b ++ g ++ r).extractLsb' 8 8 = g ∧
      (b ++ g ++ r).extractLsb' 16 8 = b := by
  have hgreen : (b ++ g ++ r).extractLsb' 8 8 = (b ++ g).extractLsb' 0 8 :=
    BitVec.extractLsb'_append_eq_of_le (by decide)
  have hblue : (b ++ g ++ r).extractLsb' 16 8 = (b ++ g).extractLsb' 8 8 :=
    BitVec.extractLsb'_append_eq_of_le (by decide)
  exact ⟨BitVec.extractLsb'_append_eq_right, hgreen.trans BitVec.extractLsb'_append_eq_right,
    hblue.trans BitVec.extractLsb'_append_eq_left⟩

/-- A colour table is short, or its entries are the bytes in file order (R18, R64). -/
theorem parseColorTable_cases (n : Nat) (bytes : List Byte) :
    (bytes.length < 3 * n → parseColorTable n bytes = .error .eof) ∧
      (3 * n ≤ bytes.length →
        ∃ es, parseColorTable n bytes = .ok es ∧ es.length = n ∧
          ∀ (i : Nat) (e : Rgb), es[i]? = some e →
            bytes[3 * i]? = some (e.extractLsb' 0 8) ∧ bytes[3 * i + 1]? = some (e.extractLsb' 8 8) ∧
              bytes[3 * i + 2]? = some (e.extractLsb' 16 8)) := by
  induction n generalizing bytes with
  | zero => exact ⟨by omega, fun _ => ⟨[], rfl, rfl, nofun⟩⟩
  | succ n ih =>
    match bytes with
    | [] | [_] | [_, _] =>
      refine ⟨fun _ => rfl, fun h => ?_⟩
      simp only [List.length_cons, List.length_nil] at h
      omega
    | r :: g :: b :: rest =>
      obtain ⟨hshort, hlong⟩ := ih rest
      simp only [List.length_cons, parseColorTable]
      refine ⟨fun h => by rw [hshort (by omega)], fun h => ?_⟩
      obtain ⟨es, hes, hlen, hentries⟩ := hlong (by omega)
      refine ⟨(b ++ g ++ r) :: es, by rw [hes], by rw [List.length_cons, hlen], fun i e he => ?_⟩
      cases i with
      | zero =>
        obtain rfl : b ++ g ++ r = e := Option.some.inj he
        obtain ⟨hr, hg, hb⟩ := rgb_bytes r g b
        exact ⟨congrArg some hr.symm, congrArg some hg.symm, congrArg some hb.symm⟩
      | succ i => exact hentries i e he

/-- A colour table's length as a number: at most 256 entries (R64). -/
theorem tableLength_toNat (size : BitVec 3) :
    (tableLength size).toNat = 2 ^ (size.toNat + 1) ∧ 2 ^ (size.toNat + 1) ≤ 256 := by
  have hle : 2 ^ (size.toNat + 1) ≤ 2 ^ 8 := Nat.pow_le_pow_right (by decide) size.isLt
  exact ⟨ofNat_toNat_of_lt (by omega), hle⟩

/-- The active table's length: the local table's, else the global one's, else 0 (R156). -/
theorem activeTableLength_toNat (l : Lsd) (d : ImageDescriptor) :
    (activeTableLength l d).toNat =
        (if d.lctFlag then 2 ^ (d.lctSize.toNat + 1) else if l.gctFlag then 2 ^ (l.gctSize.toNat + 1) else 0) ∧
      (activeTableLength l d).toNat ≤ 256 := by
  obtain ⟨hlocal, hlocal'⟩ := tableLength_toNat d.lctSize
  obtain ⟨hglobal, hglobal'⟩ := tableLength_toNat l.gctSize
  unfold activeTableLength
  split
  · exact ⟨hlocal, hlocal.symm ▸ hlocal'⟩
  · split
    · exact ⟨hglobal, hglobal.symm ▸ hglobal'⟩
    · exact ⟨rfl, Nat.zero_le _⟩

/-- Settles O51: one lemma per structure, and the record's fields by the pending extension. -/
theorem hostStructures : Obligations.HostStructures := by
  refine ⟨u16le_toNat, fun bytes => ⟨checkHeader_iff bytes, checkHeader_cases bytes⟩, parseLsd_fields,
    fun sep l0 l1 t0 t1 w0 w1 h0 h1 packed rest =>
      ⟨fun h => if_pos h, parseImageDescriptor_fields _ _ _ _ _ _ _ _ _ _ _⟩,
    fun intro label size packed d0 d1 ix fin rest => ⟨fun h => if_pos ?_, parseGce_fields _ _ _ _ _ _ _ _ _⟩,
    fun bytes => ⟨parseLsd_short, parseImageDescriptor_short, parseGce_short⟩, parseColorTable_cases,
    fun l d g p => ⟨fun h => if_pos h, fun h => ?_⟩⟩
  · simpa only [not_and_or] using h
  · obtain ⟨hlen, hmax⟩ := activeTableLength_toNat l d
    refine ⟨_, if_neg (by simp [h]), rfl, rfl, rfl, rfl, rfl, rfl, rfl, hlen, hmax, ?_⟩
    cases g with
    | none => exact ⟨rfl, rfl, rfl⟩
    | some e => exact ⟨rfl, rfl, rfl⟩

/-! ### Hardware reset, and the codes -/

/-- Settles O53: every field of the reset state is given outright. -/
theorem resetState : Obligations.ResetState :=
  ⟨rfl, fun _ => rfl, rfl, rfl, rfl, rfl, by decide, rfl⟩

/-- A quiescent step with no move of the host left waits (log entry 8). -/
theorem step_waits {s : State} (hq : s.phase.quiescent = true) (hh : s.host = []) : step s = .next s :=
  (stepTakesTheHostsMove s hq).1 hh

/-- Settles O54: the phases and the codes row by row, and the two fields of the STATUS word. -/
theorem phaseAndStatusCodes : Obligations.PhaseAndStatusCodes :=
  ⟨by decide, fun _ => ⟨BitVec.extractLsb'_append_eq_right, BitVec.extractLsb'_append_eq_left⟩, by decide, by decide⟩

end Sys2Proof.Machine

namespace Sys2Proof

/-- Settles O52: hardware reset gives every register the reset state's value, and IDLE then waits. -/
theorem hardwareReset : Obligations.HardwareReset :=
  ⟨fun _ => rfl, fun _ =>
    ⟨rfl, rfl, rfl, rfl, rfl, rfl, rfl, rfl, rfl, rfl, rfl, rfl, rfl, fun _ => ⟨rfl, rfl, rfl, rfl⟩, rfl, rfl, rfl, rfl,
      rfl, rfl, rfl, rfl, fun _ => rfl, Machine.step_waits rfl⟩⟩

end Sys2Proof
end

section
/-! PROOF. 30_encoding.md and 41_dictionary.md: the adds that widen the code (R69), and the first byte of a string (R91). -/

namespace Sys2Proof.Machine

/-! ### Growth points -/

/-- The largest number of `w` bits has `w` bits. -/
theorem bitlen_two_pow_sub_one (w : Nat) : bitlen (2 ^ w - 1) = w := by
  have hpos := Nat.two_pow_pos w
  refine le_antisymm ((bitlen_le_iff _ _).2 (by omega)) (Nat.le_of_not_lt fun h => ?_)
  have hlt := lt_two_pow_bitlen (2 ^ w - 1)
  have hle : 2 ^ bitlen (2 ^ w - 1) < 2 ^ w := Nat.pow_lt_pow_right (by decide) h
  omega

/-- The width at a growth point is that of the growth point (R69). -/
theorem widthFor_growthPoint {m ci w : Nat} (h3 : 2 ^ m + 2 ≤ ci) (hw : w ≤ 11) (hci : ci = 2 ^ w - 1) :
    widthFor m ci = w := by
  rw [widthFor_eq h3, hci, bitlen_two_pow_sub_one, Nat.min_eq_right (by omega)]

/-- An add behind a live entry leaves the size one larger, whatever the byte (R89). -/
theorem dictAdd_live {m ci : Nat} {s t : State} {o : Code} {b : Byte} {k : Option Nat} (hd : dictOk m ci s.dict)
    (h4 : ci < 4096) (ho : live m ci o.toNat) (h : dictAdd (o.zeroExtend 13) b s = .ok k t) :
    ∃ n, t.dict = addedDict m ci o.toNat b n s.dict := by
  obtain ⟨n, hn, -, hn4, -⟩ := live_length hd ho
  have hadd := dictAdd_ok b hd h4 hn (by omega)
  cases hadd.symm.trans h
  exact ⟨n, rfl⟩

/-- Settles O33: the width before and after the add is `widthFor`, and `widthFor_succ` says where it grows. -/
theorem growthPoints : Obligations.GrowthPoints := by
  intro m ci s t o b k hd h4 ho hadd
  obtain ⟨n, ht⟩ := dictAdd_live hd h4 ho hadd
  obtain ⟨h2, h8, h3, -, ⟨-, hw, -⟩, -⟩ := hd
  have hgrow := widthFor_succ h3 h4
  rw [State.frozen, ht, hw]
  refine ⟨fun w hm hw11 hci => ?_, fun hno => ?_, rfl, fun hci => ?_⟩
  · have hpoint := widthFor_growthPoint h3 hw11 hci
    rw [hpoint, if_pos ⟨hci, by omega⟩] at hgrow
    rw [hpoint]
    exact ⟨rfl, by rw [addedDict, hgrow]⟩
  · have hmin : m + 1 ≤ widthFor m ci := by
      unfold widthFor
      omega
    rw [if_neg fun ⟨hci, hlt⟩ => hno _ hmin (by omega) hci] at hgrow
    rw [addedDict, hgrow]
  · subst hci
    have hfull : widthFor m 4095 = 12 := by
      rw [widthFor_eq h3]
      decide
    rw [hfull, if_neg (by omega)] at hgrow
    exact ⟨by rw [hfull]; rfl, by rw [addedDict, hgrow]; rfl, rfl⟩

/-! ### The first byte -/

/-- A live entry's string by its entry: the index of an atomic entry, else the string of its PREFIX and the entry's byte (R25,
R96). -/
theorem entryString_cases {m ci f i : Nat} {d : Dict} {str : List Byte} (hd : dictOk m ci d) (hi : live m ci i)
    (h : entryString (f + 1) d i = some str) :
    (storeGet d.links i = some (-1) ∧ storeGet d.bytes i = some (BitVec.ofNat 8 i) ∧ str = [BitVec.ofNat 8 i]) ∨
      ∃ p c str', live m ci p ∧ p < 4096 ∧ storeGet d.links i = some (BitVec.ofNat 13 p) ∧
        entryString f d p = some str' ∧ str = str' ++ [c] := by
  have hci : ci ≤ 4096 := dictOk_size_le hd
  obtain ⟨-, -, -, -, -, -, he⟩ := id hd
  rcases he i hi with ⟨-, hlink, hbyte, -⟩ | ⟨-, p, c, k, hp, -, -, -, -, hlink, hbyte, -⟩
  · rw [entryString, hlink, hbyte] at h
    exact .inl ⟨hlink, hbyte, (Option.some.inj h).symm⟩
  · have hp4 : p < 4096 := (live_lt hd hp).trans_le hci
    simp only [entryString, hlink, hbyte, if_neg (ofNat_ne_marker hp4), linkIndex_ofNat hp4, Option.map_eq_some_iff] at h
    obtain ⟨str', hstr', rfl⟩ := h
    exact .inr ⟨p, c, str', hp, hp4, hlink, hstr', rfl⟩

/-- One visit of the walk at an added entry goes to its PREFIX (R91). -/
theorem firstByteWalk_added {s : State} {i p : Nat} (hlink : storeGet s.dict.links i = some (BitVec.ofNat 13 p))
    (hp : p < 4096) (n : Nat) : firstByteWalk (n + 1) i s = firstByteWalk n p s := by
  simp only [firstByteWalk, linkAt, hlink, Res.bind_ok, if_neg (ofNat_ne_marker hp), linkIndex_ofNat hp]

/-- With fewer visits than the string is long the walk has not ended (R91, log entry 10). -/
theorem firstByteWalk_short {m ci f i n : Nat} {s : State} {str : List Byte} (hd : dictOk m ci s.dict)
    (hi : live m ci i) (h : entryString f s.dict i = some str) (hn : n < str.length) :
    firstByteWalk n i s = .fault .prefixRing := by
  induction f generalizing i n str with
  | zero => cases h
  | succ f ih =>
    cases n with
    | zero => rfl
    | succ n =>
      rcases entryString_cases hd hi h with ⟨-, -, rfl⟩ | ⟨p, c, str', hp, hp4, hlink, hstr', rfl⟩
      · rw [List.length_singleton] at hn
        omega
      · rw [List.length_append, List.length_singleton] at hn
        rw [firstByteWalk_added hlink hp4, ih hp hstr' (by omega)]

/-- With as many visits as the string is long the walk gives its first byte (R91). -/
theorem firstByteWalk_long {m ci f i n : Nat} {s : State} {b : Byte} {bs : List Byte} (hd : dictOk m ci s.dict)
    (hi : live m ci i) (h : entryString f s.dict i = some (b :: bs)) (hn : bs.length < n) :
    firstByteWalk n i s = .ok b s := by
  induction f generalizing i n b bs with
  | zero => cases h
  | succ f ih =>
    obtain ⟨n, rfl⟩ : ∃ k, n = k + 1 := ⟨n - 1, by omega⟩
    rcases entryString_cases hd hi h with ⟨hlink, hbyte, hstr⟩ | ⟨p, c, str', hp, hp4, hlink, hstr', hstr⟩
    · cases hstr
      simp [firstByteWalk, linkAt, hlink, byteAt, hbyte]
    · cases str' with
      | nil => exact absurd hstr' entryString_ne_nil
      | cons b' bs' =>
        obtain ⟨rfl, rfl⟩ : b = b' ∧ bs = bs' ++ [c] := by simpa using hstr
        rw [List.length_append, List.length_singleton] at hn
        rw [firstByteWalk_added hlink hp4, ih hp hstr' (by omega)]

/-- Settles O35: `firstByte_of_string` for the byte, `atomic_string` for an atomic entry, and the count of visits by
`firstByteWalk_long` and `firstByteWalk_short`. -/
theorem firstByteOfAString : Obligations.FirstByteOfAString := by
  intro m ci i s b bs hd hi hstr
  obtain ⟨hfirst, hb⟩ := firstByte_of_string hd hi hstr
  refine ⟨hfirst, hb, fun hlt => ?_, firstByteWalk_long hd hi hstr (Nat.lt_succ_self _),
    firstByteWalk_short hd hi hstr (Nat.lt_succ_self _)⟩
  cases (atomic_string hd hlt).symm.trans hstr
  obtain ⟨-, h8, -⟩ := hd
  have hm := two_pow_le_256 h8
  exact ⟨ofNat_toNat_of_lt (by omega), rfl⟩

end Sys2Proof.Machine
end

section
/-! PROOF. 43_rasterizer.md: PAINT is the painting of a string (R123, R125), what it may change (R117), the bottom stop
(R126, R137) and raster order (R129, R134). -/

namespace Sys2Proof.Machine

/-! ### The string -/

/-- Settles O37: LEN gives the string's length, the fill puts it into PB, and the pass over PB paints it. -/
theorem paintIsTheString : Obligations.PaintIsTheString := by
  intro m ci i s str hd hi hstr
  have hi4 : i < 4096 := (live_lt hd hi).trans_le (dictOk_size_le hd)
  obtain ⟨bs, b, n, hstr', hlen, hn, hlength, -⟩ := entryString_ok hd i hi 4096 hi4
  obtain rfl : str = b :: bs := Option.some.inj (hstr.symm.trans hstr')
  subst hlength
  obtain ⟨pb, hfill, hlow, hhigh, -⟩ := fillString_ok hd i hi hstr (by omega)
  refine ⟨pb, ?_, fun k => ?_⟩
  · simp only [paint, lengthAt, hlen, Res.bind_ok, ofNat_toNat_of_lt (show (b :: bs).length < 2 ^ 13 by omega), hfill]
    exact paintBytes_eq_paintList _ 0 _ fun j hj => by simpa using hlow j hj
  · split
    · rename_i hk
      exact hlow k hk
    · rename_i hk
      exact hhigh k (Nat.le_of_not_lt hk)

/-! ### What PAINT may change -/

/-- Only PX, PY, PB and FB differ (R123). -/
def onlyPainted (s t : State) : Prop :=
  t = { s with pb := t.pb, fb := t.fb, dp := { s.dp with px := t.dp.px, py := t.dp.py } }

theorem onlyPainted_refl (s : State) : onlyPainted s s := rfl

theorem onlyPainted_trans {s t u : State} (h : onlyPainted s t) (k : onlyPainted t u) : onlyPainted s u := by
  unfold onlyPainted at *
  rw [k, h]

/-- A read that keeps the state keeps it where it answers. -/
theorem lengthAt_state {i : Nat} {n : BitVec 13} {s t : State} (h : lengthAt i s = .ok n t) : t = s := by
  unfold lengthAt at h
  split at h <;> cases h
  rfl

theorem byteAt_state {i : Nat} {b : Byte} {s t : State} (h : byteAt i s = .ok b t) : t = s := by
  unfold byteAt at h
  split at h <;> cases h
  rfl

theorem linkAt_state {i : Nat} {l : Link} {s t : State} (h : linkAt i s = .ok l t) : t = s := by
  unfold linkAt at h
  split at h <;> cases h
  rfl

theorem pbRead_state {k : Nat} {b : Byte} {s t : State} (h : pbRead k s = .ok b t) : t = s := by
  unfold pbRead at h
  split at h <;> cases h
  rfl

theorem ctRead_state {i : Nat} {rgb : Byte × Byte × Byte} {s t : State} (h : ctRead i s = .ok rgb t) : t = s := by
  unfold ctRead at h
  split at h <;> cases h
  rfl

/-- The fill changes PB only (R125). -/
theorem fillString_onlyPainted {n : Nat} {j : Link} {s t : State} (h : fillString n j s = .ok () t) :
    onlyPainted s t := by
  induction n generalizing j s with
  | zero =>
    cases h
    exact onlyPainted_refl _
  | succ n ih =>
    unfold fillString at h
    split at h
    · cases h
    · obtain ⟨b, s1, hb, h⟩ := Res.bind_eq_ok h
      obtain ⟨_, s2, hw, h⟩ := Res.bind_eq_ok h
      obtain ⟨l, s3, hl, h⟩ := Res.bind_eq_ok h
      cases byteAt_state hb
      cases linkAt_state hl
      unfold pbWrite at hw
      split at hw <;> cases hw
      have hput : onlyPainted s (s.setPb (storeSet s.pb n b)) := rfl
      exact onlyPainted_trans hput (ih h)

/-- The colour lookup and the clipped write change FB only (R128, R130). -/
theorem drawByte_onlyPainted {c : Cfg} {b : Byte} {s t : State} (h : drawByte c b s = .ok () t) : onlyPainted s t := by
  unfold drawByte at h
  split at h
  · cases h
  · obtain ⟨rgb, s1, hct, h⟩ := Res.bind_eq_ok h
    cases ctRead_state hct
    obtain ⟨px, -, h⟩ := need_eq_ok h
    obtain ⟨py, -, h⟩ := need_eq_ok h
    obtain ⟨r, -, h⟩ := need_eq_ok h
    split at h <;> cases h <;> exact onlyPainted_refl _

/-- The pen advance changes PX and PY only (R129). -/
theorem advancePen_onlyPainted {s t : State} (h : advancePen s = .ok () t) : onlyPainted s t := by
  obtain ⟨px, -, h⟩ := need_eq_ok h
  obtain ⟨r, -, h⟩ := need_eq_ok h
  split at h
  · obtain ⟨l, -, h⟩ := need_eq_ok h
    obtain ⟨py, -, h⟩ := need_eq_ok h
    cases h
    rfl
  · cases h
    rfl

/-- One byte changes FB and the pen only (R124). -/
theorem paintByte_onlyPainted {b : Byte} {s t : State} (h : paintByte b s = .ok () t) : onlyPainted s t := by
  obtain ⟨c, -, h⟩ := need_eq_ok h
  obtain ⟨_, s1, hdraw, h⟩ := Res.bind_eq_ok h
  refine onlyPainted_trans ?_ (advancePen_onlyPainted h)
  split at hdraw
  · cases hdraw
    exact onlyPainted_refl _
  · exact drawByte_onlyPainted hdraw

/-- The pass over PB changes FB and the pen only (R123). -/
theorem paintBytes_onlyPainted {n k : Nat} {s t : State} (h : paintBytes n k s = .ok () t) : onlyPainted s t := by
  induction n generalizing k s with
  | zero =>
    cases h
    exact onlyPainted_refl _
  | succ n ih =>
    obtain ⟨b, s1, hb, h⟩ := Res.bind_eq_ok h
    cases pbRead_state hb
    obtain ⟨py, -, h⟩ := need_eq_ok h
    obtain ⟨bot, -, h⟩ := need_eq_ok h
    split at h
    · cases h
      exact onlyPainted_refl _
    · obtain ⟨_, s2, hbyte, h⟩ := Res.bind_eq_ok h
      exact onlyPainted_trans (paintByte_onlyPainted hbyte) (ih h)

/-- Settles O38: LEN's read changes nothing, the fill and the pass over PB only what they paint. -/
theorem paintChangesThePenPbAndFb : Obligations.PaintChangesThePenPbAndFb := by
  intro i s t h
  obtain ⟨n, s1, hlen, h⟩ := Res.bind_eq_ok h
  cases lengthAt_state hlen
  obtain ⟨_, s2, hfill, h⟩ := Res.bind_eq_ok h
  exact onlyPainted_trans (fillString_onlyPainted hfill) (paintBytes_onlyPainted h)

/-! ### The bottom -/

/-- At the bottom a string is dropped whole (R126). -/
theorem paintList_bottom {c : Cfg} {s : State} {py : Coord} (str : List Byte) (hp : penOk c s.dp) (hy : s.dp.py = some py)
    (hbot : c.top.toNat + c.height.toNat ≤ py.toNat) : paintList str s = .ok () s := by
  cases str with
  | nil => rfl
  | cons b str => rw [paintList_cons b str hp hy, if_pos hbot]

/-- Settles O40: PAINT is the painting of the entry's string, which the bottom stop drops. -/
theorem bottomStopDropsTheRest : Obligations.BottomStopDropsTheRest := by
  intro c m ci i s py ⟨_, _, hd, hp⟩ hi hy hbot
  have hi4 : i < 4096 := (live_lt hd hi).trans_le (dictOk_size_le hd)
  obtain ⟨bs, b, n, hstr, -⟩ := entryString_ok hd i hi 4096 hi4
  obtain ⟨pb, hpaint, -⟩ := paint_eq_paintList hd hi hstr
  exact ⟨pb, hpaint.trans (paintList_bottom (s := s.setPb pb) _ hp hy hbot)⟩

/-- Settles O41: a rectangle of height 0 has its bottom at its top, where the pen stands. -/
theorem heightZeroPaintsNothing : Obligations.HeightZeroPaintsNothing := by
  intro c m ci i s hr hh hi
  obtain ⟨-, -, -, ⟨-, -, htop, hbot, px, py, -, hy, -, -, -, hle, hle'⟩⟩ := id hr
  have hh0 : c.height.toNat = 0 := congrArg BitVec.toNat hh
  have hedge : py = c.top.zeroExtend 17 := BitVec.eq_of_toNat_eq (by rw [coord_toNat]; omega)
  refine ⟨?_, by rw [hy, htop, hedge], bottomStopDropsTheRest c m ci i s py hr hi hy (by omega)⟩
  rw [hbot, htop, hh]
  simp

/-! ### Raster order -/

/-- Byte `b` of a string shows at raster position `q`: it is visible, and the position lies in the rectangle and on the
canvas (R126, R127, R130, R134). -/
def showsAt (c : Cfg) (q : Nat) (b : Byte) : Prop :=
  q < c.width.toNat * c.height.toNat ∧ c.left.toNat + q % c.width.toNat < c.canvasW.toNat ∧
    c.top.toNat + q / c.width.toNat < c.canvasH.toNat ∧ transparent c b = false

/-- The offset of the pixel at raster position `q` (R41, R134). -/
def rasterOffset (c : Cfg) (q : Nat) : Nat :=
  pixelOffset c.canvasW (c.left.toNat + q % c.width.toNat) (c.top.toNat + q / c.width.toNat)

/-- The four bytes at an offset are the colour of `b` with alpha 0xFF (R131, R132). -/
def hasColour (ct : List Rgb) (b : Byte) (o : Nat) (t : State) : Prop :=
  ∃ e, ct[b.toNat]? = some e ∧ t.fbRead o = e.extractLsb' 0 8 ∧ t.fbRead (o + 1) = e.extractLsb' 8 8 ∧
    t.fbRead (o + 2) = e.extractLsb' 16 8 ∧ t.fbRead (o + 3) = 0xFF

/-- Two raster positions with a byte of FB in common are one position (R44, R134). -/
theorem rasterOffset_disjoint {c : Cfg} {p q : Nat} {b b' : Byte} {a : Nat} (hp : showsAt c p b) (hq : showsAt c q b')
    (hpa : rasterOffset c p ≤ a ∧ a < rasterOffset c p + 4) (hqa : rasterOffset c q ≤ a ∧ a < rasterOffset c q + 4) :
    p = q := by
  obtain ⟨-, hpx, hpy, -⟩ := hp
  obtain ⟨-, hqx, hqy, -⟩ := hq
  obtain ⟨hx, hy, -⟩ := pixelsAreDisjoint c _ _ _ _ a hpx hpy hqx hqy hpa hqa
  rw [← Nat.div_add_mod p c.width.toNat, ← Nat.div_add_mod q c.width.toNat, Nat.add_left_cancel hx,
    Nat.add_left_cancel hy]

/-- A colour stays where no byte of its pixel changes. -/
theorem hasColour_congr {ct : List Rgb} {b : Byte} {o : Nat} {s t : State} (h : hasColour ct b o s)
    (hsame : ∀ a, o ≤ a → a < o + 4 → t.fbRead a = s.fbRead a) : hasColour ct b o t := by
  obtain ⟨e, he, h0, h1, h2, h3⟩ := h
  exact ⟨e, he, (hsame _ le_rfl (by omega)).trans h0, (hsame _ (by omega) (by omega)).trans h1,
    (hsame _ (by omega) (by omega)).trans h2, (hsame _ (by omega) (by omega)).trans h3⟩

/-- A nonzero width as a number. -/
theorem width_pos {c : Cfg} (hw : c.width ≠ 0) : 0 < c.width.toNat :=
  Nat.pos_of_ne_zero fun h => hw (BitVec.eq_of_toNat_eq h)

/-- FB is read past the pen. -/
theorem fbRead_setDp (s : State) (d : Datapath) (a : Nat) : (s.setDp d).fbRead a = s.fbRead a := rfl

/-- The clipped write of a visible byte at raster position `q`: its pixel takes the colour where the byte shows, and every
other byte of FB stays (R130 to R132). -/
theorem clippedWrite_raster {c : Cfg} {s : State} {b : Byte} {e : Rgb} {q : Nat} (hw : c.width ≠ 0)
    (hlt : q < c.width.toNat * c.height.toNat) (ht : transparent c b = false) (he : s.ct[b.toNat]? = some e) :
    ∃ fb,
      (if c.left.toNat + q % c.width.toNat < c.left.toNat + c.width.toNat ∧
            c.left.toNat + q % c.width.toNat < c.canvasW.toNat ∧ c.top.toNat + q / c.width.toNat < c.canvasH.toNat then
          fbWritePixel c.canvasW (c.left.toNat + q % c.width.toNat) (c.top.toNat + q / c.width.toNat)
            (e.extractLsb' 0 8) (e.extractLsb' 8 8) (e.extractLsb' 16 8) 0xFF#8 s
        else s) = s.setFb fb ∧
      (showsAt c q b → hasColour s.ct b (rasterOffset c q) (s.setFb fb)) ∧
      ∀ a, (showsAt c q b → ¬ (rasterOffset c q ≤ a ∧ a < rasterOffset c q + 4)) →
        (s.setFb fb).fbRead a = s.fbRead a := by
  split
  · rename_i hin
    obtain ⟨-, hx, hy⟩ := hin
    obtain ⟨fb, hfb⟩ := fbWritePixel_eq c.canvasW (c.left.toNat + q % c.width.toNat) (c.top.toNat + q / c.width.toNat)
      (e.extractLsb' 0 8) (e.extractLsb' 8 8) (e.extractLsb' 16 8) 0xFF#8 s
    refine ⟨fb, hfb, fun _ => ⟨e, he, ?_⟩, fun a hout => ?_⟩ <;> rw [← hfb]
    · exact fbWritePixel_bytes _ _ _ _ _ _ _ s
    · exact fbWritePixel_other _ _ _ _ s (hout ⟨hlt, hx, hy, ht⟩)
  · rename_i hout
    have hcolumn := Nat.mod_lt q (width_pos hw)
    exact ⟨s.fb, rfl, fun ⟨_, hx, hy, _⟩ => absurd ⟨by omega, hx, hy⟩ hout, fun _ _ => rfl⟩

/-- The pen at raster position `q` stands at the bottom exactly behind the last position (R126, R134). -/
theorem penAt_bottom_iff {c : Cfg} {q : Nat} (hw : c.width ≠ 0) (hle : q ≤ c.width.toNat * c.height.toNat) :
    c.top.toNat + c.height.toNat ≤ (BitVec.ofNat 17 (c.top.toNat + q / c.width.toNat)).toNat ↔
      q = c.width.toNat * c.height.toNat := by
  have hrow : q / c.width.toNat ≤ c.height.toNat := Nat.div_le_of_le_mul hle
  have htop := c.top.isLt
  have hheight := c.height.isLt
  rw [ofNat_toNat_of_lt (by omega), Nat.add_le_add_iff_left, Nat.le_div_iff_mul_le (width_pos hw), Nat.mul_comm]
  exact ⟨hle.antisymm, Eq.ge⟩

/-- One byte at raster position `q` above the bottom: it shows there or it changes no byte of FB, and the pen goes to
position `q + 1` (R127 to R130, R134). -/
theorem paintByte_raster {c : Cfg} {s : State} {b : Byte} {q : Nat} (hc : configured c s) (hp : penOk c s.dp)
    (hq : penAt c q s.dp) (hw : c.width ≠ 0) (hlt : q < c.width.toNat * c.height.toNat)
    (hcol : transparent c b = true ∨ b.toNat < c.ctLen.toNat) :
    ∃ t, paintByte b s = .ok () t ∧ configured c t ∧ t.ct = s.ct ∧ penOk c t.dp ∧ penAt c (q + 1) t.dp ∧
      (showsAt c q b → hasColour s.ct b (rasterOffset c q) t) ∧
      ∀ a, (showsAt c q b → ¬ (rasterOffset c q ≤ a ∧ a < rasterOffset c q + 4)) → t.fbRead a = s.fbRead a := by
  have hw0 := width_pos hw
  have hrow : q / c.width.toNat < c.height.toNat := Nat.div_lt_of_lt_mul hlt
  have hcolumn := Nat.mod_lt q hw0
  have hleft := c.left.isLt
  have hwidth := c.width.isLt
  have htop := c.top.isLt
  have hheight := c.height.isLt
  obtain ⟨hx, hy⟩ := id hq
  have hx' : (BitVec.ofNat 17 (c.left.toNat + q % c.width.toNat)).toNat = c.left.toNat + q % c.width.toNat :=
    ofNat_toNat_of_lt (by omega)
  have hy' : (BitVec.ofNat 17 (c.top.toNat + q / c.width.toNat)).toNat = c.top.toNat + q / c.width.toNat :=
    ofNat_toNat_of_lt (by omega)
  have hpen := nextPen_ok hp hx hy (by omega)
  have hnext := nextPen_penAt hw hq (by omega)
  by_cases ht : transparent c b = true
  · exact ⟨_, paintByte_transparent hc hp hx hy ht, hc, rfl, hpen, hnext, fun ⟨_, _, _, hvis⟩ => by simp [ht] at hvis,
      fun _ _ => rfl⟩
  · have hb := hcol.resolve_left ht
    obtain ⟨e, he⟩ := configured_colour hc hb
    obtain ⟨fb, hwrite, hshow, hsame⟩ := clippedWrite_raster hw hlt (by simpa using ht) he
    have hbyte := paintByte_visible hc hp hx hy ht hb he
    rw [hx', hy', hwrite] at hbyte
    refine ⟨_, hbyte, hc, rfl, hpen, hnext, fun hk => ?_, fun a ha => ?_⟩
    · exact hasColour_congr (hshow hk) fun a _ _ => fbRead_setDp _ _ a
    · rw [fbRead_setDp, hsame a ha]

/-- A string from raster position `q` on: byte k shows at position q + k, every other byte of FB stays, and the pen stands
behind the last byte handled (R126, R132, R134). -/
theorem paintList_raster {c : Cfg} (str : List Byte) {s : State} {q : Nat} (hc : configured c s) (hp : penOk c s.dp)
    (hq : penAt c q s.dp) (hw : c.width ≠ 0) (hle : q ≤ c.width.toNat * c.height.toNat)
    (hcol : colorsInRange c (str.take (c.width.toNat * c.height.toNat - q))) :
    ∃ t, paintList str s = .ok () t ∧ penAt c (min (q + str.length) (c.width.toNat * c.height.toNat)) t.dp ∧
      (∀ k b, str[k]? = some b → showsAt c (q + k) b → hasColour s.ct b (rasterOffset c (q + k)) t) ∧
      ∀ a, (∀ k b, str[k]? = some b → showsAt c (q + k) b →
          ¬ (rasterOffset c (q + k) ≤ a ∧ a < rasterOffset c (q + k) + 4)) → t.fbRead a = s.fbRead a := by
  induction str generalizing s q with
  | nil => exact ⟨s, rfl, by rwa [List.length_nil, Nat.add_zero, Nat.min_eq_left hle], nofun, fun _ _ => rfl⟩
  | cons b str ih =>
    obtain hbottom | hlt := hle.eq_or_lt
    · refine ⟨s, paintList_bottom _ hp hq.2 ((penAt_bottom_iff hw hle).2 hbottom),
        by rwa [Nat.min_eq_right (by omega), ← hbottom], fun k b' _ hshows => ?_, fun _ _ => rfl⟩
      obtain ⟨hbelow, -⟩ := hshows
      omega
    · rw [show c.width.toNat * c.height.toNat - q = c.width.toNat * c.height.toNat - (q + 1) + 1 by omega,
        List.take_succ_cons, colorsInRange_cons] at hcol
      obtain ⟨hb, hrest⟩ := hcol
      obtain ⟨s1, hbyte, hc1, hct1, hp1, hq1, hshow1, hsame1⟩ := paintByte_raster hc hp hq hw hlt hb
      obtain ⟨t, hlist, hpen, hshow, hsame⟩ := ih hc1 hp1 hq1 hlt hrest
      rw [hct1] at hshow
      refine ⟨t, ?_, ?_, fun k b' hk hk' => ?_, fun a ha => ?_⟩
      · rw [paintList_cons b str hp hq.2, if_neg (mt (penAt_bottom_iff hw hle).1 hlt.ne), hbyte, Res.bind_ok,
          hlist]
      · rwa [List.length_cons, ← Nat.add_assoc, Nat.add_right_comm]
      · cases k with
        | zero =>
          cases hk
          refine hasColour_congr (hshow1 hk') fun a hlow hhigh => hsame a fun j b'' _ hj hin => ?_
          have := rasterOffset_disjoint hk' hj ⟨hlow, hhigh⟩ hin
          omega
        | succ k =>
          rw [← Nat.add_assoc, Nat.add_right_comm] at hk' ⊢
          exact hshow k b' hk hk'
      · rw [hsame a fun k b' hk hk' => ?_]
        · exact hsame1 a (ha 0 b rfl)
        · rw [Nat.add_right_comm, Nat.add_assoc] at hk' ⊢
          exact ha (k + 1) b' hk hk'

/-- Settles O43: `paintList_raster`, with `showsAt`, `rasterOffset` and `hasColour` written out. -/
theorem stringLandsInRasterOrder : Obligations.StringLandsInRasterOrder := by
  intro c s str q hc hp hq hw hle hcol
  obtain ⟨t, hlist, hpen, hshow, hsame⟩ := paintList_raster str hc hp hq hw hle hcol
  exact ⟨t, hlist, hpen, fun k b hk hlt hx hy hvis => hshow k b hk ⟨hlt, hx, hy, hvis⟩,
    fun a ha => hsame a fun k b hk ⟨hlt, hx, hy, hvis⟩ => ha k b hk hlt hx hy hvis⟩

end Sys2Proof.Machine
end

section
/-! PROOF. 42_decoder.md: the painting codes (R109, R111, R112) and the colour fault they take (R128, R148). -/

namespace Sys2Proof.Machine

/-- Settles O21: PAINT answers by `paint_answers`, and START_LITERAL sets OLD and PHASE on its state. -/
theorem startLiteralPaints : Obligations.StartLiteralPaints := by
  intro c m ci s v hr hv hcol
  have hstr := atomic_string (running_dictOk hr) hv
  obtain ⟨pb, fb, dp, hpaint, -⟩ := paint_answers hr (live_atomic hv) hstr hcol
  refine ⟨_, hpaint, hstr, ?_⟩
  rw [exec, execStartLiteral, hpaint]
  rfl

/-- Settles O22: PAINT answers by `paint_answers`, the first byte is the string's, and the add is frozen or stores. -/
theorem existingPaintsThenAdds : Obligations.ExistingPaintsThenAdds := by
  intro c m ci s v o b bs hr hold ho hv hstr hcol
  have hd := running_dictOk hr
  obtain ⟨pb, fb, dp, hpaint, hdp⟩ := paint_answers hr hv hstr hcol
  -- PAINT leaves the dictionary, so the rest runs on the same entries
  have hd' : dictOk m ci (((s.setPb pb).setFb fb).setDp dp).dict := hd
  obtain ⟨hfirst, hb⟩ := firstByte_of_string hd' hv hstr
  have hexec : exec (.existing v) s =
      ((dictAdd (linkOfCode o) b (((s.setPb pb).setFb fb).setDp dp)).bind fun _ s => .ok () (setOld v s)).finish := by
    rw [exec, execExisting, hpaint, Res.bind_ok, hfirst, Res.bind_ok]
    simp only [State.setDp_dp, hdp, hold, need_some]
  rcases dictAdd_cases hd' ho hb with ⟨rfl, hadd⟩ | ⟨hlt, n, hn, -, -, hadd, hok⟩ <;> rw [hadd] at hexec
  · exact ⟨_, s.dict, hpaint, hexec, fun _ => rfl, fun h => absurd h (lt_irrefl _)⟩
  · exact ⟨_, _, hpaint, hexec, fun h => by omega, fun _ => addedDict_entryAdded hok hn⟩

/-- KWKWK up to its PAINT: the entry is added, its string is OLD's with its first byte behind it, and the decode goes on
with the larger dictionary (R112). -/
theorem kwkwk_adds {c : Cfg} {m ci : Nat} {s : State} {v o : Code} {b : Byte} {bs : List Byte} (hr : running c m ci s)
    (hold : s.dp.old = some o) (ho : live m ci o.toNat) (hv : v.toNat = ci)
    (hstr : entryString 4096 s.dict o.toNat = some (b :: bs)) :
    ∃ d, entryAdded m ci o b s.dict d ∧ entryString 4096 d ci = some (b :: bs ++ [b]) ∧
      running c m (ci + 1) (s.setDict d) ∧ live m (ci + 1) ci ∧
      exec (.kwkwk v) s = ((paint ci (s.setDict d)).bind fun _ s => .ok () (setOld v s)).finish := by
  have hd := running_dictOk hr
  have hv4 := v.isLt
  obtain ⟨-, -, hci, -⟩ := id hd
  obtain ⟨hfirst, hb⟩ := firstByte_of_string hd ho hstr
  rcases dictAdd_cases hd ho hb with ⟨rfl, -⟩ | ⟨hlt, n, hn, -, -, hadd, hok⟩
  · omega
  · obtain ⟨hc, hreader, -, hp⟩ := hr
    refine ⟨_, addedDict_entryAdded hok hn, added_string hd hlt ho hstr, ⟨hc, hreader, hok, hp⟩,
      .inr ⟨by omega, by omega⟩, ?_⟩
    simp only [exec, execKwkwk, hold, need_some, hfirst, Res.bind_ok, hadd]

/-- Settles O23: `kwkwk_adds`, then PAINT of the new entry answers. -/
theorem kwkwkAddsThenPaints : Obligations.KwkwkAddsThenPaints := by
  intro c m ci s v o b bs hr hold ho hv hstr hcol
  obtain ⟨d, hadded, hstr', hr', hlive, hexec⟩ := kwkwk_adds hr hold ho hv hstr
  obtain ⟨pb, fb, dp, hpaint, -⟩ := paint_answers hr' hlive hstr' hcol
  rw [hpaint] at hexec
  exact ⟨_, d, hadded, hstr', hpaint, hexec⟩

/-- A painting code whose PAINT raises aborts with ColorIndexOutOfRange, on a state that differs outside rectangle and
canvas in no byte of FB (R128, R148). -/
theorem colourFault_raises {c : Cfg} {m ci : Nat} {s : State} {v : Code} {i : Instr} {str : List Byte}
    (hr : running c m ci s)
    (hi : (i = .startLiteral v ∧ v.toNat < 2 ^ m ∧ str = [BitVec.ofNat 8 v.toNat]) ∨
      (i = .existing v ∧ live m ci v.toNat ∧ entryString 4096 s.dict v.toNat = some str) ∨
      (i = .kwkwk v ∧ v.toNat = ci ∧
        ∃ o b bs, s.dp.old = some o ∧ live m ci o.toNat ∧ entryString 4096 s.dict o.toNat = some (b :: bs) ∧
          str = b :: bs ++ [b]))
    (hcol : ¬ colorsInRange c (str.take (room c s.dp))) :
    ∃ u, exec i s = .next (abort (.malformed .colorIndexOutOfRange) u) ∧ u.cfg = some c ∧ keepsOut c s u := by
  have hcfg := running_cfg hr
  rcases hi with ⟨rfl, hv, rfl⟩ | ⟨rfl, hlive, hstr⟩ | ⟨rfl, hv, o, b, bs, hold, ho, hstr, rfl⟩
  · obtain ⟨u, hpaint, hcfg', hout⟩ :=
      paint_raises hr (live_atomic hv) (atomic_string (running_dictOk hr) hv) hcol
    exact ⟨u, by rw [exec, execStartLiteral, hpaint]; rfl, hcfg'.trans hcfg, hout⟩
  · obtain ⟨u, hpaint, hcfg', hout⟩ := paint_raises hr hlive hstr hcol
    exact ⟨u, by rw [exec, execExisting, hpaint]; rfl, hcfg'.trans hcfg, hout⟩
  · obtain ⟨d, -, hstr', hr', hlive, hexec⟩ := kwkwk_adds hr hold ho hv hstr
    obtain ⟨u, hpaint, hcfg', hout⟩ := paint_raises hr' hlive hstr' hcol
    exact ⟨u, by rw [hexec, hpaint]; rfl, hcfg'.trans hcfg, hout⟩

/-- Settles O24: the code aborts by `colourFault_raises`, and `abortTakesAnException` says what that leaves. -/
theorem colourFaultsAbort : Obligations.ColourFaultsAbort := by
  intro c m ci s v i str hr hi hcol
  obtain ⟨u, hexec, hcfg, hout⟩ := colourFault_raises hr hi hcol
  obtain ⟨hp, hst, hend, hrel, -⟩ := abortTakesAnException (.malformed .colorIndexOutOfRange) u
  exact ⟨_, hexec, hp, hst, hend, hrel, abort_out hcfg hout⟩

end Sys2Proof.Machine
end
